-- ==== Sys2Proof/Word.lean ====
section
/-! DEFINITION. The word types of HUFCORE (spec/00_scope.md R7, R9, R10). Every value is an unsigned integer of a stated
width, so a bit vector; a bit string is a sequence of bits and not a number (R10), so a list. -/

namespace Sys2Proof

/-- A Symbol, `SYMW` = 8 bits (R7). -/
abbrev Symbol := BitVec 8

/-- A byte of the compressed bit stream (R50). -/
abbrev Byte := BitVec 8

/-- A count of the Frequency Map, `CNTW` = 32 bits (R7, R21). -/
abbrev Count := BitVec 32

/-- A node's frequency, `WW` = 40 bits (R7, R22). -/
abbrev Weight := BitVec 40

/-- A node index, `IDXW` = 9 bits (R7, R26). -/
abbrev NodeIdx := BitVec 9

/-- An event counter, `CTRW` = 48 bits (R7, R32, R34). -/
abbrev Counter := BitVec 48

/-- A command word, `CMDW` = 48 bits (R7, R80). -/
abbrev CmdWord := BitVec 48

/-- A response word, `RSPW` = 64 bits (R7, R86). -/
abbrev RspWord := BitVec 64

/-- The data field of a response, 56 bits (R86). -/
abbrev RspData := BitVec 56

/-- A bit string (R10): leftmost bit first. -/
abbrev BitString := List Bool

end Sys2Proof
end

