-- ==== Sys2Proof/Syntax.lean ====
section
/-! DEFINITION. The command set HUFCMD version 1 (spec/30_encoding.md R81, R82): one constructor per row of
spec/opcode_table.json. An operand's type has exactly the width of its field (R84), so a term of this type has no operand
that its field cannot spell; what can be ill-formed is a word (WellFormed.lean). -/

namespace Sys2Proof

/-- A command. Operand values a field can spell and the command does not allow (`idx >= NNODES`, `nbits` not 1 to 8,
`n > 12`) are legal commands that answer `E_RANGE` (R84). -/
inductive Instr where
  /-- `NOP` (R101). -/
  | nop
  /-- `CLR` (R102). -/
  | clr
  /-- `LDF sym, count` (R103). -/
  | ldf (sym : Symbol) (count : Count)
  /-- `BUILD` (R110). -/
  | build
  /-- `DERIVE` (R130). -/
  | derive
  /-- `ENC sym` (R142). -/
  | enc (sym : Symbol)
  /-- `FLUSH` (R143). -/
  | flush
  /-- `ERST` (R144). -/
  | erst
  /-- `DRST` (R162). -/
  | drst
  /-- `DBIT bit` (R163). -/
  | dbit (bit : Bool)
  /-- `DBYTE byte, nbits` (R164). -/
  | dbyte (byte : Byte) (nbits : BitVec 4)
  /-- `DEND` (R165). -/
  | dend
  /-- `RDF sym` (R181). -/
  | rdf (sym : Symbol)
  /-- `RDNL idx` (R182). -/
  | rdnl (idx : NodeIdx)
  /-- `RDNW idx` (R183). -/
  | rdnw (idx : NodeIdx)
  /-- `RDC sym, k` (R184). -/
  | rdc (sym : Symbol) (k : BitVec 3)
  /-- `RDS n` (R185). -/
  | rds (n : BitVec 8)
  deriving DecidableEq, Repr

end Sys2Proof
end

