-- ==== Sys2Proof/WellFormed.lean ====
section
/-! DEFINITION. Which 48-bit words are commands, read from the `match` and `mask` columns of spec/opcode_table.json
(spec/30_encoding.md R81 to R83, R85). Decode.lean reads the same words field by field instead; that the two agree is a
statement of its own. -/

namespace Sys2Proof

/-- A row of the opcode map (R82). -/
structure Row where
  mnemonic : String
  pattern : CmdWord
  mask : CmdWord
  deriving DecidableEq, Repr

/-- Does the row select the word: `(w & mask) = match` (R83). -/
def Row.selects (r : Row) (w : CmdWord) : Bool := w &&& r.mask == r.pattern

/-- Control and load, tree builder, code table deriver (R82). -/
def rowsControl : List Row :=
  [ ⟨"NOP", 0x000000000000#48, 0xFFFFFFFFFFFF#48⟩,
    ⟨"CLR", 0x010000000000#48, 0xFFFFFFFFFFFF#48⟩,
    ⟨"LDF", 0x020000000000#48, 0xFF0000000000#48⟩,
    ⟨"BUILD", 0x030000000000#48, 0xFFFFFFFFFFFF#48⟩,
    ⟨"DERIVE", 0x040000000000#48, 0xFFFFFFFFFFFF#48⟩ ]

/-- Bit encoder and bit decoder (R82). -/
def rowsCodec : List Row :=
  [ ⟨"ENC", 0x050000000000#48, 0xFF00FFFFFFFF#48⟩,
    ⟨"FLUSH", 0x060000000000#48, 0xFFFFFFFFFFFF#48⟩,
    ⟨"ERST", 0x070000000000#48, 0xFFFFFFFFFFFF#48⟩,
    ⟨"DRST", 0x080000000000#48, 0xFFFFFFFFFFFF#48⟩,
    ⟨"DBIT", 0x090000000000#48, 0xFFFEFFFFFFFF#48⟩,
    ⟨"DBYTE", 0x0A0000000000#48, 0xFF00FFFFFFF0#48⟩,
    ⟨"DEND", 0x0B0000000000#48, 0xFFFFFFFFFFFF#48⟩ ]

/-- Readback (R82). -/
def rowsRead : List Row :=
  [ ⟨"RDF", 0x100000000000#48, 0xFF00FFFFFFFF#48⟩,
    ⟨"RDNL", 0x110000000000#48, 0xFFFFFFFFFE00#48⟩,
    ⟨"RDNW", 0x120000000000#48, 0xFFFFFFFFFE00#48⟩,
    ⟨"RDC", 0x130000000000#48, 0xFF00FFFFFFF8#48⟩,
    ⟨"RDS", 0x140000000000#48, 0xFF00FFFFFFFF#48⟩ ]

/-- The 17 rows of the opcode map, in the table's order (R82). -/
def opcodeRows : List Row := rowsControl ++ rowsCodec ++ rowsRead

/-- Is the word a command: some row selects it (R83, R85). A word with an unassigned opcode or with a nonzero reserved bit
is not. -/
def CmdWord.wellFormed (w : CmdWord) : Bool := opcodeRows.any (·.selects w)

/-- The mnemonic of a command, as spec/opcode_table.json spells it. -/
def Instr.mnemonic : Instr → String
  | .nop => "NOP"
  | .clr => "CLR"
  | .ldf _ _ => "LDF"
  | .build => "BUILD"
  | .derive => "DERIVE"
  | .enc _ => "ENC"
  | .flush => "FLUSH"
  | .erst => "ERST"
  | .drst => "DRST"
  | .dbit _ => "DBIT"
  | .dbyte _ _ => "DBYTE"
  | .dend => "DEND"
  | .rdf _ => "RDF"
  | .rdnl _ => "RDNL"
  | .rdnw _ => "RDNW"
  | .rdc _ _ => "RDC"
  | .rds _ => "RDS"

end Sys2Proof
end

