-- ==== Sys2Proof/Decode.lean ====
section
/-! DEFINITION. Decoding of a command word, total on all `2^48` words (spec/30_encoding.md R80 to R85), and the encoder
beside it, written from the same formats. -/

namespace Sys2Proof

/-- Why a word is no command (R85): both answer `E_ILLEGAL`. -/
inductive DecodeError where
  /-- The opcode is one of the 239 unassigned ones (R85 (a)). -/
  | unassignedOpcode
  /-- An assigned opcode with a nonzero reserved bit (R85 (b)). -/
  | reservedBitSet
  deriving DecidableEq, Repr

/-- The opcode field, bits [47:40] (R80). -/
def opField (w : CmdWord) : BitVec 8 := w.extractLsb' 40 8

/-- The byte operand field, bits [39:32] (R80). -/
def aField (w : CmdWord) : BitVec 8 := w.extractLsb' 32 8

/-- The word operand field, bits [31:0] (R80). -/
def dField (w : CmdWord) : BitVec 32 := w.extractLsb' 0 32

/-- The command `i` if the word's reserved bits are all zero (R80). -/
def whenReserved (zero : Bool) (i : Instr) : Except DecodeError Instr :=
  if zero then .ok i else .error .reservedBitSet

/-- Format `Z`: `a` and `d` reserved (R81). -/
def formatZ (w : CmdWord) (i : Instr) : Except DecodeError Instr :=
  whenReserved (aField w == 0#8 && dField w == 0#32) i

/-- Formats `S` and `N`: `a` whole is the operand, `d` reserved (R81). -/
def formatA (w : CmdWord) (i : BitVec 8 → Instr) : Except DecodeError Instr :=
  whenReserved (dField w == 0#32) (i (aField w))

/-- Format `B`: `a[0]` is the operand, `a[7:1]` and `d` reserved (R81). -/
def formatB (w : CmdWord) (i : Bool → Instr) : Except DecodeError Instr :=
  whenReserved ((aField w).extractLsb' 1 7 == 0#7 && dField w == 0#32) (i ((aField w).getLsbD 0))

/-- Format `BN`: `a` whole and `d[3:0]` are the operands, `d[31:4]` reserved (R81). -/
def formatBN (w : CmdWord) (i : BitVec 8 → BitVec 4 → Instr) : Except DecodeError Instr :=
  whenReserved ((dField w).extractLsb' 4 28 == 0#28) (i (aField w) ((dField w).extractLsb' 0 4))

/-- Format `I`: `d[8:0]` is the operand, `a` and `d[31:9]` reserved (R81). -/
def formatI (w : CmdWord) (i : BitVec 9 → Instr) : Except DecodeError Instr :=
  whenReserved (aField w == 0#8 && (dField w).extractLsb' 9 23 == 0#23) (i ((dField w).extractLsb' 0 9))

/-- Format `SK`: `a` whole and `d[2:0]` are the operands, `d[31:3]` reserved (R81). -/
def formatSK (w : CmdWord) (i : BitVec 8 → BitVec 3 → Instr) : Except DecodeError Instr :=
  whenReserved ((dField w).extractLsb' 3 29 == 0#29) (i (aField w) ((dField w).extractLsb' 0 3))

/-- `Decode` (R82, R83): stateless and total. -/
def decode (w : CmdWord) : Except DecodeError Instr :=
  match (opField w).toNat with
  | 0x00 => formatZ w .nop
  | 0x01 => formatZ w .clr
  | 0x02 => .ok (.ldf (aField w) (dField w))
  | 0x03 => formatZ w .build
  | 0x04 => formatZ w .derive
  | 0x05 => formatA w .enc
  | 0x06 => formatZ w .flush
  | 0x07 => formatZ w .erst
  | 0x08 => formatZ w .drst
  | 0x09 => formatB w .dbit
  | 0x0A => formatBN w .dbyte
  | 0x0B => formatZ w .dend
  | 0x10 => formatA w .rdf
  | 0x11 => formatI w .rdnl
  | 0x12 => formatI w .rdnw
  | 0x13 => formatSK w .rdc
  | 0x14 => formatA w .rds
  | _ => .error .unassignedOpcode

/-- The opcode of a command (R82). -/
def Instr.opcode : Instr → BitVec 8
  | .nop => 0x00#8
  | .clr => 0x01#8
  | .ldf _ _ => 0x02#8
  | .build => 0x03#8
  | .derive => 0x04#8
  | .enc _ => 0x05#8
  | .flush => 0x06#8
  | .erst => 0x07#8
  | .drst => 0x08#8
  | .dbit _ => 0x09#8
  | .dbyte _ _ => 0x0A#8
  | .dend => 0x0B#8
  | .rdf _ => 0x10#8
  | .rdnl _ => 0x11#8
  | .rdnw _ => 0x12#8
  | .rdc _ _ => 0x13#8
  | .rds _ => 0x14#8

/-- The byte operand field of a command's word, reserved bits zero (R81). -/
def Instr.aOperand : Instr → BitVec 8
  | .ldf sym _ => sym
  | .enc sym => sym
  | .dbit bit => 0#7 ++ BitVec.ofBool bit
  | .dbyte byte _ => byte
  | .rdf sym => sym
  | .rdc sym _ => sym
  | .rds n => n
  | .nop | .clr | .build | .derive | .flush | .erst | .drst | .dend | .rdnl _ | .rdnw _ => 0#8

/-- The word operand field of a command's word, reserved bits zero (R81). -/
def Instr.dOperand : Instr → BitVec 32
  | .ldf _ count => count
  | .dbyte _ nbits => 0#28 ++ nbits
  | .rdnl idx => 0#23 ++ idx
  | .rdnw idx => 0#23 ++ idx
  | .rdc _ k => 0#29 ++ k
  | .nop | .clr | .build | .derive | .enc _ | .flush | .erst | .drst | .dbit _ | .dend | .rdf _ | .rds _ => 0#32

/-- The word of a command: op, a and d, the opcode in the most significant place (R80). -/
def encode (i : Instr) : CmdWord := i.opcode ++ i.aOperand ++ i.dOperand

/-- The host's reading of a table row: a command word travels whole (spec/20_memory.md R64), so the number `w` is the word
itself, and a number that does not fit 48 bits is no command word. Every command is 48 bits long (R80), so the length the
table gives adds nothing (log 10). -/
def decodeTableWord (_nbits w : Nat) : Option Instr :=
  if w < 2 ^ 48 then (decode (BitVec.ofNat 48 w)).toOption else none

end Sys2Proof
end

