-- ==== Sys2Proof/Config.lean ====
section
/-! DEFINITION. What this hardware fixes: the parameters of spec/00_scope.md R7 and the constant `ID` of
spec/10_state.md R37. The spec leaves no result of any command open, so there is no free value here. -/

namespace Sys2Proof.Config

/-- `NSYM`: size of the alphabet, 2 ^ `SYMW` (R7). -/
def nsym : Nat := 256

/-- `NNODE_MAX`: number of entries of the node memory (R7). -/
def nnodeMax : Nat := 511

/-- `MAXLEN`: greatest length of a code word in bits (R7, R120). -/
def maxLen : Nat := 255

/-- `ID`: the letters HUF and the version byte 1 (R37). -/
def idValue : BitVec 32 := 0x48554601#32

/-- The greatest number of a control and status register (R37). -/
def csrMax : Nat := 12

end Sys2Proof.Config
end

