-- ==== Sys2Proof/Machine/State.lean ====
section
/-! DEFINITION. The state of HUFCORE (spec/10_state.md R20 to R39), the input and output ports as plain data, the reasons
a step can stop, and the state after reset (spec/70_reset_and_hazards.md R251). -/

namespace Sys2Proof.Machine

/-- `MODE` (R35). -/
inductive Mode where
  | run
  | fault
  deriving DecidableEq, Repr

/-- `TSTATE`: what the last `BUILD` produced (R28). The value 3 is never written, so it is no value of the type. -/
inductive TState where
  /-- `NONE` = 0: no `BUILD` has run. -/
  | none
  /-- `EMPTY` = 1: `BUILD` ran on an empty map. -/
  | empty
  /-- `VALID` = 2: there is a tree. -/
  | valid
  deriving DecidableEq, Repr

/-- A node (R27): a leaf, or an internal node with exactly two children given by their indices. -/
inductive Node where
  | leaf (sym : Symbol) (w : Weight)
  | internal (w : Weight) (left right : NodeIdx)
  deriving DecidableEq, Repr

/-- A table by index, held sparsely: the entries that are listed, keys strictly rising (log 7). What an unlisted index
reads as is said by the table's own read in Ops.lean. -/
abbrev Memory (α : Type) := List (Nat × α)

/-- The architectural state: three tables and seventeen scalar registers (R20). `ID` is a constant (Config). -/
structure Arch where
  /-- `FREQ` (R21): the nonzero entries; an unlisted symbol reads 0. -/
  freq : Memory Count
  /-- `NODE` (R26): the entries that hold a value, index 0 first. -/
  node : List Node
  /-- `CODE` (R29): the present entries; an unlisted symbol is absent. -/
  code : Memory BitString
  /-- `MODE` (R35). -/
  mode : Mode
  /-- `TSTATE` (R28). -/
  tstate : TState
  /-- `CVALID` (R30). -/
  cvalid : Bool
  /-- `NLEAF` (R23). -/
  nleaf : BitVec 9
  /-- `NNODES` (R24). -/
  nnodes : BitVec 9
  /-- `ROOT` (R25). -/
  root : NodeIdx
  /-- `ACC` (R31). -/
  acc : Byte
  /-- `NACC` (R31). -/
  nacc : BitVec 3
  /-- `EBITS` (R32). -/
  ebits : Counter
  /-- `ESYM` (R32). -/
  esym : Counter
  /-- `DCUR` (R33). -/
  dcur : NodeIdx
  /-- `DBITS` (R34). -/
  dbits : Counter
  /-- `DSYM` (R34). -/
  dsym : Counter
  /-- `FRAME` (R36). -/
  frame : Bool
  /-- `ECAUSE` (R39). -/
  ecause : BitVec 8
  /-- `ECMD` (R39). -/
  ecmd : CmdWord
  deriving DecidableEq, Repr

/-- What the host can do to the block: send a command word (R51) or reset it (R54, R250). -/
inductive Event where
  /-- A command word on `cmd`. -/
  | command (w : CmdWord)
  /-- An event on `rst` between two commands. -/
  | reset
  /-- The command `w` is taken and an event on `rst` cuts it short after the first `k` of the items it would have emitted
  (R250). `k` is the environment's, any number (log 3). -/
  | resetDuring (w : CmdWord) (k : Nat)
  deriving DecidableEq, Repr

/-- The ports (R50). The inputs not yet taken and the record of what has been sent: the model's own fields (log 1, log 2),
no state of the block (R46). -/
structure Ports where
  /-- Input events not yet taken, the next one first. -/
  pending : List Event
  /-- Response words sent (R52), oldest first. -/
  rsp : List RspWord
  /-- Bytes emitted on `OB` (R46, R53), oldest first. -/
  ob : List Byte
  /-- Symbols emitted on `OS` (R46, R53), oldest first. -/
  os : List Symbol
  deriving DecidableEq, Repr

/-- The block and its ports. -/
structure State where
  arch : Arch
  ports : Ports
  deriving DecidableEq, Repr

/-- Where the model stops. The spec's own errors are answers and not stops (spec/60_exceptions.md R224); these name
accesses that the spec says never happen, in states that no run from reset reaches (log 5, log 8). -/
inductive Fault where
  /-- An access to a `NODE` entry that holds no value (R26). Raised by `nodeRead` (`RDNL`, `RDNW`, `DERIVE`, `DBIT`,
  `DBYTE`). Safe: the model stops where the spec gives no value. -/
  | nodeHoldsNoValue
  /-- The decoder's cursor stands on a leaf, so the field `left` or `right` read by `DecodeBit` does not exist
  (spec/00_scope.md R11: "never happens in any rule"). Raised by `decodeBit` (`DBIT`, `DBYTE`). Safe. -/
  | cursorOnLeaf
  /-- `Walk` (spec/42_code_table_deriver.md R131) went down more edges than there are nodes, so it does not end. Raised by
  `walk` (`DERIVE`). Safe. -/
  | walkDoesNotEnd
  deriving DecidableEq, Repr

/-- Where the model gives an instruction no meaning. -/
inductive Refusal where
  /-- The instruction has no meaning yet. Raised only by exec's refused arms; there are none. Safe. -/
  | notModelled (mnemonic : String)
  deriving DecidableEq, Repr

/-- The status codes of a response (spec/60_exceptions.md R221). -/
inductive Status where
  | ok
  | illegal
  | seq
  | range
  | frame
  | nocode
  | faulted
  deriving DecidableEq, Repr

/-- What one command makes of the architectural state (spec/00_scope.md R8): the new state, the response, and the items
emitted on the two streams, first one first. -/
structure Reply where
  arch : Arch
  status : Status
  data : RspData
  ob : List Byte
  os : List Symbol
  deriving DecidableEq, Repr

/-- The architectural reset state (spec/70_reset_and_hazards.md R251), the same function for reset and `CLR` (R253). -/
def Arch.reset : Arch where
  freq := []
  node := []
  code := []
  mode := .run
  tstate := .none
  cvalid := false
  nleaf := 0#9
  nnodes := 0#9
  root := 0#9
  acc := 0#8
  nacc := 0#3
  ebits := 0#48
  esym := 0#48
  dcur := 0#9
  dbits := 0#48
  dsym := 0#48
  frame := false
  ecause := 0#8
  ecmd := 0#48

/-- Ports with nothing waiting and nothing sent. -/
def Ports.idle : Ports where
  pending := []
  rsp := []
  ob := []
  os := []

/-- The machine right after reset (R251), with nothing on its ports. -/
def State.reset : State where
  arch := .reset
  ports := .idle

end Sys2Proof.Machine
end

