-- ==== Sys2Proof/Machine/Flags.lean ====
section
/-! DEFINITION. The flags (spec/10_state.md R36, R38, R54), the status codes (spec/60_exceptions.md R221) and the guards that
read the control state `MODE`, `TSTATE`, `CVALID` (R222, R227). -/

namespace Sys2Proof.Machine

/-- The number of a status code (R221). -/
def Status.code : Status → BitVec 8
  | .ok => 0x00#8
  | .illegal => 0x01#8
  | .seq => 0x02#8
  | .range => 0x03#8
  | .frame => 0x04#8
  | .nocode => 0x05#8
  | .faulted => 0x06#8

/-- The two bits of `TSTATE` (R28). -/
def TState.bits : TState → BitVec 2
  | .none => 0#2
  | .empty => 1#2
  | .valid => 2#2

/-- `ATROOT` (R36): a function of the state, no register. -/
def atRoot (a : Arch) : Bool := a.tstate != .valid || a.dcur == a.root

/-- The output wire `fault_o` (R54), the flag `FAULT` (R36). -/
def faultO (a : Arch) : Bool := a.mode == .fault

/-- `STATUS` (R38): `TSTATE` in [1:0], `CVALID` [2], `FAULT` [3], `FRAME` [4], `ATROOT` [5], the rest 0. -/
def statusWord (a : Arch) : RspData :=
  0#50 ++ BitVec.ofBool (atRoot a) ++ BitVec.ofBool a.frame ++ BitVec.ofBool (faultO a) ++ BitVec.ofBool a.cvalid
    ++ a.tstate.bits

/-- The commands served in `FAULT` mode (R35, R222). -/
def servedInFault : Instr → Bool
  | .nop | .clr | .rdf _ | .rdnl _ | .rdnw _ | .rdc _ _ | .rds _ => true
  | .ldf _ _ | .build | .derive | .enc _ | .flush | .erst | .drst | .dbit _ | .dbyte _ _ | .dend => false

/-- `SeqGuard` (R227): is the command allowed in the present `TSTATE` and `CVALID`. -/
def seqGuard (i : Instr) (a : Arch) : Bool :=
  match i with
  | .ldf _ _ => a.tstate == .none
  | .build => a.tstate == .none
  | .derive => a.tstate != .none
  | .enc _ => a.cvalid
  | .dbit _ => a.tstate == .valid
  | .dbyte _ _ => a.tstate == .valid
  | .dend => a.tstate != .none
  | .rdc _ _ => a.cvalid
  | .nop | .clr | .flush | .erst | .drst | .rdf _ | .rdnl _ | .rdnw _ | .rds _ => true

end Sys2Proof.Machine
end

