-- ==== Sys2Proof/Machine/Operands.lean ====
section
/-! DEFINITION. The operands of the commands: their legal ranges (spec/20_memory.md R65), the control and status registers
(spec/10_state.md R37), and the layouts in which nodes and code words are read back (spec/45_readback.md R182, R184). -/

namespace Sys2Proof.Machine

/-- `RangeGuard` (R65): is every operand inside its legal range. -/
def rangeGuard (i : Instr) (a : Arch) : Bool :=
  match i with
  | .rdnl idx => idx.toNat < a.nnodes.toNat
  | .rdnw idx => idx.toNat < a.nnodes.toNat
  | .dbyte _ nbits => 1 ≤ nbits.toNat && nbits.toNat ≤ 8
  | .rds n => n.toNat ≤ Config.csrMax
  | .nop | .clr | .ldf _ _ | .build | .derive | .enc _ | .flush | .erst | .drst | .dbit _ | .dend | .rdf _ | .rdc _ _ => true

/-- The control and status register number `n`, zero-extended to the data field (R37). -/
def csr (a : Arch) (n : Nat) : Option RspData :=
  match n with
  | 0 => some (statusWord a)
  | 1 => some (Config.idValue.setWidth 56)
  | 2 => some (a.nleaf.setWidth 56)
  | 3 => some (a.nnodes.setWidth 56)
  | 4 => some (a.root.setWidth 56)
  | 5 => some (a.ebits.setWidth 56)
  | 6 => some (a.esym.setWidth 56)
  | 7 => some (((0#1 ++ a.nacc ++ a.acc : BitVec 12)).setWidth 56)
  | 8 => some (a.dcur.setWidth 56)
  | 9 => some (a.dbits.setWidth 56)
  | 10 => some (a.dsym.setWidth 56)
  | 11 => some (a.ecause.setWidth 56)
  | 12 => some (a.ecmd.setWidth 56)
  | _ => none

/-- What `RDNL` reads of a node (R182): right, left, sym, leaf. -/
def nodeLinks : Node → RspData
  | .leaf sym _ => 0#29 ++ 0#9 ++ 0#9 ++ sym ++ 1#1
  | .internal _ left right => 0#29 ++ right ++ left ++ 0#8 ++ 0#1

/-- A node's weight (R27). -/
def Node.weight : Node → Weight
  | .leaf _ w => w
  | .internal w _ _ => w

/-- Bit `255 - j` of the vector `V(p)` (spec/10_state.md R29) is bit `j` of the code word, 0 beyond its end. -/
def codeVectorBit (p : BitString) (j : Nat) : Bool := p.getD j false

/-- `V[255 - 32*k : 224 - 32*k]` (R184): bit 31 of the chunk is bit `32*k` of the code word. -/
def codeChunk (p : BitString) (k : BitVec 3) : BitVec 32 :=
  BitVec.ofBoolListBE ((List.range 32).map fun j => codeVectorBit p (32 * k.toNat + j)) |>.setWidth 32

/-- What `RDC` reads of an entry (R184): length and chunk, both 0 for an absent entry. -/
def codeReadout (entry : Option BitString) (k : BitVec 3) : RspData :=
  match entry with
  | none => 0#56
  | some p => 0#16 ++ BitVec.ofNat 8 p.length ++ codeChunk p k

/-- The bits `byte[7]`, `byte[6]`, ... that `DBYTE byte, nbits` consumes, first one first (R164). -/
def streamBits (byte : Byte) (nbits : BitVec 4) : List Bool :=
  (List.range nbits.toNat).map fun j => byte.getLsbD (7 - j)

end Sys2Proof.Machine
end

