-- ==== Sys2Proof/Machine/Ops.lean ====
section
/-! DEFINITION. The shared operations: the table accesses (spec/20_memory.md R61), answering a command
(spec/30_encoding.md R86), raising an error (spec/60_exceptions.md R224), and the frame every command runs in (R222, R223). -/

namespace Sys2Proof.Machine

/-! ### Tables -/

/-- The entry of a sparse table at index `k`, if it is listed. -/
def Memory.find {α : Type} (m : Memory α) (k : Nat) : Option α :=
  match m with
  | [] => none
  | (j, v) :: rest => if j = k then some v else Memory.find rest k

/-- The table without an entry at index `k`. -/
def Memory.erase {α : Type} (m : Memory α) (k : Nat) : Memory α := m.filter fun e => e.1 != k

/-- The table with one more entry, put before the first greater index. -/
def Memory.insert {α : Type} (m : Memory α) (k : Nat) (v : α) : Memory α :=
  match m with
  | [] => [(k, v)]
  | (j, u) :: rest => if k < j then (k, v) :: (j, u) :: rest else (j, u) :: Memory.insert rest k v

/-- The canonical form: indices strictly rising and below the table's size. -/
def Memory.wf {α : Type} (size : Nat) (m : Memory α) : Bool :=
  (m.map (·.1)).Pairwise (· < ·) ∧ ∀ e ∈ m, e.1 < size

/-- The canonical form of `FREQ`: no entry equal to what an unlisted symbol reads as, 0. -/
def freqWf (m : Memory Count) : Bool := Memory.wf Config.nsym m && m.all (·.2 != 0#32)

/-- The canonical form of `CODE`. -/
def codeWf (m : Memory BitString) : Bool := Memory.wf Config.nsym m

/-- `FREQ[s]` (R61, spec/10_state.md R21); every entry is 0 at reset (spec/70_reset_and_hazards.md R251). -/
def freqRead (m : Memory Count) (s : Nat) : Count := (Memory.find m s).getD 0#32

/-- `FREQ[s] <- v` (R61). -/
def freqWrite (m : Memory Count) (s : Nat) (v : Count) : Memory Count :=
  if v = 0#32 then Memory.erase m s else Memory.insert (Memory.erase m s) s v

/-- `CODE[s]` (R61, spec/10_state.md R29): absent or a bit string. -/
def codeRead (m : Memory BitString) (s : Nat) : Option BitString := Memory.find m s

/-- `CODE[s] <- p` (R61). -/
def codeWrite (m : Memory BitString) (s : Nat) (p : BitString) : Memory BitString :=
  Memory.insert (Memory.erase m s) s p

/-- `NODE[i]` (R61): an entry that holds no value stops the model (spec/10_state.md R26). -/
def nodeRead (nodes : List Node) (i : Nat) : Except Fault Node :=
  match nodes[i]? with
  | some n => .ok n
  | none => .error .nodeHoldsNoValue

/-! ### Answers -/

/-- `respond(OK, data)` with nothing emitted (spec/00_scope.md R11). -/
def respond (a : Arch) (data : RspData) : Reply where
  arch := a
  status := .ok
  data := data
  ob := []
  os := []

/-- `raise E_x` for the command word `w` (R224): in `RUN` mode the error registers are written, and `MODE` becomes `FAULT`
on `E_NOCODE`; in `FAULT` mode nothing changes; nothing is emitted and the data field is 0. -/
def raise (e : Status) (w : CmdWord) (a : Arch) : Reply where
  arch :=
    match a.mode with
    | .run => { a with ecause := e.code, ecmd := w, mode := if e = .nocode then .fault else .run }
    | .fault => a
  status := e
  data := 0#56
  ob := []
  os := []

/-- The response word (R86). -/
def Reply.word (r : Reply) : RspWord := r.status.code ++ r.data

/-- A command's answer reaches the ports (spec/10_state.md R52, R53): its emissions, then its one response. -/
def State.deliver (s : State) (r : Reply) : State where
  arch := r.arch
  ports :=
    { pending := s.ports.pending
      rsp := s.ports.rsp ++ [r.word]
      ob := s.ports.ob ++ r.ob
      os := s.ports.os ++ r.os }

/-- The first guard that fails, in the fixed order `E_FAULTED`, `E_SEQ`, `E_RANGE` (R222, R223). `E_ILLEGAL` comes before
all of them: an illegal word is no command. -/
def firstError (i : Instr) (a : Arch) : Option Status :=
  if a.mode = .fault ∧ servedInFault i = false then some .faulted
  else if seqGuard i a = false then some .seq
  else if rangeGuard i a = false then some .range
  else none

/-- The frame of every command (R223): the guards, then the command's own pseudocode. The word recorded in `ECMD` is the
command's one encoding (log 9). -/
def accept (i : Instr) (body : Arch → Except Fault Reply) (s : State) : Host.Outcome State Fault Refusal :=
  match firstError i s.arch with
  | some e => .next (s.deliver (raise e (encode i) s.arch))
  | none =>
    match body s.arch with
    | .ok r => .next (s.deliver r)
    | .error f => .fault f

/-! ### Input events -/

/-- The state once the events up to `rest` are taken. -/
def State.withPending (s : State) (rest : List Event) : State :=
  { s with ports := { s.ports with pending := rest } }

/-- The reset event (spec/70_reset_and_hazards.md R250, R251): every register and table to the reset state; the records of
the ports are no state of the block. -/
def State.resetEvent (s : State) : State := { s with arch := Arch.reset }

/-- An illegal word (spec/30_encoding.md R85, spec/60_exceptions.md R225). -/
def illegalWord (w : CmdWord) (s : State) : State := s.deliver (raise .illegal w s.arch)

/-- A command cut short by a reset event (spec/70_reset_and_hazards.md R250): `done` is the state the command would have
left; the first `k` of its emissions are kept, no response is sent, and the state is the reset state (log 3). -/
def cutShort (k : Nat) (s done : State) : State where
  arch := Arch.reset
  ports :=
    { pending := s.ports.pending
      rsp := s.ports.rsp
      ob := s.ports.ob ++ (done.ports.ob.drop s.ports.ob.length).take k
      os := s.ports.os ++ (done.ports.os.drop s.ports.os.length).take k }

end Sys2Proof.Machine
end

