-- ==== Sys2Proof/Machine/CodeTable.lean ====
section
/-! DEFINITION. The code table deriver: `DERIVE` (spec/42_code_table_deriver.md). -/

namespace Sys2Proof.Machine

/-- Record a leaf's path unless its symbol already has one (R132: the first visited wins). -/
def record (sym : Symbol) (p : BitString) (table : Memory BitString) : Memory BitString :=
  match codeRead table sym.toNat with
  | none => codeWrite table sym.toNat p
  | some _ => table

/-- `Walk(i, p)` (R131): depth first, the left subtree first. In a tree every child's index is below its parent's
(spec/41_tree_builder.md R119), so a way down has fewer edges than there are nodes; `depth` allows that many. -/
def walk (depth : Nat) (nodes : List Node) (i : Nat) (p : BitString) (table : Memory BitString) :
    Except Fault (Memory BitString) :=
  match depth with
  | 0 => .error .walkDoesNotEnd
  | depth + 1 =>
    match nodeRead nodes i with
    | .error f => .error f
    | .ok (.leaf sym _) => .ok (record sym p table)
    | .ok (.internal _ left right) =>
      match walk depth nodes left.toNat (p ++ [false]) table with
      | .error f => .error f
      | .ok table' => walk depth nodes right.toNat (p ++ [true]) table'

/-- `DeriveTable(NODE, ROOT, TSTATE)` (R131). -/
def deriveTable (nodes : List Node) (root : NodeIdx) (tstate : TState) : Except Fault (Memory BitString) :=
  match tstate with
  | .valid => walk nodes.length nodes root.toNat [] []
  | .none | .empty => .ok []

/-- `DERIVE` (R130): every entry of `CODE` is written. -/
def execDerive (s : State) : Host.Outcome State Fault Refusal :=
  accept .derive
    (fun a =>
      match deriveTable a.node a.root a.tstate with
      | .error f => .error f
      | .ok table => .ok (respond { a with code := table, cvalid := true } 0#56)) s

end Sys2Proof.Machine
end

