-- ==== Sys2Proof/Machine/Control.lean ====
section
/-! DEFINITION. Control and load: `NOP`, `CLR`, `LDF` (spec/40_control_and_load.md). -/

namespace Sys2Proof.Machine

/-- `NOP` (R101). -/
def execNop (s : State) : Host.Outcome State Fault Refusal :=
  accept .nop (fun a => .ok (respond a 0#56)) s

/-- `CLR` (R102): the reset state (spec/70_reset_and_hazards.md R253). -/
def execClr (s : State) : Host.Outcome State Fault Refusal :=
  accept .clr (fun _ => .ok (respond Arch.reset 0#56)) s

/-- `LDF sym, count` (R103). -/
def execLdf (sym : Symbol) (count : Count) (s : State) : Host.Outcome State Fault Refusal :=
  accept (.ldf sym count) (fun a => .ok (respond { a with freq := freqWrite a.freq sym.toNat count } 0#56)) s

end Sys2Proof.Machine
end

