-- ==== Sys2Proof/Machine/Decoder.lean ====
section
/-! DEFINITION. The bit decoder: `DRST`, `DBIT`, `DBYTE`, `DEND` (spec/44_bit_decoder.md). -/

namespace Sys2Proof.Machine

/-- The child the bit selects (R161): 0 is left, 1 is right. A leaf has no children. -/
def childOf (n : Node) (b : Bool) : Except Fault NodeIdx :=
  match n with
  | .leaf _ _ => .error .cursorOnLeaf
  | .internal _ left right => .ok (if b then right else left)

/-- `DecodeBit` (R161), with the symbols emitted. -/
def decodeBit (a : Arch) (b : Bool) : Except Fault (Arch × List Symbol) :=
  match nodeRead a.node a.dcur.toNat with
  | .error f => .error f
  | .ok n =>
    match childOf n b with
    | .error f => .error f
    | .ok c =>
      match nodeRead a.node c.toNat with
      | .error f => .error f
      | .ok (.leaf sym _) =>
        .ok ({ a with dbits := a.dbits + 1#48, dsym := a.dsym + 1#48, dcur := a.root }, [sym])
      | .ok (.internal _ _ _) => .ok ({ a with dbits := a.dbits + 1#48, dcur := c }, [])

/-- `DecodeBit` for every bit in order, with all the symbols emitted (R164). -/
def decodeBits (a : Arch) (bits : List Bool) : Except Fault (Arch × List Symbol) :=
  match bits with
  | [] => .ok (a, [])
  | b :: rest =>
    match decodeBit a b with
    | .error f => .error f
    | .ok (a', out) =>
      match decodeBits a' rest with
      | .error f => .error f
      | .ok (a'', out') => .ok (a'', out ++ out')

/-- The answer of a command that consumes the given bits (R163, R164). -/
def decodeReply (bits : List Bool) (a : Arch) : Except Fault Reply :=
  match decodeBits a bits with
  | .error f => .error f
  | .ok (a', out) => .ok { respond a' 0#56 with os := out }

/-- `DRST` (R162). -/
def execDrst (s : State) : Host.Outcome State Fault Refusal :=
  accept .drst
    (fun a => .ok (respond { a with dcur := a.root, dbits := 0#48, dsym := 0#48, frame := false } 0#56)) s

/-- `DBIT bit` (R163). -/
def execDbit (bit : Bool) (s : State) : Host.Outcome State Fault Refusal :=
  accept (.dbit bit) (decodeReply [bit]) s

/-- `DBYTE byte, nbits` (R164). -/
def execDbyte (byte : Byte) (nbits : BitVec 4) (s : State) : Host.Outcome State Fault Refusal :=
  accept (.dbyte byte nbits) (decodeReply (streamBits byte nbits)) s

/-- The pseudocode of `DEND` (R165): `FRAME` is set just before `E_FRAME` is raised. -/
def endOfStream (a : Arch) : Reply :=
  if atRoot a then respond a 0#56 else raise .frame (encode .dend) { a with frame := true }

/-- `DEND` (R165). -/
def execDend (s : State) : Host.Outcome State Fault Refusal :=
  accept .dend (fun a => .ok (endOfStream a)) s

end Sys2Proof.Machine
end

