-- ==== Sys2Proof/Machine/Encoder.lean ====
section
/-! DEFINITION. The bit encoder: `ENC`, `FLUSH`, `ERST` (spec/43_bit_encoder.md). -/

namespace Sys2Proof.Machine

/-- `PushBit` (R141), with the bytes emitted so far: the bit goes into the highest free place of `ACC`, the eighth bit
sends the byte out. -/
def pushBit (x : Arch × List Byte) (b : Bool) : Arch × List Byte :=
  let a := x.1
  let acc := a.acc ||| ((BitVec.ofBool b).setWidth 8 <<< (7 - a.nacc.toNat))
  if a.nacc = 7#3 then ({ a with acc := 0#8, nacc := 0#3, ebits := a.ebits + 1#48 }, x.2 ++ [acc])
  else ({ a with acc := acc, nacc := a.nacc + 1#3, ebits := a.ebits + 1#48 }, x.2)

/-- `PushBit` for every bit of a code word, first bit first (R142). -/
def pushBits (p : BitString) (a : Arch) : Arch × List Byte := p.foldl pushBit (a, [])

/-- The pseudocode of `ENC sym` (R142). -/
def encodeSymbol (sym : Symbol) (a : Arch) : Reply :=
  match codeRead a.code sym.toNat with
  | none => raise .nocode (encode (.enc sym)) a
  | some p =>
    { arch := { (pushBits p a).1 with esym := a.esym + 1#48 }
      status := .ok
      data := 0#56
      ob := (pushBits p a).2
      os := [] }

/-- `ENC sym` (R142). -/
def execEnc (sym : Symbol) (s : State) : Host.Outcome State Fault Refusal :=
  accept (.enc sym) (fun a => .ok (encodeSymbol sym a)) s

/-- The pseudocode of `FLUSH` (R143). -/
def flushByte (a : Arch) : Reply :=
  if a.nacc = 0#3 then respond a 0#56
  else { respond { a with acc := 0#8, nacc := 0#3 } 0#56 with ob := [a.acc] }

/-- `FLUSH` (R143). -/
def execFlush (s : State) : Host.Outcome State Fault Refusal :=
  accept .flush (fun a => .ok (flushByte a)) s

/-- `ERST` (R144). -/
def execErst (s : State) : Host.Outcome State Fault Refusal :=
  accept .erst (fun a => .ok (respond { a with acc := 0#8, nacc := 0#3, ebits := 0#48, esym := 0#48 } 0#56)) s

end Sys2Proof.Machine
end

