-- ==== Sys2Proof/Machine/Readback.lean ====
section
/-! DEFINITION. Readback: `RDF`, `RDNL`, `RDNW`, `RDC`, `RDS` (spec/45_readback.md). A read changes no state and emits
nothing (R180). -/

namespace Sys2Proof.Machine

/-- `RDF sym` (R181). -/
def execRdf (sym : Symbol) (s : State) : Host.Outcome State Fault Refusal :=
  accept (.rdf sym) (fun a => .ok (respond a ((freqRead a.freq sym.toNat).setWidth 56))) s

/-- The answer of a command that reads a node (R182, R183). -/
def nodeReply (idx : NodeIdx) (view : Node → RspData) (a : Arch) : Except Fault Reply :=
  match nodeRead a.node idx.toNat with
  | .error f => .error f
  | .ok n => .ok (respond a (view n))

/-- `RDNL idx` (R182). -/
def execRdnl (idx : NodeIdx) (s : State) : Host.Outcome State Fault Refusal :=
  accept (.rdnl idx) (nodeReply idx nodeLinks) s

/-- `RDNW idx` (R183). -/
def execRdnw (idx : NodeIdx) (s : State) : Host.Outcome State Fault Refusal :=
  accept (.rdnw idx) (nodeReply idx fun n => n.weight.setWidth 56) s

/-- `RDC sym, k` (R184). -/
def execRdc (sym : Symbol) (k : BitVec 3) (s : State) : Host.Outcome State Fault Refusal :=
  accept (.rdc sym k) (fun a => .ok (respond a (codeReadout (codeRead a.code sym.toNat) k))) s

/-- `RDS n` (R185). A number without a register answers `E_RANGE`, as the range check already does. -/
def execRds (n : BitVec 8) (s : State) : Host.Outcome State Fault Refusal :=
  accept (.rds n)
    (fun a =>
      match csr a n.toNat with
      | some data => .ok (respond a data)
      | none => .ok (raise .range (encode (.rds n)) a)) s

end Sys2Proof.Machine
end

