-- ==== Sys2Proof/Machine/TreeBuilder.lean ====
section
/-! DEFINITION. The tree builder: `BUILD` (spec/41_tree_builder.md). -/

namespace Sys2Proof.Machine

/-- Step 1 (R111): one leaf per present symbol, in ascending symbol order. -/
def leaves (freq : Memory Count) : List Node :=
  (List.range Config.nsym).filterMap fun s =>
    if freqRead freq s = 0#32 then none
    else some (.leaf (BitVec.ofNat 8 s) ((freqRead freq s).setWidth 40))

/-- Step 2 (R113): the one leaf of a one-symbol map is doubled. -/
def doubleLone (nodes : List Node) : List Node :=
  match nodes with
  | [n] => [n, n]
  | _ => nodes

/-- The order of the priorities `(weight, index)` (R112): smaller weight first, among equal weights the smaller index. -/
def lighter (x y : Weight × Nat) : Bool := x.1 < y.1 || (x.1 == y.1 && x.2 < y.2)

/-- The element of least priority and the collection without it (R112: `argmin`, then `Q \ {x}`). -/
def takeLightest (q : List (Weight × Nat)) : Option ((Weight × Nat) × List (Weight × Nat)) :=
  match q with
  | [] => none
  | x :: rest =>
    match takeLightest rest with
    | none => some (x, [])
    | some (m, others) => if lighter m x then some (m, x :: others) else some (x, m :: others)

/-- Step 3 (R112): while more than one tree remains, merge the two lightest; the first removed is the left child. The
collection `q` holds each index with its priority, the weight of its node; only the pairs removed are architectural
(R122, log 13). Each turn leaves one element fewer, so as many turns as there are elements are enough. -/
def merge (turns : Nat) (nodes : List Node) (q : List (Weight × Nat)) : List Node :=
  match turns with
  | 0 => nodes
  | turns + 1 =>
    match takeLightest q with
    | none => nodes
    | some (x, q1) =>
      match takeLightest q1 with
      | none => nodes
      | some (y, q2) =>
        merge turns (nodes ++ [.internal (x.1 + y.1) (BitVec.ofNat 9 x.2) (BitVec.ofNat 9 y.2)])
          (q2 ++ [(x.1 + y.1, nodes.length)])

/-- The collection before the first merge: every leaf's index with its weight (R112). -/
def collection (nodes : List Node) : List (Weight × Nat) := (nodes.map Node.weight).zipIdx

/-- `BuildTree` (R111 to R114): the nodes, and the number of distinct symbols. -/
def buildTree (freq : Memory Count) : List Node × Nat :=
  let present := leaves freq
  let start := doubleLone present
  (merge start.length start (collection start), present.length)

/-- `WriteTree` (R115). -/
def writeTree (nodes : List Node) (nleaf : Nat) (a : Arch) : Arch :=
  let a' := { a with nleaf := BitVec.ofNat 9 nleaf, nnodes := BitVec.ofNat 9 nodes.length, node := nodes }
  match nodes with
  | [] => { a' with tstate := .empty, root := 0#9, dcur := 0#9 }
  | _ :: _ =>
    { a' with
      tstate := .valid, root := BitVec.ofNat 9 (nodes.length - 1), dcur := BitVec.ofNat 9 (nodes.length - 1) }

/-- `BUILD` (R110). -/
def execBuild (s : State) : Host.Outcome State Fault Refusal :=
  accept .build
    (fun a => .ok (respond (writeTree (buildTree a.freq).1 (buildTree a.freq).2 a) 0#56)) s

end Sys2Proof.Machine
end

