-- ==== Sys2Proof/Machine/Dispatch.lean ====
section
/-! DEFINITION. The meaning of each command, one arm per constructor (spec/30_encoding.md R82). -/

namespace Sys2Proof.Machine

def exec (i : Instr) (s : State) : Host.Outcome State Fault Refusal :=
  match i with
  | .nop => Sys2Proof.Machine.execNop s
  | .clr => Sys2Proof.Machine.execClr s
  | .ldf sym count => Sys2Proof.Machine.execLdf sym count s
  | .build => Sys2Proof.Machine.execBuild s
  | .derive => Sys2Proof.Machine.execDerive s
  | .enc sym => Sys2Proof.Machine.execEnc sym s
  | .flush => Sys2Proof.Machine.execFlush s
  | .erst => Sys2Proof.Machine.execErst s
  | .drst => Sys2Proof.Machine.execDrst s
  | .dbit bit => Sys2Proof.Machine.execDbit bit s
  | .dbyte byte nbits => Sys2Proof.Machine.execDbyte byte nbits s
  | .dend => Sys2Proof.Machine.execDend s
  | .rdf sym => Sys2Proof.Machine.execRdf sym s
  | .rdnl idx => Sys2Proof.Machine.execRdnl idx s
  | .rdnw idx => Sys2Proof.Machine.execRdnw idx s
  | .rdc sym k => Sys2Proof.Machine.execRdc sym k s
  | .rds n => Sys2Proof.Machine.execRds n s

end Sys2Proof.Machine
end

