-- ==== Sys2Proof/Machine/Command.lean ====
section
/-! DEFINITION. Running one command word (spec/60_exceptions.md R223) and taking one input event
(spec/10_state.md R51, R54, spec/70_reset_and_hazards.md R250). -/

namespace Sys2Proof.Machine

/-- `Step(w)` (R223): an illegal word is answered before any other check. -/
def runWord (w : CmdWord) (s : State) : Host.Outcome State Fault Refusal :=
  match decode w with
  | .ok i => exec i s
  | .error _ => .next (illegalWord w s)

/-- The word `w`, cut short by a reset event after `k` emissions (R250). -/
def runWordCutShort (w : CmdWord) (k : Nat) (s : State) : Host.Outcome State Fault Refusal :=
  match runWord w s with
  | .next done => .next (cutShort k s done)
  | .fault f => .fault f
  | .refused r => .refused r

/-- Take the next input event. With none waiting the block waits (spec/60_exceptions.md R239), and nothing changes. -/
def takeEvent (s : State) : Host.Outcome State Fault Refusal :=
  match s.ports.pending with
  | [] => .next s
  | .command w :: rest => runWord w (s.withPending rest)
  | .reset :: rest => .next (s.withPending rest).resetEvent
  | .resetDuring w k :: rest => runWordCutShort w k (s.withPending rest)

/-- The word `w` is put on the command port as the next one to be taken. -/
def offerWord (w : CmdWord) (s : State) : State := s.withPending (.command w :: s.ports.pending)

end Sys2Proof.Machine
end

