-- ==== Sys2Proof/Machine/Step.lean ====
section
/-! DEFINITION. The step of the machine (spec/00_scope.md R8): take one input event and run it whole. -/

namespace Sys2Proof.Machine

/-- One step. -/
def step (s : State) : Host.Outcome State Fault Refusal := takeEvent s

/-- The state with the command word `w` waiting as the next one on the command port. HUFCORE fetches nothing
(spec/10_state.md R40): commands are sent by the host, so this stands for the host's sending (log 2). -/
def State.withFetchWord (s : State) (_nbits w : Nat) : State := offerWord (BitVec.ofNat 48 w) s

end Sys2Proof.Machine
end

