-- ==== Sys2Proof/Machine/Session.lean ====
section
/-! DEFINITION. What the host does with the commands: sequences of commands, the pseudo-commands of spec/30_encoding.md R89,
the Frequency Map of an input (spec/00_scope.md R6) and the framing of a stream (spec/44_bit_decoder.md R167). No part of the
block: statements about whole streams are made with these. -/

namespace Sys2Proof.Machine

/-- Run commands one after another, stopping at the first fault or refusal (spec/10_state.md R51). -/
def execAll (is : List Instr) (s : State) : Host.Outcome State Fault Refusal :=
  match is with
  | [] => .next s
  | i :: rest =>
    match exec i s with
    | .next t => execAll rest t
    | .fault f => .fault f
    | .refused r => .refused r

/-- `FreqOf(S)(c)`: the number of positions of `S` that hold `c` (spec/00_scope.md R6). -/
def freqOf (input : List Symbol) (c : Symbol) : Nat := input.count c

/-- The keys of `FreqOf(S)` in ascending order, each with its count (spec/00_scope.md R6). -/
def freqPairs (input : List Symbol) : List (Symbol × Count) :=
  (List.range Config.nsym).filterMap fun s =>
    if freqOf input (BitVec.ofNat 8 s) = 0 then none
    else some (BitVec.ofNat 8 s, BitVec.ofNat 32 (freqOf input (BitVec.ofNat 8 s)))

/-- `LDMAP` (R89). -/
def ldmap (pairs : List (Symbol × Count)) : List Instr := pairs.map fun e => .ldf e.1 e.2

/-- `LDMAPOF` (R89). -/
def ldmapOf (input : List Symbol) : List Instr := ldmap (freqPairs input)

/-- `PREP` (R89). -/
def prep : List Instr := [.build, .derive]

/-- `ENCS` (R89). -/
def encs (input : List Symbol) : List Instr := input.map .enc

/-- `DECS b0 b1 ..., L` (R89): every byte with 8 bits, the last with what is left of the payload length (R167). -/
def decs (bytes : List Byte) (payload : Nat) : List Instr :=
  match bytes with
  | [] => []
  | b :: rest => .dbyte b (BitVec.ofNat 4 (min 8 payload)) :: decs rest (payload - 8)

/-- `DECB` (R89). -/
def decb (bits : BitString) : List Instr := bits.map .dbit

end Sys2Proof.Machine
end

