-- ==== Sys2Proof/Safety.lean ====
section
/-! DEFINITION. The terms in which claims are made: what a host sees of an answer, the paths and the shape of a tree
(spec/41_tree_builder.md R112, spec/46_laws.md R190), the layout of the packed stream (spec/20_memory.md R63), and the
invariants of every reachable state (spec/10_state.md R42). -/

namespace Sys2Proof.Machine

/-! ### Answers -/

/-- The ports after one answer: the emissions and one response word with status code `st` (spec/30_encoding.md R86,
spec/10_state.md R52, R53). -/
def Ports.answered (p : Ports) (st : BitVec 8) (data : RspData) (ob : List Byte) (os : List Symbol) : Ports where
  pending := p.pending
  rsp := p.rsp ++ [st ++ data]
  ob := p.ob ++ ob
  os := p.os ++ os

/-- The state after a successful command that answers no data and emits nothing. -/
def State.done (s : State) (a : Arch) : State := ⟨a, s.ports.answered 0x00#8 0#56 [] []⟩

/-- The status field of a response word (spec/30_encoding.md R86). -/
def statusOf (w : RspWord) : BitVec 8 := w.extractLsb' 56 8

/-- The data field of a response word (spec/30_encoding.md R86). -/
def dataOf (w : RspWord) : RspData := w.extractLsb' 0 56

/-- Every response sent between `s` and `t` is `OK` with no data. -/
def allOk (s t : State) : Prop := ∀ w ∈ t.ports.rsp.drop s.ports.rsp.length, w = 0#64

/-! ### Guards, as the spec's tables give them -/

/-- The commands that `FAULT` mode still serves (spec/10_state.md R35, spec/60_exceptions.md R222). -/
def faultServed : List String := ["NOP", "CLR", "RDF", "RDNL", "RDNW", "RDC", "RDS"]

/-- The command's state guard fails (the table of spec/60_exceptions.md R227). -/
def SeqFails (i : Instr) (a : Arch) : Prop :=
  (i.mnemonic ∈ ["LDF", "BUILD"] ∧ a.tstate ≠ .none)
    ∨ (i.mnemonic ∈ ["DERIVE", "DEND"] ∧ a.tstate = .none)
    ∨ (i.mnemonic ∈ ["ENC", "RDC"] ∧ a.cvalid = false)
    ∨ (i.mnemonic ∈ ["DBIT", "DBYTE"] ∧ a.tstate ≠ .valid)

/-- An operand is outside its legal range (the table of spec/20_memory.md R65). -/
def RangeFails (i : Instr) (a : Arch) : Prop :=
  (∃ idx, (i = .rdnl idx ∨ i = .rdnw idx) ∧ a.nnodes.toNat ≤ idx.toNat)
    ∨ (∃ byte nbits, i = .dbyte byte nbits ∧ (nbits.toNat = 0 ∨ 9 ≤ nbits.toNat))
    ∨ (∃ n, i = .rds n ∧ 13 ≤ n.toNat)

/-- The answer to a word that is refused with a code that is not fatal, in either mode (spec/60_exceptions.md R224). -/
def State.answerRefused (s : State) (w : CmdWord) (st : BitVec 8) : State :=
  ⟨match s.arch.mode with
    | .run => { s.arch with ecause := st, ecmd := w }
    | .fault => s.arch,
   s.ports.answered st 0#56 [] []⟩

/-! ### The packed stream -/

/-- Payload bit `k` of a byte sequence: bit `7 - (k mod 8)` of byte `k div 8` (spec/20_memory.md R63). -/
def streamBit (bytes : List Byte) (k : Nat) : Bool := (bytes.getD (k / 8) 0#8).getLsbD (7 - k % 8)

/-- The `NACC` bits waiting in `ACC`, the earliest first (spec/10_state.md R31). -/
def waitingBits (a : Arch) : BitString := (List.range a.nacc.toNat).map fun j => a.acc.getLsbD (7 - j)

/-- `ACC[7 - NACC : 0]` are 0 (spec/10_state.md R31). -/
def AccClean (a : Arch) : Prop := ∀ j, a.nacc.toNat ≤ j → j < 8 → a.acc.getLsbD (7 - j) = false

/-! ### Trees -/

/-- The node reached from node `i` by a path, 0 to the left and 1 to the right; every node passed must be internal. -/
def follow (nodes : List Node) (i : Nat) (p : BitString) : Option Nat :=
  match p with
  | [] => some i
  | b :: rest =>
    match nodes[i]? with
    | some (.internal _ left right) => follow nodes (if b then right.toNat else left.toNat) rest
    | _ => none

/-- The path `p` leads from the root, the last node, to a leaf of the symbol (spec/46_laws.md R193). -/
def LeafPath (nodes : List Node) (sym : Symbol) (p : BitString) : Prop :=
  ∃ j w, follow nodes (nodes.length - 1) p = some j ∧ nodes[j]? = some (.leaf sym w)

/-- Is the node a leaf. -/
def Node.isLeaf : Node → Bool
  | .leaf _ _ => true
  | .internal _ _ _ => false

/-- The children of a node, left first. -/
def Node.children : Node → List Nat
  | .leaf _ _ => []
  | .internal _ left right => [left.toNat, right.toNat]

/-- A node's weight by index, as a number; 0 where there is no node. -/
def weightAt (nodes : List Node) (i : Nat) : Nat := ((nodes[i]?).map fun n => n.weight.toNat).getD 0

/-- The priority `(nodes[i].w, i)` of an index is below that of another (spec/41_tree_builder.md R112). -/
def Before (nodes : List Node) (i j : Nat) : Prop :=
  weightAt nodes i < weightAt nodes j ∨ (weightAt nodes i = weightAt nodes j ∧ i < j)

/-- `x` is the element of `Q` of least priority (spec/41_tree_builder.md R112, `argmin`). -/
def IsLeast (nodes : List Node) (q : Finset Nat) (x : Nat) : Prop := x ∈ q ∧ ∀ i ∈ q, i ≠ x → Before nodes x i

/-- The runs of `Merge` (spec/41_tree_builder.md R112), read from the spec's pseudocode with `Q` a set of indices and the
sum of weights exact: from `nodes` and `Q` the loop ends with the given nodes. -/
inductive MergeRun : List Node → Finset Nat → List Node → Prop where
  | stop (nodes : List Node) (q : Finset Nat) (h : q.card ≤ 1) : MergeRun nodes q nodes
  | turn (nodes : List Node) (q : Finset Nat) (x y : Nat) (w : Weight) (l r : NodeIdx) (out : List Node)
      (hx : IsLeast nodes q x) (hy : IsLeast nodes (q.erase x) y)
      (hw : w.toNat = weightAt nodes x + weightAt nodes y) (hl : l.toNat = x) (hr : r.toNat = y)
      (rest : MergeRun (nodes ++ [.internal w l r]) (insert nodes.length ((q.erase x).erase y)) out) :
      MergeRun nodes q out

/-- The shape of a tree (spec/46_laws.md R190 (a) to (d), spec/41_tree_builder.md R119). -/
structure TreeShape (nodes : List Node) : Prop where
  /-- Both children of an internal node are below it (R190 (a), R119). -/
  childrenBelow : ∀ (i : Nat) (w : Weight) (l r : NodeIdx), nodes[i]? = some (.internal w l r) → l.toNat < i ∧ r.toNat < i
  /-- The root is the last node, and internal (R190 (b)). -/
  rootInternal : ∃ w l r, nodes[nodes.length - 1]? = some (.internal w l r)
  /-- Every index but the root is the child of exactly one node, once, and the root of none (R190 (b)). -/
  ownedOnce : (nodes.flatMap Node.children).Perm (List.range (nodes.length - 1))
  /-- An internal node's weight is the exact sum of its children's (R190 (c)). -/
  weightsAdd : ∀ (i : Nat) (w : Weight) (l r : NodeIdx), nodes[i]? = some (.internal w l r) →
    w.toNat = weightAt nodes l.toNat + weightAt nodes r.toNat
  /-- One internal node fewer than leaves (R190 (d)). -/
  leafCount : nodes.countP Node.isLeaf = (nodes.countP fun n => !n.isLeaf) + 1

/-- The number of keys of the map (spec/10_state.md R23). -/
def keyCount (freq : Memory Count) : Nat := (List.range 256).countP fun s => freqRead freq s != 0#32

/-! ### Invariants -/

/-- The invariants of every reachable state (spec/10_state.md R42, items 1 to 9), with the forms in which the model holds the
tables. -/
structure Arch.Inv (a : Arch) : Prop where
  /-- The model holds exactly the `NODE` entries below `NNODES` (R24, R26). -/
  nodesHeld : a.node.length = a.nnodes.toNat
  /-- `FREQ` is in canonical form. -/
  freqCanonical : freqWf a.freq = true
  /-- `CODE` is in canonical form. -/
  codeCanonical : codeWf a.code = true
  /-- Item 1. -/
  noneClear : a.tstate = .none → a.nleaf = 0#9 ∧ a.nnodes = 0#9 ∧ a.root = 0#9 ∧ a.dcur = 0#9 ∧ a.cvalid = false
  /-- Item 2. -/
  emptyClear : a.tstate = .empty →
    (∀ s, freqRead a.freq s = 0#32) ∧ a.nleaf = 0#9 ∧ a.nnodes = 0#9 ∧ a.root = 0#9 ∧ a.dcur = 0#9
  /-- Item 3, the registers. -/
  validCounts : a.tstate = .valid →
    1 ≤ a.nleaf.toNat ∧ a.nleaf.toNat = keyCount a.freq ∧ a.nnodes.toNat = max 3 (2 * a.nleaf.toNat - 1)
      ∧ a.root.toNat = a.nnodes.toNat - 1
  /-- Item 3, the tree. -/
  validTree : a.tstate = .valid → TreeShape a.node
  /-- Item 4 (spec/44_bit_decoder.md R166). -/
  cursorInternal : a.tstate = .valid → a.dcur.toNat < a.nnodes.toNat ∧
    ∃ w l r, a.node[a.dcur.toNat]? = some (.internal w l r)
  /-- Item 5. -/
  codeDerived : a.cvalid = true → a.tstate ≠ .none ∧ deriveTable a.node a.root a.tstate = .ok a.code
  /-- Item 6, first half. -/
  accClean : AccClean a
  /-- Item 6, second half. -/
  waitingNeedsCode : a.nacc ≠ 0#3 → a.cvalid = true
  /-- Item 7. -/
  faultCause : a.mode = .fault → a.ecause = 0x05#8 ∧ a.cvalid = true
  /-- Item 8. -/
  frameNeedsTree : a.frame = true → a.tstate = .valid
  /-- Item 9, first half. -/
  decoderIdle : a.tstate ≠ .valid → a.dbits = 0#48 ∧ a.dsym = 0#48
  /-- Item 9, second half. -/
  encoderIdle : a.cvalid = false → a.ebits = 0#48 ∧ a.esym = 0#48 ∧ a.nacc = 0#3

/-- The tree in `NODE` is the one `BUILD` makes of the map in `FREQ` (spec/20_memory.md R72: "the tree and the code table
can never disagree with `FREQ`"). -/
def Arch.Built (a : Arch) : Prop :=
  a.tstate ≠ .none → a.node = (buildTree a.freq).1 ∧ a.nleaf.toNat = (buildTree a.freq).2

end Sys2Proof.Machine
end

