-- ==== Sys2Proof/Certificates/Slice0/Obligations.lean ====
section
/-! DEFINITION. The statements about the model, each from the numbered rules of spec/ its docstring names. -/

open Sys2Proof Sys2Proof.Machine

/-! ### Encoding -/

/-- Decoding an encoded command gives it back, every operand at every value its field can spell (R80 to R84). -/
def Obligations.DecodeUndoesEncode : Prop := ∀ i : Instr, decode (encode i) = .ok i

/-- A word that is a command is that command's one encoding: reserved bits are zero and no operand bit is dropped
(R80, R85). The word recorded in `ECMD` (log 9) rests on this. -/
def Obligations.EncodeUndoesDecode : Prop := ∀ (w : CmdWord) (i : Instr), decode w = .ok i → encode i = w

/-- R83: the decoder reads a command exactly from the words some row of the opcode table selects, at most one row selects a
word, the command read is that row's, and its operands are the fields of the word. -/
def Obligations.DecodeFollowsTheOpcodeTable : Prop :=
  (∀ w : CmdWord, (∃ r ∈ opcodeRows, w &&& r.mask = r.pattern) ↔ ∃ i, decode w = .ok i)
  ∧ (∀ (w : CmdWord) (r r' : Row), r ∈ opcodeRows → r' ∈ opcodeRows → w &&& r.mask = r.pattern →
      w &&& r'.mask = r'.pattern → r = r')
  ∧ (∀ (w : CmdWord) (r : Row) (i : Instr), r ∈ opcodeRows → w &&& r.mask = r.pattern → decode w = .ok i →
      i.mnemonic = r.mnemonic)
  ∧ (∀ (w : CmdWord) (sym : Symbol) (count : Count), decode w = .ok (.ldf sym count) →
      sym = w.extractLsb' 32 8 ∧ count = w.extractLsb' 0 32)
  ∧ (∀ (w : CmdWord) (sym : Symbol), decode w = .ok (.enc sym) ∨ decode w = .ok (.rdf sym) → sym = w.extractLsb' 32 8)
  ∧ (∀ (w : CmdWord) (bit : Bool), decode w = .ok (.dbit bit) → bit = w.getLsbD 32)
  ∧ (∀ (w : CmdWord) (byte : Byte) (nbits : BitVec 4), decode w = .ok (.dbyte byte nbits) →
      byte = w.extractLsb' 32 8 ∧ nbits = w.extractLsb' 0 4)
  ∧ (∀ (w : CmdWord) (idx : NodeIdx), decode w = .ok (.rdnl idx) ∨ decode w = .ok (.rdnw idx) → idx = w.extractLsb' 0 9)
  ∧ (∀ (w : CmdWord) (sym : Symbol) (k : BitVec 3), decode w = .ok (.rdc sym k) →
      sym = w.extractLsb' 32 8 ∧ k = w.extractLsb' 0 3)
  ∧ (∀ (w : CmdWord) (n : BitVec 8), decode w = .ok (.rds n) → n = w.extractLsb' 32 8)

/-- Words written out from the encodings of R80 to R88, one of every format, and words that are no command (R85). -/
def Obligations.WrittenOutWordsDecode : Prop :=
  decode 0x000000000000#48 = .ok .nop
  ∧ decode 0x026100000005#48 = .ok (.ldf 0x61#8 5#32)
  ∧ decode 0x030000000000#48 = .ok .build
  ∧ decode 0x056100000000#48 = .ok (.enc 0x61#8)
  ∧ decode 0x090100000000#48 = .ok (.dbit true)
  ∧ decode 0x0ADC00000007#48 = .ok (.dbyte 0xDC#8 7#4)
  ∧ decode 0x110000000008#48 = .ok (.rdnl 8#9)
  ∧ decode 0x13FF00000007#48 = .ok (.rdc 0xFF#8 7#3)
  ∧ decode 0x140500000000#48 = .ok (.rds 5#8)
  ∧ decode 0x030000000001#48 = .error .reservedBitSet
  ∧ decode 0x090200000000#48 = .error .reservedBitSet
  ∧ decode 0x0C0000000000#48 = .error .unassignedOpcode

/-! ### Steps, input events and reset -/

/-- A step takes the command word that is next on the command port and runs the command it decodes to (R8, R51, R223); the
rest of the port and everything else is as it was. The second part says the same of the host's `withFetchWord`.
That the words wait in a list is the model's choice (log 2). -/
def Obligations.StepRunsTheDecodedCommand : Prop :=
  (∀ (s : State) (w : CmdWord) (rest : List Event) (i : Instr),
    s.ports.pending = .command w :: rest → decode w = .ok i →
    step s = exec i ⟨s.arch, { s.ports with pending := rest }⟩)
  ∧ (∀ (s : State) (nbits w : Nat) (i : Instr), decodeTableWord nbits w = some i →
    step (s.withFetchWord nbits w) = exec i s)

/-- R225, R85: a word that no row of the opcode table selects is answered `E_ILLEGAL` in every state; in `RUN` mode it is recorded, in `FAULT` mode
nothing changes; nothing is emitted. That the words wait in a list is the model's choice (log 2). -/
def Obligations.IllegalWordIsAnswered : Prop :=
  ∀ (s : State) (w : CmdWord) (rest : List Event), s.ports.pending = .command w :: rest →
    (∀ r ∈ opcodeRows, w &&& r.mask ≠ r.pattern) →
    (s.arch.mode = .run → step s =
      .next ⟨{ s.arch with ecause := 0x01#8, ecmd := w },
        { pending := rest, rsp := s.ports.rsp ++ [0x0100000000000000#64], ob := s.ports.ob, os := s.ports.os }⟩)
    ∧ (s.arch.mode = .fault → step s =
      .next ⟨s.arch,
        { pending := rest, rsp := s.ports.rsp ++ [0x0100000000000000#64], ob := s.ports.ob, os := s.ports.os }⟩)

/-- R251: the reset state, register by register, and what `RDS STATUS` would read. The empty `CODE` list is the model's own
choice (log 6). -/
def Obligations.ResetStateHoldsTheStatedValues : Prop :=
  let a := State.reset.arch
  (∀ s, freqRead a.freq s = 0#32) ∧ a.node = [] ∧ a.cvalid = false ∧ a.mode = .run ∧ faultO a = false
  ∧ a.tstate = .none ∧ a.frame = false ∧ a.nleaf = 0#9 ∧ a.nnodes = 0#9 ∧ a.root = 0#9 ∧ a.dcur = 0#9
  ∧ a.acc = 0#8 ∧ a.nacc = 0#3 ∧ a.ebits = 0#48 ∧ a.esym = 0#48 ∧ a.dbits = 0#48 ∧ a.dsym = 0#48
  ∧ a.ecause = 0#8 ∧ a.ecmd = 0#48 ∧ csr a 1 = some 0x48554601#56 ∧ statusWord a = 0x20#56

/-- R250: a reset event between two commands gives the reset state in every mode, sends no response and emits nothing; one
that cuts a command short gives it too, sends no response, and leaves of the command's emissions the first `k`, for every `k`.
That events wait in a list is the model's choice (log 2, log 3). -/
def Obligations.ResetEventGivesTheResetState : Prop :=
  (∀ (s : State) (rest : List Event), s.ports.pending = .reset :: rest →
    step s = .next ⟨State.reset.arch, { s.ports with pending := rest }⟩)
  ∧ (∀ (s t : State) (w : CmdWord) (k : Nat) (rest : List Event) (st : BitVec 8) (data : RspData) (ob : List Byte)
      (os : List Symbol), s.ports.pending = .resetDuring w k :: rest →
    runWord w ⟨s.arch, { s.ports with pending := rest }⟩ = .next t →
    t.ports = ({ s.ports with pending := rest } : Ports).answered st data ob os →
    step s = .next ⟨State.reset.arch,
      { pending := rest, rsp := s.ports.rsp, ob := s.ports.ob ++ ob.take k, os := s.ports.os ++ os.take k }⟩)

/-! ### Control and load -/

/-- R101: `NOP` answers `OK` in every state and changes nothing; its word is all zero, and the word 1 is not `NOP`. -/
def Obligations.NopDoesNothing : Prop :=
  (∀ s : State, exec .nop s = .next (s.done s.arch))
  ∧ decode 0x000000000000#48 = .ok .nop ∧ decode 0x000000000001#48 = .error .reservedBitSet

/-- R102, R253: `CLR` answers `OK` in every state and leaves the reset state, so `fault_o` is 0 and `STATUS` reads `0x20`; the
streams already emitted stay. (Of the tables only what R102 says of them is claimed besides equality with the reset state; the
empty `CODE` list inside that state is the model's choice, log 6.) -/
def Obligations.ClrGivesTheResetState : Prop :=
  ∀ s : State, ∃ a : Arch, exec .clr s = .next (s.done a) ∧ a = State.reset.arch
    ∧ (∀ x, freqRead a.freq x = 0#32) ∧ a.node = [] ∧ a.nnodes = 0#9 ∧ a.cvalid = false ∧ a.mode = .run ∧ a.tstate = .none
    ∧ a.nleaf = 0#9 ∧ a.root = 0#9 ∧ a.acc = 0#8 ∧ a.nacc = 0#3 ∧ a.ebits = 0#48 ∧ a.esym = 0#48 ∧ a.dcur = 0#9
    ∧ a.dbits = 0#48 ∧ a.dsym = 0#48 ∧ a.frame = false ∧ a.ecause = 0#8 ∧ a.ecmd = 0#48
    ∧ faultO a = false ∧ statusWord a = 0x20#56 ∧ encode .clr = 0x010000000000#48

/-- R103: in `RUN` mode and `TSTATE = NONE` every `LDF` is accepted and replaces exactly the one entry, every other entry and
register being as before; `E_SEQ` after a `BUILD`, `E_FAULTED` in `FAULT` mode. -/
def Obligations.LdfReplacesOneEntry : Prop :=
  ∀ (sym : Symbol) (count : Count) (s : State), encode (.ldf sym count) = 0x02#8 ++ sym ++ count
    ∧ (s.arch.mode = .run → s.arch.tstate = .none → ∃ m : Memory Count,
      exec (.ldf sym count) s = .next (s.done { s.arch with freq := m })
      ∧ ∀ x, freqRead m x = if x = sym.toNat then count else freqRead s.arch.freq x)
    ∧ (s.arch.mode = .run → s.arch.tstate ≠ .none →
      exec (.ldf sym count) s = .next (s.answerRefused (0x02#8 ++ sym ++ count) 0x02#8))
    ∧ (s.arch.mode = .fault → exec (.ldf sym count) s = .next (s.answerRefused (0x02#8 ++ sym ++ count) 0x06#8))

/-! ### Errors -/

/-- R222, R223, R226 to R228: a word's first applicable error is the one answered, in the order `E_ILLEGAL`, `E_FAULTED`,
`E_SEQ`, `E_RANGE`, in either mode; a command that passes them answers `OK` or its own error, `ENC` `E_NOCODE` and `DEND`
`E_FRAME`. -/
def Obligations.FirstErrorIsAnswered : Prop :=
  ∀ (w : CmdWord) (s : State),
    ((∀ i, decode w ≠ .ok i) → runWord w s = .next (s.answerRefused w 0x01#8))
    ∧ ∀ i, decode w = .ok i →
      ((s.arch.mode = .fault ∧ i.mnemonic ∉ faultServed → runWord w s = .next (s.answerRefused w 0x06#8))
      ∧ (¬ (s.arch.mode = .fault ∧ i.mnemonic ∉ faultServed) →
        (SeqFails i s.arch → runWord w s = .next (s.answerRefused w 0x02#8))
        ∧ (¬ SeqFails i s.arch →
          (RangeFails i s.arch → runWord w s = .next (s.answerRefused w 0x03#8))
          ∧ (¬ RangeFails i s.arch → ∀ t, runWord w s = .next t → ∃ st data ob os,
              t.ports = s.ports.answered st data ob os
              ∧ (st = 0x00#8 ∨ (st = 0x05#8 ∧ i.mnemonic = "ENC") ∨ (st = 0x04#8 ∧ i.mnemonic = "DEND"))))))

/-- R224: whatever word is answered with an error, the state is the state before it but for `ECAUSE` and `ECMD`, `MODE` on
`E_NOCODE` and `FRAME` on `E_FRAME`; in `FAULT` mode nothing at all changes; nothing is emitted and `data` is 0. -/
def Obligations.ErrorsArePrecise : Prop :=
  ∀ (w : CmdWord) (s t : State) (st : BitVec 8) (data : RspData) (ob : List Byte) (os : List Symbol),
    runWord w s = .next t → t.ports = s.ports.answered st data ob os → st ≠ 0x00#8 →
    data = 0#56 ∧ ob = [] ∧ os = []
    ∧ (s.arch.mode = .fault → t.arch = s.arch)
    ∧ (s.arch.mode = .run → t.arch =
      { s.arch with
        ecause := st, ecmd := w, mode := if st = 0x05#8 then .fault else .run, frame := s.arch.frame || st == 0x04#8 })

/-- R52, R53, R86: every word gets exactly one response, and its status is a code of R221; the data field is 0 but for a read
command; bytes are emitted by `ENC` and `FLUSH` only, symbols by `DBIT` and `DBYTE` only. -/
def Obligations.OneResponsePerWord : Prop :=
  ∀ (w : CmdWord) (s t : State), runWord w s = .next t → ∃ st data ob os,
    t.ports = s.ports.answered st data ob os ∧ st.toNat ≤ 6
    ∧ (data ≠ 0#56 → st = 0x00#8 ∧ ∃ i, decode w = .ok i ∧ i.mnemonic ∈ ["RDF", "RDNL", "RDNW", "RDC", "RDS"])
    ∧ (ob ≠ [] → ∃ i, decode w = .ok i ∧ i.mnemonic ∈ ["ENC", "FLUSH"])
    ∧ (os ≠ [] → ∃ i, decode w = .ok i ∧ i.mnemonic ∈ ["DBIT", "DBYTE"])

/-- R35: `MODE` becomes `FAULT` exactly by `E_NOCODE`, and `RUN` again exactly by `CLR` (reset events aside). -/
def Obligations.ModeChangesOnlyByNocodeAndClr : Prop :=
  ∀ (w : CmdWord) (s t : State), runWord w s = .next t →
    (s.arch.mode = .run →
      (t.arch.mode = .fault ↔ t.ports.rsp.getLast?.map statusOf = some 0x05#8))
    ∧ (s.arch.mode = .fault → (t.arch.mode = .run ↔ decode w = .ok .clr))

/-- R20, the column "written by": a command that is not listed with a register or table leaves it as it was, and a successful
command other than `CLR` leaves `ECAUSE`, `ECMD` and `MODE` (R39). -/
def Obligations.RegistersAreWrittenOnlyByTheirCommands : Prop :=
  ∀ (i : Instr) (s t : State), exec i s = .next t →
    (t.arch.freq ≠ s.arch.freq → i.mnemonic ∈ ["LDF", "CLR"])
    ∧ (t.arch.node ≠ s.arch.node → i.mnemonic ∈ ["BUILD", "CLR"])
    ∧ (t.arch.code ≠ s.arch.code → i.mnemonic ∈ ["DERIVE", "CLR"])
    ∧ (t.arch.tstate ≠ s.arch.tstate → i.mnemonic ∈ ["BUILD", "CLR"])
    ∧ (t.arch.cvalid ≠ s.arch.cvalid → i.mnemonic ∈ ["DERIVE", "CLR"])
    ∧ (t.arch.nleaf ≠ s.arch.nleaf → i.mnemonic ∈ ["BUILD", "CLR"])
    ∧ (t.arch.nnodes ≠ s.arch.nnodes → i.mnemonic ∈ ["BUILD", "CLR"])
    ∧ (t.arch.root ≠ s.arch.root → i.mnemonic ∈ ["BUILD", "CLR"])
    ∧ (t.arch.acc ≠ s.arch.acc → i.mnemonic ∈ ["ENC", "FLUSH", "ERST", "CLR"])
    ∧ (t.arch.nacc ≠ s.arch.nacc → i.mnemonic ∈ ["ENC", "FLUSH", "ERST", "CLR"])
    ∧ (t.arch.ebits ≠ s.arch.ebits → i.mnemonic ∈ ["ENC", "ERST", "CLR"])
    ∧ (t.arch.esym ≠ s.arch.esym → i.mnemonic ∈ ["ENC", "ERST", "CLR"])
    ∧ (t.arch.dcur ≠ s.arch.dcur → i.mnemonic ∈ ["BUILD", "DRST", "DBIT", "DBYTE", "CLR"])
    ∧ (t.arch.dbits ≠ s.arch.dbits → i.mnemonic ∈ ["DBIT", "DBYTE", "DRST", "CLR"])
    ∧ (t.arch.dsym ≠ s.arch.dsym → i.mnemonic ∈ ["DBIT", "DBYTE", "DRST", "CLR"])
    ∧ (t.arch.frame ≠ s.arch.frame → i.mnemonic ∈ ["DEND", "DRST", "CLR"])
    ∧ (i ≠ .clr → t.arch.ecause ≠ s.arch.ecause ∨ t.arch.ecmd ≠ s.arch.ecmd ∨ t.arch.mode ≠ s.arch.mode →
        t.ports.rsp.getLast?.map statusOf ≠ some 0x00#8)

/-! ### The tree builder -/

/-- R110, R115: `BUILD` in `RUN` mode and `TSTATE = NONE` writes the tree of the map in `FREQ` and the registers `NLEAF`,
`NNODES`, `ROOT`, `DCUR`, `TSTATE`, and nothing else; `E_SEQ` when a `BUILD` has run, `E_FAULTED` in `FAULT` mode. -/
def Obligations.BuildWritesTheTree : Prop :=
  ∀ s : State,
    (s.arch.mode = .run → s.arch.tstate = .none →
      ∀ nodes nleaf, buildTree s.arch.freq = (nodes, nleaf) →
      exec .build s = .next (s.done
        { s.arch with
          node := nodes
          nleaf := BitVec.ofNat 9 nleaf
          nnodes := BitVec.ofNat 9 nodes.length
          tstate := if nodes = [] then .empty else .valid
          root := BitVec.ofNat 9 (nodes.length - 1)
          dcur := BitVec.ofNat 9 (nodes.length - 1) }))
    ∧ (s.arch.mode = .run → s.arch.tstate ≠ .none → exec .build s = .next (s.answerRefused 0x030000000000#48 0x02#8))
    ∧ (s.arch.mode = .fault → exec .build s = .next (s.answerRefused 0x030000000000#48 0x06#8))

/-- R111: the first nodes are the leaves, one per key, in ascending symbol order, each with its count; every node after the
leaves (after the two of the one-symbol tree) is internal; the count of keys is returned; and no key gives no node. -/
def Obligations.LeavesComeFirstInSymbolOrder : Prop :=
  ∀ freq : Memory Count,
    (buildTree freq).2 = keyCount freq
    ∧ (buildTree freq).1.take (keyCount freq) =
      ((List.range 256).filter fun x => freqRead freq x != 0#32).map
        (fun x => Node.leaf (BitVec.ofNat 8 x) ((freqRead freq x).setWidth 40))
    ∧ (∀ (i : Nat) (n : Node), max 2 (keyCount freq) ≤ i → (buildTree freq).1[i]? = some n → n.isLeaf = false)
    ∧ (keyCount freq = 0 → buildTree freq = ([], 0))

/-- R112: from two nodes on, the model's merge is a run of the spec's own loop over a set of indices: the two indices of least
`(weight, index)` are removed, the first becomes the left child, the sum is exact (R22), and the new node takes the next free
index. -/
def Obligations.MergeRunsTheSpecsLoop : Prop :=
  ∀ freq : Memory Count, 1 ≤ keyCount freq →
    MergeRun (doubleLone (leaves freq)) (Finset.range (doubleLone (leaves freq)).length) (buildTree freq).1

/-- R113: exactly one key `s` gives the three-node tree of two identical leaves under a root of twice the weight. -/
def Obligations.LoneSymbolGivesTwoLeaves : Prop :=
  ∀ (freq : Memory Count) (sym : Symbol), freqRead freq sym.toNat ≠ 0#32 →
    (∀ x : Symbol, x ≠ sym → freqRead freq x.toNat = 0#32) →
    ∃ w : Weight, w.toNat = 2 * (freqRead freq sym.toNat).toNat
      ∧ buildTree freq =
        ([.leaf sym ((freqRead freq sym.toNat).setWidth 40), .leaf sym ((freqRead freq sym.toNat).setWidth 40),
          .internal w 0#9 1#9], 1)

/-- R114: an empty map is not an error: `BUILD` answers `OK`, writes no node and records `TSTATE = EMPTY`. -/
def Obligations.EmptyMapIsNoError : Prop :=
  ∀ s : State, s.arch.mode = .run → s.arch.tstate = .none → (∀ x : Symbol, freqRead s.arch.freq x.toNat = 0#32) →
    exec .build s = .next (s.done
      { s.arch with node := [], nleaf := 0#9, nnodes := 0#9, tstate := .empty, root := 0#9, dcur := 0#9 })

/-- R190, R118: from any map with a key the builder makes a tree: strictly binary, children before parents, every node but
the root owned once, weights exact sums, `max(3, 2 * NLEAF - 1)` nodes, and every leaf at a depth from 1 to 255. -/
def Obligations.BuiltTreeHasTheShape : Prop :=
  ∀ freq : Memory Count, 1 ≤ keyCount freq →
    TreeShape (buildTree freq).1
    ∧ (buildTree freq).1.length = max 3 (2 * keyCount freq - 1)
    ∧ (buildTree freq).1.countP Node.isLeaf = max 2 (keyCount freq)
    ∧ ∀ (sym : Symbol) (p : BitString), LeafPath (buildTree freq).1 sym p → 1 ≤ p.length ∧ p.length ≤ 255

/-- R191: with two keys or more, each key has exactly one leaf, with its count, and there is no other leaf; with one key both
leaves are its. -/
def Obligations.LeavesAreTheKeys : Prop :=
  ∀ (freq : Memory Count) (sym : Symbol) (w : Weight),
    (2 ≤ keyCount freq → (buildTree freq).1.count (.leaf sym w) =
      if freqRead freq sym.toNat ≠ 0#32 ∧ w = (freqRead freq sym.toNat).setWidth 40 then 1 else 0)
    ∧ (keyCount freq = 1 → (buildTree freq).1.count (.leaf sym w) =
      if freqRead freq sym.toNat ≠ 0#32 ∧ w = (freqRead freq sym.toNat).setWidth 40 then 2 else 0)

/-- R192: the root weighs the sum of all counts, and twice the one count in the one-symbol tree. -/
def Obligations.RootWeighsTheSumOfCounts : Prop :=
  ∀ freq : Memory Count,
    (2 ≤ keyCount freq → weightAt (buildTree freq).1 ((buildTree freq).1.length - 1) =
      ((List.range 256).map fun x => (freqRead freq x).toNat).sum)
    ∧ (keyCount freq = 1 → weightAt (buildTree freq).1 ((buildTree freq).1.length - 1) =
      2 * ((List.range 256).map fun x => (freqRead freq x).toNat).sum)

/-- R117: an internal node's left child is before its right child in the order `(weight, index)`: never heavier, and of the
smaller index when they weigh the same. -/
def Obligations.LeftChildIsTheLighter : Prop :=
  ∀ (freq : Memory Count) (i : Nat) (w : Weight) (l r : NodeIdx),
    (buildTree freq).1[i]? = some (.internal w l r) → Before (buildTree freq).1 l.toNat r.toNat

/-- The weights of the internal nodes do not decrease in the order of creation: a remark of R122 that the spec gives without a
proof, as a standard fact (spec/93_implementation_defined.md GK4). -/
def Obligations.InternalWeightsDoNotDecrease : Prop :=
  ∀ (freq : Memory Count) (i j : Nat) (w w' : Weight) (l r l' r' : NodeIdx), i ≤ j →
    (buildTree freq).1[i]? = some (.internal w l r) → (buildTree freq).1[j]? = some (.internal w' l' r') →
    w.toNat ≤ w'.toNat

/-- R121, R200: the tree is a function of the 256 counts alone, however the map was loaded. -/
def Obligations.EqualMapsGiveEqualTrees : Prop :=
  ∀ freq freq' : Memory Count, (∀ x : Symbol, freqRead freq x.toNat = freqRead freq' x.toNat) →
    buildTree freq = buildTree freq'

/-- The tree of the worked example of spec/41_tree_builder.md section 4, node by node. The byte values of the characters
(a = 0x61, b = 0x62, c = 0x63, d = 0x64, r = 0x72) are presumed: the source gives none, the spec marks them [from general
knowledge, not in source], and log 14 takes them as ASCII codes (PRESUMED). -/
def Obligations.WorkedExampleTree : Prop :=
  buildTree [(0x61, 5#32), (0x62, 2#32), (0x63, 1#32), (0x64, 1#32), (0x72, 2#32)] =
    ([.leaf 0x61#8 5#40, .leaf 0x62#8 2#40, .leaf 0x63#8 1#40, .leaf 0x64#8 1#40, .leaf 0x72#8 2#40,
      .internal 2#40 2#9 3#9, .internal 4#40 1#9 4#9, .internal 6#40 5#9 6#9, .internal 11#40 0#9 7#9], 5)

/-! ### The code table deriver -/

/-- R130, R131, R132: in a state that meets the invariants `DERIVE` writes `CODE` and `CVALID` and nothing else; a symbol's
code word is the first path, left before right, that leads from the root to a leaf of it, and the symbols without a leaf have
none; with `TSTATE = EMPTY` every entry becomes absent. `E_SEQ` before `BUILD`, `E_FAULTED` in `FAULT` mode. -/
def Obligations.DeriveRecordsTheFirstPaths : Prop :=
  ∀ s : State, s.arch.Inv →
    (s.arch.mode = .run → s.arch.tstate ≠ .none → ∃ table : Memory BitString,
      exec .derive s = .next (s.done { s.arch with code := table, cvalid := true })
      ∧ (s.arch.tstate = .empty → ∀ x, codeRead table x = none)
      ∧ (s.arch.tstate = .valid → ∀ (sym : Symbol) (p : BitString), codeRead table sym.toNat = some p ↔
          LeafPath s.arch.node sym p ∧ ∀ p', LeafPath s.arch.node sym p' → p ≤ p'))
    ∧ (s.arch.mode = .run → s.arch.tstate = .none → exec .derive s = .next (s.answerRefused 0x040000000000#48 0x02#8))
    ∧ (s.arch.mode = .fault → exec .derive s = .next (s.answerRefused 0x040000000000#48 0x06#8))

/-- R193: while `CVALID = 1`, with two keys or more a symbol's code word is the path to its leaf, absent exactly for the
symbols that are no key; with one key the code word is "0" and every other entry is absent; with none every entry is absent. -/
def Obligations.CodeWordIsTheLeafsPath : Prop :=
  ∀ a : Arch, a.Inv → a.Built → a.cvalid = true → ∀ sym : Symbol,
    (2 ≤ a.nleaf.toNat → ∀ p, codeRead a.code sym.toNat = some p ↔ LeafPath a.node sym p)
    ∧ (2 ≤ a.nleaf.toNat → (codeRead a.code sym.toNat = none ↔ freqRead a.freq sym.toNat = 0#32))
    ∧ (a.nleaf.toNat = 1 → codeRead a.code sym.toNat = if freqRead a.freq sym.toNat = 0#32 then none else some [false])
    ∧ (a.tstate = .empty → codeRead a.code sym.toNat = none)

/-- R194: no code word is the beginning of another symbol's. -/
def Obligations.CodeIsPrefixFree : Prop :=
  ∀ a : Arch, a.Inv → a.cvalid = true → ∀ (x y : Symbol) (p q : BitString), x ≠ y →
    codeRead a.code x.toNat = some p → codeRead a.code y.toNat = some q → ¬ p <+: q

/-- R195: code words are 1 to 255 bits long, the code is complete (with two keys or more the sum of `2^(-length)` is 1, here
times `2^255`), and every bit string of 255 bits begins with the path of some leaf. -/
def Obligations.CodeIsComplete : Prop :=
  ∀ a : Arch, a.Inv → a.cvalid = true →
    (∀ (sym : Symbol) (p : BitString), codeRead a.code sym.toNat = some p → 1 ≤ p.length ∧ p.length ≤ 255)
    ∧ (a.Built → 2 ≤ a.nleaf.toNat →
      ((List.range 256).map fun x => ((codeRead a.code x).map fun p => 2 ^ (255 - p.length)).getD 0).sum = 2 ^ 255)
    ∧ (a.tstate = .valid → ∀ bits : BitString, 255 ≤ bits.length → ∃ sym p, p <+: bits ∧ LeafPath a.node sym p)

/-- A symbol with a strictly greater count never has a longer code word, whatever the ties. R203 requires this only for inputs
without a tie at a merge; that it holds for every map under every tie-break is the spec's own inference, marked [from general
knowledge, not in source] (spec/93_implementation_defined.md GK3, spec/90_conflicts.md C8). This unconditional form contains the
required one. -/
def Obligations.MoreFrequentIsNotLonger : Prop :=
  ∀ a : Arch, a.Inv → a.Built → a.cvalid = true → ∀ x y : Symbol,
    (freqRead a.freq y.toNat).toNat < (freqRead a.freq x.toNat).toNat → freqRead a.freq y.toNat ≠ 0#32 →
    ∃ p q, codeRead a.code x.toNat = some p ∧ codeRead a.code y.toNat = some q ∧ p.length ≤ q.length

/-! ### The bit encoder -/

/-- R142, R141: `ENC` of a symbol with a code word appends its bits to the bits waiting in `ACC`; the whole bytes go out on
`OB`, first bit in bit 7, the rest waits, `EBITS` grows by the length and `ESYM` by one (both wrap), nothing else changes.
A symbol without a code word is the fatal `E_NOCODE`, with no bit pushed; `E_SEQ` without a table; `E_FAULTED` in `FAULT` mode. -/
def Obligations.EncPacksTheCodeWord : Prop :=
  ∀ (sym : Symbol) (s : State),
    (s.arch.mode = .run → s.arch.cvalid = true → AccClean s.arch → ∀ p, codeRead s.arch.code sym.toNat = some p →
      ∃ (acc : Byte) (bytes : List Byte),
        exec (.enc sym) s = .next
          ⟨{ s.arch with
              acc := acc
              nacc := BitVec.ofNat 3 ((s.arch.nacc.toNat + p.length) % 8)
              ebits := s.arch.ebits + BitVec.ofNat 48 p.length
              esym := s.arch.esym + 1#48 },
            s.ports.answered 0x00#8 0#56 bytes []⟩
        ∧ bytes.length = (s.arch.nacc.toNat + p.length) / 8
        ∧ (∀ k, k < 8 * bytes.length → streamBit bytes k = (waitingBits s.arch ++ p).getD k false)
        ∧ ∀ j, j < 8 → acc.getLsbD (7 - j) = (waitingBits s.arch ++ p).getD (8 * bytes.length + j) false)
    ∧ (s.arch.mode = .run → s.arch.cvalid = true → codeRead s.arch.code sym.toNat = none →
      exec (.enc sym) s = .next
        ⟨{ s.arch with mode := .fault, ecause := 0x05#8, ecmd := 0x05#8 ++ sym ++ 0#32 },
          s.ports.answered 0x05#8 0#56 [] []⟩)
    ∧ (s.arch.mode = .run → s.arch.cvalid = false →
      exec (.enc sym) s = .next (s.answerRefused (0x05#8 ++ sym ++ 0#32) 0x02#8))
    ∧ (s.arch.mode = .fault → exec (.enc sym) s = .next (s.answerRefused (0x05#8 ++ sym ++ 0#32) 0x06#8))

/-- R143: `FLUSH` emits the partial byte if bits are waiting, with zeros after them, and clears `ACC` and `NACC`; with none
waiting it does nothing; `EBITS` and `ESYM` stay; no state guard; `E_FAULTED` in `FAULT` mode. -/
def Obligations.FlushEmitsThePartialByte : Prop :=
  ∀ s : State,
    (s.arch.mode = .run → s.arch.nacc ≠ 0#3 →
      exec .flush s = .next ⟨{ s.arch with acc := 0#8, nacc := 0#3 }, s.ports.answered 0x00#8 0#56 [s.arch.acc] []⟩
      ∧ (s.arch.Inv → ∀ k, k < 8 → streamBit [s.arch.acc] k = (waitingBits s.arch).getD k false))
    ∧ (s.arch.mode = .run → s.arch.nacc = 0#3 → exec .flush s = .next (s.done s.arch))
    ∧ (s.arch.mode = .fault → exec .flush s = .next (s.answerRefused 0x060000000000#48 0x06#8))

/-- R144: `ERST` clears the encoder's four registers and nothing else, and emits nothing; no state guard; `E_FAULTED` in
`FAULT` mode. -/
def Obligations.ErstClearsTheEncoder : Prop :=
  ∀ s : State,
    (s.arch.mode = .run → exec .erst s =
      .next (s.done { s.arch with acc := 0#8, nacc := 0#3, ebits := 0#48, esym := 0#48 }))
    ∧ (s.arch.mode = .fault → exec .erst s = .next (s.answerRefused 0x070000000000#48 0x06#8))
    ∧ encode .erst = 0x070000000000#48

/-- R145: a whole stream. From the encoder's reset state, `ENC` of every symbol of an input and then `FLUSH` are all answered
`OK`; with `P` the concatenation of the code words, `EBITS` is its length, `ESYM` the number of symbols, the bytes emitted are
`ceil(length / 8)` in number and hold `P` most significant bit first, every later bit is 0, and no bit waits. -/
def Obligations.WholeStreamIsTheConcatenation : Prop :=
  ∀ (s : State) (input : List Symbol) (word : Symbol → BitString), s.arch.mode = .run → s.arch.cvalid = true →
    s.arch.acc = 0#8 → s.arch.nacc = 0#3 → s.arch.ebits = 0#48 → s.arch.esym = 0#48 →
    (∀ c ∈ input, codeRead s.arch.code c.toNat = some (word c) ∧ (word c).length ≤ 255) →
    input.length * 255 < 2 ^ 48 →
    ∃ (t : State) (bytes : List Byte), execAll (encs input ++ [.flush]) s = .next t ∧ allOk s t
      ∧ t.ports.ob = s.ports.ob ++ bytes ∧ t.ports.os = s.ports.os
      ∧ t.arch = { s.arch with
          ebits := BitVec.ofNat 48 (input.flatMap word).length, esym := BitVec.ofNat 48 input.length }
      ∧ t.arch.ebits.toNat = (input.flatMap word).length ∧ t.arch.esym.toNat = input.length
      ∧ bytes.length = ((input.flatMap word).length + 7) / 8
      ∧ ∀ k, k < 8 * bytes.length → streamBit bytes k = (input.flatMap word).getD k false

/-! ### The bit decoder -/

/-- R162: `DRST` puts the cursor on `ROOT` and clears `DBITS`, `DSYM`, `FRAME`, and nothing else; no state guard; `E_FAULTED` in
`FAULT` mode. -/
def Obligations.DrstRestartsTheDecoder : Prop :=
  ∀ s : State,
    (s.arch.mode = .run → exec .drst s =
      .next (s.done { s.arch with dcur := s.arch.root, dbits := 0#48, dsym := 0#48, frame := false }))
    ∧ (s.arch.mode = .fault → exec .drst s = .next (s.answerRefused 0x080000000000#48 0x06#8))
    ∧ encode .drst = 0x080000000000#48

/-- R163, R161: in a state that meets the invariants `DBIT` moves the cursor to the child the bit selects, 0 left and 1 right;
when that child is a leaf its symbol is emitted, `DSYM` grows and the cursor returns to `ROOT`; `DBITS` grows by one; nothing
else changes. `E_SEQ` without a tree, `E_FAULTED` in `FAULT` mode. -/
def Obligations.DbitWalksOneEdge : Prop :=
  ∀ (bit : Bool) (s : State),
    (s.arch.Inv → s.arch.mode = .run → s.arch.tstate = .valid → ∃ (w : Weight) (l r : NodeIdx) (n : Node),
      s.arch.node[s.arch.dcur.toNat]? = some (.internal w l r)
      ∧ s.arch.node[(if bit then r else l).toNat]? = some n
      ∧ (∀ sym w', n = .leaf sym w' → exec (.dbit bit) s = .next
          ⟨{ s.arch with dbits := s.arch.dbits + 1#48, dsym := s.arch.dsym + 1#48, dcur := s.arch.root },
            s.ports.answered 0x00#8 0#56 [] [sym]⟩)
      ∧ (n.isLeaf = false → exec (.dbit bit) s = .next
          (s.done { s.arch with dbits := s.arch.dbits + 1#48, dcur := if bit then r else l })))
    ∧ (s.arch.mode = .run → s.arch.tstate ≠ .valid →
      exec (.dbit bit) s = .next (s.answerRefused (0x09#8 ++ 0#7 ++ BitVec.ofBool bit ++ 0#32) 0x02#8))
    ∧ (s.arch.mode = .fault →
      exec (.dbit bit) s = .next (s.answerRefused (0x09#8 ++ 0#7 ++ BitVec.ofBool bit ++ 0#32) 0x06#8))

/-- R164: with 1 to 8 bits `DBYTE` has exactly the effect on the state and on `OS` of the `DBIT` commands of `byte[7]`,
`byte[6]`, ..., in one response; `E_RANGE` for 0 and 9 to 15, `E_SEQ` without a tree, `E_FAULTED` in `FAULT` mode. -/
def Obligations.DbyteIsItsDbits : Prop :=
  ∀ (byte : Byte) (nbits : BitVec 4) (s : State),
    (s.arch.Inv → s.arch.mode = .run → s.arch.tstate = .valid → 1 ≤ nbits.toNat → nbits.toNat ≤ 8 →
      ∃ (t : State) (out : List Symbol),
        execAll (decb ((List.range nbits.toNat).map fun j => byte.getLsbD (7 - j))) s = .next t
        ∧ allOk s t ∧ t.ports.os = s.ports.os ++ out ∧ t.ports.ob = s.ports.ob ∧ out.length ≤ 8
        ∧ exec (.dbyte byte nbits) s = .next ⟨t.arch, s.ports.answered 0x00#8 0#56 [] out⟩
        ∧ t.arch = { s.arch with dcur := t.arch.dcur, dbits := s.arch.dbits + nbits.setWidth 48, dsym := t.arch.dsym })
    ∧ (s.arch.mode = .run → s.arch.tstate = .valid → nbits.toNat = 0 ∨ 9 ≤ nbits.toNat →
      exec (.dbyte byte nbits) s = .next (s.answerRefused (0x0A#8 ++ byte ++ 0#28 ++ nbits) 0x03#8))
    ∧ (s.arch.mode = .run → s.arch.tstate ≠ .valid →
      exec (.dbyte byte nbits) s = .next (s.answerRefused (0x0A#8 ++ byte ++ 0#28 ++ nbits) 0x02#8))
    ∧ (s.arch.mode = .fault →
      exec (.dbyte byte nbits) s = .next (s.answerRefused (0x0A#8 ++ byte ++ 0#28 ++ nbits) 0x06#8))

/-- R165: `DEND` with the cursor at the root, or with `TSTATE = EMPTY`, answers `OK` and changes nothing; with the cursor
elsewhere it sets `FRAME` and answers `E_FRAME`, changing nothing else but the error registers; `E_SEQ` before `BUILD`;
`E_FAULTED` in `FAULT` mode. -/
def Obligations.DendReportsACursorAwayFromTheRoot : Prop :=
  ∀ s : State,
    (s.arch.mode = .run → s.arch.tstate = .valid → s.arch.dcur = s.arch.root → exec .dend s = .next (s.done s.arch))
    ∧ (s.arch.mode = .run → s.arch.tstate = .empty → exec .dend s = .next (s.done s.arch))
    ∧ (s.arch.mode = .run → s.arch.tstate = .valid → s.arch.dcur ≠ s.arch.root →
      exec .dend s = .next
        ⟨{ s.arch with frame := true, ecause := 0x04#8, ecmd := 0x0B0000000000#48 }, s.ports.answered 0x04#8 0#56 [] []⟩)
    ∧ (s.arch.mode = .run → s.arch.tstate = .none → exec .dend s = .next (s.answerRefused 0x0B0000000000#48 0x02#8))
    ∧ (s.arch.mode = .fault → exec .dend s = .next (s.answerRefused 0x0B0000000000#48 0x06#8))

/-- R201: in a state that meets the invariants no more than 254 consecutive bits pass without an emission: any 255 bits emit
at least one symbol, and no run of bits emits more symbols than it has bits. -/
def Obligations.DecoderAlwaysEmitsWithin255Bits : Prop :=
  ∀ (s : State) (bits : BitString), s.arch.Inv → s.arch.mode = .run → s.arch.tstate = .valid →
    ∃ (t : State) (out : List Symbol), execAll (decb bits) s = .next t ∧ t.ports.os = s.ports.os ++ out
      ∧ out.length ≤ bits.length ∧ (255 ≤ bits.length → out ≠ [])

/-- R266: pad bits fed as data. From the root, `k` zero bits emit `floor(k / z)` copies of the leftmost leaf's symbol, where `z`
is the length of the all-zero path, with no error; the cursor is back at the root exactly when `z` divides `k`. -/
def Obligations.PadBitsDecodeToTheLeftmostSymbol : Prop :=
  ∀ (s : State) (k z : Nat) (sym : Symbol), s.arch.Inv → s.arch.mode = .run → s.arch.tstate = .valid →
    s.arch.dcur = s.arch.root → LeafPath s.arch.node sym (List.replicate z false) →
    ∃ t : State, execAll (decb (List.replicate k false)) s = .next t ∧ allOk s t
      ∧ t.ports.os = s.ports.os ++ List.replicate (k / z) sym
      ∧ (t.arch.dcur = t.arch.root ↔ k % z = 0)

/-! ### Readback -/

/-- R180: a read command that succeeds changes no state and emits nothing, in either mode; the state is the one before. -/
def Obligations.ReadsChangeNothing : Prop :=
  ∀ (i : Instr) (s t : State), i.mnemonic ∈ ["RDF", "RDNL", "RDNW", "RDC", "RDS"] → exec i s = .next t →
    ∃ st data, t.ports = s.ports.answered st data [] []
      ∧ (st = 0x00#8 → t.arch = s.arch) ∧ (st ≠ 0x00#8 → data = 0#56)

/-- R181: `RDF` answers the entry, in any mode and any `TSTATE`, and changes nothing. -/
def Obligations.RdfReadsTheEntry : Prop :=
  ∀ (sym : Symbol) (s : State), encode (.rdf sym) = 0x10#8 ++ sym ++ 0#32 ∧ exec (.rdf sym) s =
    .next ⟨s.arch, s.ports.answered 0x00#8 ((freqRead s.arch.freq sym.toNat).setWidth 56) [] []⟩

/-- R182: `RDNL` answers the leaf bit in bit 0, the symbol in [8:1], left in [17:9], right in [26:18], zeros elsewhere; in any
mode; `E_RANGE` for `idx >= NNODES`. -/
def Obligations.RdnlReadsShapeAndLinks : Prop :=
  ∀ (idx : NodeIdx) (s : State),
    (s.arch.Inv → idx.toNat < s.arch.nnodes.toNat → ∃ (n : Node) (data : RspData),
      s.arch.node[idx.toNat]? = some n
      ∧ exec (.rdnl idx) s = .next ⟨s.arch, s.ports.answered 0x00#8 data [] []⟩
      ∧ data.extractLsb' 27 29 = 0#29
      ∧ (∀ sym w, n = .leaf sym w → data.getLsbD 0 = true ∧ data.extractLsb' 1 8 = sym ∧ data.extractLsb' 9 9 = 0#9
          ∧ data.extractLsb' 18 9 = 0#9)
      ∧ (∀ w l r, n = .internal w l r → data.getLsbD 0 = false ∧ data.extractLsb' 1 8 = 0#8 ∧ data.extractLsb' 9 9 = l
          ∧ data.extractLsb' 18 9 = r))
    ∧ (s.arch.nnodes.toNat ≤ idx.toNat →
      exec (.rdnl idx) s = .next (s.answerRefused (0x11#8 ++ 0#31 ++ idx) 0x03#8))

/-- R183: `RDNW` answers the node's weight; in any mode; `E_RANGE` for `idx >= NNODES`. -/
def Obligations.RdnwReadsTheWeight : Prop :=
  ∀ (idx : NodeIdx) (s : State),
    (s.arch.Inv → idx.toNat < s.arch.nnodes.toNat → ∃ (n : Node) (data : RspData),
      s.arch.node[idx.toNat]? = some n
      ∧ exec (.rdnw idx) s = .next ⟨s.arch, s.ports.answered 0x00#8 data [] []⟩
      ∧ data.toNat = weightAt s.arch.node idx.toNat)
    ∧ (s.arch.nnodes.toNat ≤ idx.toNat →
      exec (.rdnw idx) s = .next (s.answerRefused (0x12#8 ++ 0#31 ++ idx) 0x03#8))

/-- R184: `RDC` answers the length in [39:32] and chunk `k` in [31:0], its bit `31 - j` being code-word bit `32 * k + j` and 0
beyond the end; all 0 for an absent entry; in any mode; `E_SEQ` while `CVALID = 0`. -/
def Obligations.RdcReadsLengthAndChunk : Prop :=
  ∀ (sym : Symbol) (k : BitVec 3) (s : State),
    (s.arch.cvalid = true → codeRead s.arch.code sym.toNat = none →
      exec (.rdc sym k) s = .next (s.done s.arch))
    ∧ (s.arch.cvalid = true → ∀ p, codeRead s.arch.code sym.toNat = some p → p.length ≤ 255 → ∃ data : RspData,
      exec (.rdc sym k) s = .next ⟨s.arch, s.ports.answered 0x00#8 data [] []⟩
      ∧ data.extractLsb' 40 16 = 0#16 ∧ (data.extractLsb' 32 8).toNat = p.length
      ∧ ∀ j, j < 32 → data.getLsbD (31 - j) = p.getD (32 * k.toNat + j) false)
    ∧ (s.arch.cvalid = false →
      exec (.rdc sym k) s = .next (s.answerRefused (0x13#8 ++ sym ++ 0#29 ++ k) 0x02#8))

/-- R185, R37, R38: `RDS n` answers the register numbered `n` and changes nothing, in any mode; `STATUS` is assembled from the
state before; `E_RANGE` from 13 on. -/
def Obligations.RdsReadsTheRegister : Prop :=
  ∀ (n : BitVec 8) (s : State),
    (n.toNat ≤ 12 → ∃ data : RspData, exec (.rds n) s = .next ⟨s.arch, s.ports.answered 0x00#8 data [] []⟩
      ∧ (n = 0#8 → data.extractLsb' 6 50 = 0#50
          ∧ data.extractLsb' 0 2 = (match s.arch.tstate with | .none => 0#2 | .empty => 1#2 | .valid => 2#2)
          ∧ data.getLsbD 2 = s.arch.cvalid ∧ (data.getLsbD 3 = true ↔ s.arch.mode = .fault)
          ∧ data.getLsbD 4 = s.arch.frame
          ∧ (data.getLsbD 5 = true ↔ s.arch.tstate ≠ .valid ∨ s.arch.dcur = s.arch.root))
      ∧ (n = 1#8 → data = 0x48554601#56)
      ∧ (n = 2#8 → data.toNat = s.arch.nleaf.toNat)
      ∧ (n = 3#8 → data.toNat = s.arch.nnodes.toNat)
      ∧ (n = 4#8 → data.toNat = s.arch.root.toNat)
      ∧ (n = 5#8 → data.toNat = s.arch.ebits.toNat)
      ∧ (n = 6#8 → data.toNat = s.arch.esym.toNat)
      ∧ (n = 7#8 → data.toNat = 256 * s.arch.nacc.toNat + s.arch.acc.toNat)
      ∧ (n = 8#8 → data.toNat = s.arch.dcur.toNat)
      ∧ (n = 9#8 → data.toNat = s.arch.dbits.toNat)
      ∧ (n = 10#8 → data.toNat = s.arch.dsym.toNat)
      ∧ (n = 11#8 → data.toNat = s.arch.ecause.toNat)
      ∧ (n = 12#8 → data.toNat = s.arch.ecmd.toNat))
    ∧ (13 ≤ n.toNat → exec (.rds n) s = .next (s.answerRefused (0x14#8 ++ n ++ 0#32) 0x03#8))

/-! ### Invariants and whole-machine laws -/

/-- R42: the invariants hold right after reset. -/
def Obligations.InvariantsHoldAtReset : Prop := State.reset.arch.Inv ∧ State.reset.arch.Built

/-- R42: every step, whatever the input event, keeps the invariants. -/
def Obligations.EveryStepKeepsTheInvariants : Prop :=
  ∀ s t : State, s.arch.Inv → step s = .next t → t.arch.Inv

/-- R72: every step keeps the tree in `NODE` the one that `BUILD` makes of the map in `FREQ`. -/
def Obligations.TreeNeverDisagreesWithTheMap : Prop :=
  ∀ s t : State, s.arch.Built → step s = .next t → t.arch.Built

/-- In a state that meets the invariants (R42) every step ends, whatever the input event: the model never stops. R271 says so
provided the host takes the outputs (R52, R53); that it does is built into the model (log 4, DEDUCED), so nothing is said here of
a host that stops listening. -/
def Obligations.EveryCommandEnds : Prop := ∀ s : State, s.arch.Inv → ∃ t, step s = .next t

/-- R267: the encoder's commands never change the decoder's registers or `OS`, the decoder's never the encoder's or `OB`, and
neither changes the map, the tree or the table. -/
def Obligations.EncoderAndDecoderDoNotDisturbEachOther : Prop :=
  ∀ (i : Instr) (s t : State), exec i s = .next t →
    (i.mnemonic ∈ ["ENC", "FLUSH", "ERST"] →
      t.arch.dcur = s.arch.dcur ∧ t.arch.dbits = s.arch.dbits ∧ t.arch.dsym = s.arch.dsym ∧ t.arch.frame = s.arch.frame
      ∧ t.ports.os = s.ports.os)
    ∧ (i.mnemonic ∈ ["DBIT", "DBYTE", "DRST", "DEND"] →
      t.arch.acc = s.arch.acc ∧ t.arch.nacc = s.arch.nacc ∧ t.arch.ebits = s.arch.ebits ∧ t.arch.esym = s.arch.esym
      ∧ t.ports.ob = s.ports.ob ∧ t.arch.mode = s.arch.mode)
    ∧ (i.mnemonic ∈ ["ENC", "FLUSH", "ERST", "DBIT", "DBYTE", "DRST", "DEND"] →
      t.arch.freq = s.arch.freq ∧ t.arch.node = s.arch.node ∧ t.arch.code = s.arch.code ∧ t.arch.tstate = s.arch.tstate
      ∧ t.arch.root = s.arch.root ∧ t.arch.cvalid = s.arch.cvalid)

/-- R196, in place: in a state that meets the invariants, with a code table and an encoder at its start, encoding any input
whose symbols have code words and decoding the bytes emitted, framed by `EBITS`, on the same tree gives the input back, every
response being `OK`. -/
def Obligations.EncodeThenDecodeIsTheIdentity : Prop :=
  ∀ (s : State) (input : List Symbol), s.arch.Inv → s.arch.mode = .run → s.arch.cvalid = true → s.arch.nacc = 0#3 →
    s.arch.ebits = 0#48 → s.arch.esym = 0#48 → input ≠ [] →
    (∀ c ∈ input, codeRead s.arch.code c.toNat ≠ none) → 255 * input.length < 2 ^ 48 →
    ∃ (t u : State) (bytes : List Byte),
      execAll (encs input ++ [.flush]) s = .next t ∧ allOk s t ∧ t.ports.ob = s.ports.ob ++ bytes
      ∧ bytes.length = (t.arch.ebits.toNat + 7) / 8
      ∧ execAll (.drst :: decs bytes t.arch.ebits.toNat ++ [.dend]) t = .next u ∧ allOk t u
      ∧ u.ports.os = t.ports.os ++ input ∧ u.arch.dbits = t.arch.ebits ∧ u.arch.dsym.toNat = input.length
      ∧ u.arch.frame = false

/-- R196: from the reset state. A map with a nonzero count for every symbol of the input is loaded (`FreqOf` of the input is
one), `BUILD`, `DERIVE`, the input encoded and flushed; decoding on the same block, and on a second block that got the same
`LDF` commands and `BUILD` and never a `DERIVE`, gives the input back, every response being `OK`. -/
def Obligations.RoundTripFromReset : Prop :=
  (∀ (pairs : List (Symbol × Count)) (input : List Symbol), (pairs.map (·.1)).Nodup → input ≠ [] →
    (∀ c ∈ input, ∃ n, (c, n) ∈ pairs ∧ n ≠ 0#32) → 255 * input.length < 2 ^ 48 →
    ∃ (t u v : State) (bytes : List Byte),
      execAll (ldmap pairs ++ prep ++ encs input ++ [.flush]) State.reset = .next t ∧ allOk State.reset t
      ∧ t.ports.ob = bytes ∧ bytes.length = (t.arch.ebits.toNat + 7) / 8
      ∧ execAll (.drst :: decs bytes t.arch.ebits.toNat ++ [.dend]) t = .next u ∧ allOk t u ∧ u.ports.os = input
      ∧ u.arch.dbits = t.arch.ebits ∧ u.arch.dsym.toNat = input.length ∧ u.arch.frame = false
      ∧ execAll (ldmap pairs ++ .build :: .drst :: decs bytes t.arch.ebits.toNat ++ [.dend]) State.reset = .next v
      ∧ allOk State.reset v ∧ v.ports.os = input ∧ v.arch.dbits = t.arch.ebits ∧ v.arch.dsym.toNat = input.length
      ∧ v.arch.frame = false)
  ∧ (∀ input : List Symbol, (∀ c, freqOf input c < 2 ^ 32) →
      ((freqPairs input).map (·.1)).Nodup ∧ ∀ c ∈ input, ∃ n, (c, n) ∈ freqPairs input ∧ n ≠ 0#32
        ∧ n.toNat = freqOf input c)

/-- R197: `n` copies of one symbol: the code word is "0", `EBITS = n`, the bytes are `ceil(n / 8)` bytes of 0, and they decode
back. -/
def Obligations.OneRepeatedSymbolRoundTrips : Prop :=
  ∀ (sym : Symbol) (n : Nat), 1 ≤ n → n < 2 ^ 32 → ∃ t u : State,
    execAll (ldmapOf (List.replicate n sym) ++ prep ++ encs (List.replicate n sym) ++ [.flush]) State.reset = .next t
    ∧ allOk State.reset t ∧ (∀ x : Symbol, codeRead t.arch.code x.toNat = if x = sym then some [false] else none)
    ∧ t.arch.ebits.toNat = n ∧ t.ports.ob = List.replicate ((n + 7) / 8) 0#8
    ∧ execAll (.drst :: decs t.ports.ob n ++ [.dend]) t = .next u ∧ allOk t u ∧ u.ports.os = List.replicate n sym

/-- R198: the empty input, with no `LDF` or only `LDF s, 0`: everything answers `OK`, nothing is emitted, every `CODE` entry is
absent, and no error register changes. -/
def Obligations.EmptyInputIsNoError : Prop :=
  ∀ syms : List Symbol, ∃ t : State,
    execAll (ldmap (syms.map fun c => (c, 0#32)) ++ prep ++ [.flush, .drst, .dend]) State.reset = .next t
    ∧ allOk State.reset t ∧ t.arch.tstate = .empty ∧ t.arch.cvalid = true ∧ (∀ x, codeRead t.arch.code x = none)
    ∧ t.ports.ob = [] ∧ t.ports.os = [] ∧ t.arch.ebits = 0#48 ∧ t.arch.ecause = 0#8 ∧ t.arch.ecmd = 0#48

/-- R199: with the map `FreqOf` of the input the payload length is the sum of count times code-word length over the symbols,
and with two keys or more it is the sum of the internal nodes' weights.
The second sum is a standard fact that the spec gives without a proof (spec/93_implementation_defined.md GK4). -/
def Obligations.PayloadLengthIsCountTimesLength : Prop :=
  ∀ (input : List Symbol), input ≠ [] → (∀ c, freqOf input c < 2 ^ 32) → 255 * input.length < 2 ^ 48 →
    ∃ t : State, execAll (ldmapOf input ++ prep ++ encs input ++ [.flush]) State.reset = .next t
      ∧ t.arch.ebits.toNat = ((List.range 256).map fun x =>
          (freqRead t.arch.freq x).toNat * ((codeRead t.arch.code x).map List.length).getD 0).sum
      ∧ (2 ≤ t.arch.nleaf.toNat → t.arch.ebits.toNat =
          (t.arch.node.map fun n => if n.isLeaf then 0 else n.weight.toNat).sum)
end

