-- ==== Sys2Proof/Laws/State.lean ====
section
/-! SUPPORT. One lemma per field per named update of the state, true by rfl, so that no proof unfolds a record update. -/

namespace Sys2Proof.Machine

@[simp] theorem respond_arch (a : Arch) (d : RspData) : (respond a d).arch = a := rfl
@[simp] theorem respond_status (a : Arch) (d : RspData) : (respond a d).status = .ok := rfl
@[simp] theorem respond_data (a : Arch) (d : RspData) : (respond a d).data = d := rfl
@[simp] theorem respond_ob (a : Arch) (d : RspData) : (respond a d).ob = [] := rfl
@[simp] theorem respond_os (a : Arch) (d : RspData) : (respond a d).os = [] := rfl

@[simp] theorem raise_status (e : Status) (w : CmdWord) (a : Arch) : (raise e w a).status = e := rfl
@[simp] theorem raise_data (e : Status) (w : CmdWord) (a : Arch) : (raise e w a).data = 0#56 := rfl
@[simp] theorem raise_ob (e : Status) (w : CmdWord) (a : Arch) : (raise e w a).ob = [] := rfl
@[simp] theorem raise_os (e : Status) (w : CmdWord) (a : Arch) : (raise e w a).os = [] := rfl

@[simp] theorem deliver_arch (s : State) (r : Reply) : (s.deliver r).arch = r.arch := rfl
@[simp] theorem deliver_pending (s : State) (r : Reply) : (s.deliver r).ports.pending = s.ports.pending := rfl
@[simp] theorem deliver_rsp (s : State) (r : Reply) : (s.deliver r).ports.rsp = s.ports.rsp ++ [r.word] := rfl
@[simp] theorem deliver_ob (s : State) (r : Reply) : (s.deliver r).ports.ob = s.ports.ob ++ r.ob := rfl
@[simp] theorem deliver_os (s : State) (r : Reply) : (s.deliver r).ports.os = s.ports.os ++ r.os := rfl

/-- A delivered reply, in the words of the statements. -/
theorem deliver_eq_answered (s : State) (r : Reply) :
    s.deliver r = ⟨r.arch, s.ports.answered r.status.code r.data r.ob r.os⟩ := rfl

@[simp] theorem withPending_arch (s : State) (rest : List Event) : (s.withPending rest).arch = s.arch := rfl
@[simp] theorem withPending_pending (s : State) (rest : List Event) : (s.withPending rest).ports.pending = rest := rfl
@[simp] theorem withPending_rsp (s : State) (rest : List Event) : (s.withPending rest).ports.rsp = s.ports.rsp := rfl
@[simp] theorem withPending_ob (s : State) (rest : List Event) : (s.withPending rest).ports.ob = s.ports.ob := rfl
@[simp] theorem withPending_os (s : State) (rest : List Event) : (s.withPending rest).ports.os = s.ports.os := rfl

@[simp] theorem resetEvent_arch (s : State) : s.resetEvent.arch = Arch.reset := rfl
@[simp] theorem resetEvent_ports (s : State) : s.resetEvent.ports = s.ports := rfl

@[simp] theorem cutShort_arch (k : Nat) (s done : State) : (cutShort k s done).arch = Arch.reset := rfl
@[simp] theorem cutShort_pending (k : Nat) (s done : State) : (cutShort k s done).ports.pending = s.ports.pending := rfl
@[simp] theorem cutShort_rsp (k : Nat) (s done : State) : (cutShort k s done).ports.rsp = s.ports.rsp := rfl

@[simp] theorem done_arch (s : State) (a : Arch) : (s.done a).arch = a := rfl
@[simp] theorem done_ob (s : State) (a : Arch) : (s.done a).ports.ob = s.ports.ob ++ [] := rfl
@[simp] theorem done_os (s : State) (a : Arch) : (s.done a).ports.os = s.ports.os ++ [] := rfl

@[simp] theorem answered_pending (p : Ports) (st : BitVec 8) (d : RspData) (ob : List Byte) (os : List Symbol) :
    (p.answered st d ob os).pending = p.pending := rfl
@[simp] theorem answered_rsp (p : Ports) (st : BitVec 8) (d : RspData) (ob : List Byte) (os : List Symbol) :
    (p.answered st d ob os).rsp = p.rsp ++ [st ++ d] := rfl
@[simp] theorem answered_ob (p : Ports) (st : BitVec 8) (d : RspData) (ob : List Byte) (os : List Symbol) :
    (p.answered st d ob os).ob = p.ob ++ ob := rfl
@[simp] theorem answered_os (p : Ports) (st : BitVec 8) (d : RspData) (ob : List Byte) (os : List Symbol) :
    (p.answered st d ob os).os = p.os ++ os := rfl

/-- `raise` in `RUN` mode (spec/60_exceptions.md R224). -/
theorem raise_run {e : Status} {w : CmdWord} {a : Arch} (h : a.mode = .run) :
    (raise e w a).arch = { a with ecause := e.code, ecmd := w, mode := if e = .nocode then .fault else .run } := by
  simp [raise, h]

/-- `raise` in `FAULT` mode (spec/60_exceptions.md R224). -/
theorem raise_fault {e : Status} {w : CmdWord} {a : Arch} (h : a.mode = .fault) : (raise e w a).arch = a := by
  simp [raise, h]

/-- What raising a code that is not fatal makes of the state, in either mode. -/
theorem deliver_raise_eq (s : State) (e : Status) (w : CmdWord) (h : e ≠ .nocode) :
    s.deliver (raise e w s.arch) = s.answerRefused w e.code := by
  obtain ⟨a, p⟩ := s
  cases hm : a.mode <;> simp [State.deliver, raise, State.answerRefused, Ports.answered, Reply.word, hm, h]

/-- The two fields of a response word determine it. -/
theorem rspWord_inj {st st' : BitVec 8} {d d' : RspData} (h : st ++ d = st' ++ d') : st = st' ∧ d = d' := by
  have h1 := congrArg (BitVec.extractLsb' 56 8) h
  have h2 := congrArg (BitVec.extractLsb' 0 56) h
  rw [BitVec.extractLsb'_append_eq_left, BitVec.extractLsb'_append_eq_left] at h1
  rw [BitVec.extractLsb'_append_eq_right, BitVec.extractLsb'_append_eq_right] at h2
  exact ⟨h1, h2⟩

/-- What was answered can be read off the ports. -/
theorem answered_inj {p : Ports} {st st' : BitVec 8} {d d' : RspData} {ob ob' : List Byte} {os os' : List Symbol}
    (h : p.answered st d ob os = p.answered st' d' ob' os') : st = st' ∧ d = d' ∧ ob = ob' ∧ os = os' := by
  simp only [Ports.answered, Ports.mk.injEq, List.append_cancel_left_eq, List.cons.injEq, and_true, true_and] at h
  exact ⟨(rspWord_inj h.1).1, (rspWord_inj h.1).2, h.2.1, h.2.2⟩

end Sys2Proof.Machine
end

