-- ==== Sys2Proof/Laws/Accept.lean ====
section
/-! SUPPORT. What the shared frame of the commands can do (spec/60_exceptions.md R222 to R224): which error is answered first,
and what follows when no guard fails. Proofs about a command cite these and do not unfold `accept`. -/

namespace Sys2Proof.Machine

/-- No guard fails. -/
theorem firstError_none {i : Instr} {a : Arch} :
    firstError i a = none ↔ ¬ (a.mode = .fault ∧ servedInFault i = false) ∧ seqGuard i a = true ∧ rangeGuard i a = true := by
  unfold firstError
  split <;> [simp_all; (split <;> [simp_all; (split <;> simp_all)])]

/-- In `RUN` mode only the two guards of the command count. -/
theorem firstError_run {i : Instr} {a : Arch} (h : a.mode = .run) (hs : seqGuard i a = true) (hr : rangeGuard i a = true) :
    firstError i a = none :=
  firstError_none.mpr ⟨by simp [h], hs, hr⟩

/-- A command that `FAULT` mode serves meets its guards in either mode. -/
theorem firstError_served {i : Instr} {a : Arch} (h : servedInFault i = true) (hs : seqGuard i a = true)
    (hr : rangeGuard i a = true) : firstError i a = none :=
  firstError_none.mpr ⟨by simp [h], hs, hr⟩

/-- `E_FAULTED` comes first (R222). -/
theorem firstError_faulted {i : Instr} {a : Arch} (h : a.mode = .fault) (hi : servedInFault i = false) :
    firstError i a = some .faulted := by
  simp [firstError, h, hi]

/-- Then `E_SEQ`. -/
theorem firstError_seq {i : Instr} {a : Arch} (h : a.mode = .run ∨ servedInFault i = true) (hs : seqGuard i a = false) :
    firstError i a = some .seq := by
  rcases h with h | h <;> simp [firstError, h, hs]

/-- Then `E_RANGE`. -/
theorem firstError_range {i : Instr} {a : Arch} (h : a.mode = .run ∨ servedInFault i = true) (hs : seqGuard i a = true)
    (hr : rangeGuard i a = false) : firstError i a = some .range := by
  rcases h with h | h <;> simp [firstError, h, hs, hr]

/-- The guards never answer the fatal error, nor `OK`, `E_ILLEGAL` or `E_FRAME`. -/
theorem firstError_cases {i : Instr} {a : Arch} {e : Status} (h : firstError i a = some e) :
    (e = .faulted ∧ a.mode = .fault ∧ servedInFault i = false)
      ∨ (e = .seq ∧ seqGuard i a = false) ∨ (e = .range ∧ rangeGuard i a = false) := by
  unfold firstError at h
  split at h
  · simp_all
  · split at h
    · simp_all
    · split at h <;> simp_all

/-- A guard that fails: the command is answered with its code and does nothing else. -/
theorem accept_refused {i : Instr} {body : Arch → Except Fault Reply} {s : State} {e : Status}
    (h : firstError i s.arch = some e) : accept i body s = .next (s.answerRefused (encode i) e.code) := by
  have he : e ≠ .nocode := by rcases firstError_cases h with h | h | h <;> simp [h.1]
  simp [accept, h, deliver_raise_eq s e (encode i) he]

/-- No guard fails: the command's own pseudocode runs. -/
theorem accept_served {i : Instr} {body : Arch → Except Fault Reply} {s : State} (h : firstError i s.arch = none) :
    accept i body s = match body s.arch with
      | .ok r => .next (s.deliver r)
      | .error f => .fault f := by
  cases hb : body s.arch <;> simp only [accept, h, hb]

/-- No guard fails and the pseudocode answers `r`. -/
theorem accept_ok {i : Instr} {body : Arch → Except Fault Reply} {s : State} {r : Reply} (h : firstError i s.arch = none)
    (hr : body s.arch = .ok r) : accept i body s = .next (s.deliver r) := by
  simp [accept, h, hr]

/-- Everything an accepted command can do when it answers a next state. -/
theorem accept_cases {i : Instr} {body : Arch → Except Fault Reply} {s t : State} (h : accept i body s = .next t) :
    (∃ e, firstError i s.arch = some e ∧ t = s.answerRefused (encode i) e.code)
      ∨ (∃ r, firstError i s.arch = none ∧ body s.arch = .ok r ∧ t = s.deliver r) := by
  cases he : firstError i s.arch with
  | some e =>
    rw [accept_refused he] at h
    exact .inl ⟨e, rfl, by injection h with h; exact h.symm⟩
  | none =>
    rw [accept_served he] at h
    cases hb : body s.arch with
    | error f => rw [hb] at h; cases h
    | ok r =>
      rw [hb] at h
      exact .inr ⟨r, rfl, rfl, by injection h with h; exact h.symm⟩

/-- An accepted command is never refused by the model. -/
theorem accept_not_refused {i : Instr} {body : Arch → Except Fault Reply} {s : State} {r : Refusal} :
    accept i body s ≠ .refused r := by
  unfold accept
  split
  · simp
  · split <;> simp

end Sys2Proof.Machine
end

