-- ==== Sys2Proof/Laws/Memory.lean ====
section
/-! SUPPORT. The laws of the tables (spec/20_memory.md R61): a read after a write gives the value written, a write leaves every
other entry alone, and every operation keeps the canonical form. -/

namespace Sys2Proof.Machine

variable {α : Type}

theorem find_erase (m : Memory α) (k j : Nat) :
    Memory.find (Memory.erase m k) j = if j = k then none else Memory.find m j := by
  induction m with
  | nil => simp [Memory.erase, Memory.find]
  | cons e rest ih =>
    obtain ⟨i, v⟩ := e
    have ih' : Memory.find (List.filter (fun e => e.1 != k) rest) j = if j = k then none else Memory.find rest j := ih
    by_cases h : i = k
    · by_cases hj : j = k <;> simp_all [Memory.erase, Memory.find]
      intro h'; exact absurd h'.symm hj
    · have : (i != k) = true := by simpa using h
      simp only [Memory.erase, List.filter_cons, this, if_true, Memory.find, ih']
      by_cases hj : i = j
      · subst hj; simp [h]
      · simp [hj]

theorem find_insert (m : Memory α) (k j : Nat) (v : α) (h : Memory.find m k = none) :
    Memory.find (Memory.insert m k v) j = if j = k then some v else Memory.find m j := by
  induction m with
  | nil => by_cases hj : k = j <;> simp [Memory.insert, Memory.find, hj, eq_comm]
  | cons e rest ih =>
    obtain ⟨i, u⟩ := e
    have hik : i ≠ k := by intro hik; simp [Memory.find, hik] at h
    have hr : Memory.find rest k = none := by simpa [Memory.find, hik] using h
    by_cases hlt : k < i
    · by_cases hj : k = j
      · subst hj; simp [Memory.insert, hlt, Memory.find]
      · simp [Memory.insert, hlt, Memory.find, hj, Ne.symm hj]
    · simp only [Memory.insert, hlt, if_false, Memory.find, ih hr]
      by_cases hj : i = j
      · subst hj; simp [hik]
      · simp [hj]

/-- A read after a write (R61), for `FREQ`. -/
theorem freqRead_freqWrite (m : Memory Count) (k j : Nat) (v : Count) :
    freqRead (freqWrite m k v) j = if j = k then v else freqRead m j := by
  have hk : Memory.find (Memory.erase m k) k = none := by simp [find_erase]
  unfold freqRead freqWrite
  by_cases hv : v = 0#32
  · by_cases hj : j = k <;> simp [hv, hj, find_erase]
  · by_cases hj : j = k <;> simp [hv, hj, find_insert _ _ _ _ hk, find_erase]

/-- A read after a write (R61), for `CODE`. -/
theorem codeRead_codeWrite (m : Memory BitString) (k j : Nat) (p : BitString) :
    codeRead (codeWrite m k p) j = if j = k then some p else codeRead m j := by
  have hk : Memory.find (Memory.erase m k) k = none := by simp [find_erase]
  unfold codeRead codeWrite
  by_cases hj : j = k <;> simp [hj, find_insert _ _ _ _ hk, find_erase]

/-- Membership in an inserted table. -/
theorem mem_insert (m : Memory α) (k : Nat) (v : α) (e : Nat × α) :
    e ∈ Memory.insert m k v ↔ e = (k, v) ∨ e ∈ m := by
  induction m with
  | nil => simp [Memory.insert]
  | cons x rest ih =>
    obtain ⟨i, u⟩ := x
    by_cases h : k < i
    · simp [Memory.insert, h]
    · simp [Memory.insert, h, ih]; tauto

/-- Erasing keeps the canonical form. -/
theorem wf_erase (size : Nat) (m : Memory α) (k : Nat) (h : Memory.wf size m = true) :
    Memory.wf size (Memory.erase m k) = true := by
  simp only [Memory.wf, decide_eq_true_eq] at h ⊢
  refine ⟨?_, fun e he => h.2 e (List.mem_of_mem_filter he)⟩
  exact List.Pairwise.sublist ((List.filter_sublist).map _) h.1

/-- Inserting a new index keeps the canonical form. -/
theorem wf_insert (size : Nat) (m : Memory α) (k : Nat) (v : α) (h : Memory.wf size m = true) (hk : k < size)
    (hnew : ∀ e ∈ m, e.1 ≠ k) : Memory.wf size (Memory.insert m k v) = true := by
  simp only [Memory.wf, decide_eq_true_eq] at h ⊢
  refine ⟨?_, fun e he => ?_⟩
  · obtain ⟨h, -⟩ := h
    induction m with
    | nil => simp [Memory.insert]
    | cons x rest ih =>
      obtain ⟨i, u⟩ := x
      simp only [List.map_cons, List.pairwise_cons] at h
      by_cases hlt : k < i
      · simp only [Memory.insert, hlt, if_true, List.map_cons, List.pairwise_cons]
        refine ⟨?_, h.1, h.2⟩
        intro y hy
        rcases List.mem_cons.mp hy with rfl | hy
        · exact hlt
        · exact lt_trans hlt (h.1 y hy)
      · simp only [Memory.insert, hlt, if_false, List.map_cons, List.pairwise_cons]
        refine ⟨?_, ih (fun e he => hnew e (List.mem_cons_of_mem _ he)) h.2⟩
        intro y hy
        obtain ⟨e, he, rfl⟩ := List.mem_map.mp hy
        rcases (mem_insert rest k v e).mp he with rfl | he
        · have := hnew (i, u) (List.mem_cons_self ..)
          simp only at this ⊢
          omega
        · exact h.1 _ (List.mem_map_of_mem he)
  · rcases (mem_insert m k v e).mp he with rfl | he
    · exact hk
    · exact h.2 e he

theorem erase_new (m : Memory α) (k : Nat) : ∀ e ∈ Memory.erase m k, e.1 ≠ k := by
  intro e he
  simpa using (List.mem_filter.mp he).2

/-- A write of `FREQ` keeps its canonical form. -/
theorem freqWf_freqWrite (m : Memory Count) (k : Nat) (v : Count) (h : freqWf m = true) (hk : k < Config.nsym) :
    freqWf (freqWrite m k v) = true := by
  simp only [freqWf, Bool.and_eq_true, List.all_eq_true] at h ⊢
  unfold freqWrite
  by_cases hv : v = 0#32
  · rw [if_pos hv]
    exact ⟨wf_erase _ _ _ h.1, fun e he => h.2 e (List.mem_of_mem_filter he)⟩
  · rw [if_neg hv]
    refine ⟨wf_insert _ _ _ _ (wf_erase _ _ _ h.1) hk (erase_new m k), fun e he => ?_⟩
    rcases (mem_insert _ _ _ e).mp he with rfl | he
    · simpa using hv
    · exact h.2 e (List.mem_of_mem_filter he)

/-- A write of `CODE` keeps its canonical form. -/
theorem codeWf_codeWrite (m : Memory BitString) (k : Nat) (p : BitString) (h : codeWf m = true) (hk : k < Config.nsym) :
    codeWf (codeWrite m k p) = true :=
  wf_insert _ _ _ _ (wf_erase _ _ _ h) hk (erase_new m k)

/-- The reset tables are in canonical form. -/
theorem reset_tables_wf : freqWf State.reset.arch.freq = true ∧ codeWf State.reset.arch.code = true := by decide

/-- An index outside the alphabet reads 0 in a canonical `FREQ`. -/
theorem freqRead_outside (m : Memory Count) (k : Nat) (h : freqWf m = true) (hk : Config.nsym ≤ k) :
    freqRead m k = 0#32 := by
  have hb : ∀ e ∈ m, e.1 < Config.nsym := by
    simp only [freqWf, Bool.and_eq_true, Memory.wf, decide_eq_true_eq] at h
    exact h.1.2
  have hf : ∀ m' : Memory Count, (∀ e ∈ m', e.1 < Config.nsym) → Memory.find m' k = none := by
    intro m' hm'
    induction m' with
    | nil => rfl
    | cons e rest ih =>
      have := hm' e (List.mem_cons_self ..)
      have hne : e.1 ≠ k := by omega
      simp [Memory.find, hne, ih fun x hx => hm' x (List.mem_cons_of_mem _ hx)]
  simp [freqRead, hf m hb]

end Sys2Proof.Machine
end

