-- ==== Sys2Proof/Laws/CodeTable.lean ====
section
/-! SUPPORT. The parts of the code table deriver (spec/42_code_table_deriver.md R131, R132): reading a node, recording a path,
and one visit of the walk. -/

namespace Sys2Proof.Machine

theorem nodeRead_ok {nodes : List Node} {i : Nat} {n : Node} : nodeRead nodes i = .ok n ↔ nodes[i]? = some n := by
  unfold nodeRead
  cases h : nodes[i]? <;> simp

theorem nodeRead_error {nodes : List Node} {i : Nat} {f : Fault} :
    nodeRead nodes i = .error f ↔ nodes.length ≤ i ∧ f = .nodeHoldsNoValue := by
  unfold nodeRead
  cases h : nodes[i]? with
  | none => simp [List.getElem?_eq_none_iff.mp h, eq_comm]
  | some n =>
    have := (List.getElem?_eq_some_iff.mp h).1
    simp; intro h'; omega

/-- The first path of a symbol is kept (R132). -/
theorem codeRead_record (sym : Symbol) (p : BitString) (table : Memory BitString) (x : Nat) :
    codeRead (record sym p table) x =
      if x = sym.toNat then some ((codeRead table x).getD p) else codeRead table x := by
  unfold record
  cases h : codeRead table sym.toNat with
  | none =>
    rw [codeRead_codeWrite]
    by_cases hx : x = sym.toNat
    · subst hx; simp [h]
    · simp [hx]
  | some q =>
    by_cases hx : x = sym.toNat
    · subst hx; simp [h]
    · simp [hx]

theorem codeWf_record (sym : Symbol) (p : BitString) (table : Memory BitString) (h : codeWf table = true) :
    codeWf (record sym p table) = true := by
  unfold record
  split
  · exact codeWf_codeWrite _ _ _ h (by have := sym.isLt; simp only [Config.nsym]; omega)
  · exact h

/-- A visit of a leaf. -/
theorem walk_leaf {nodes : List Node} {i : Nat} {sym : Symbol} {w : Weight} (depth : Nat) (p : BitString)
    (table : Memory BitString) (h : nodes[i]? = some (.leaf sym w)) :
    walk (depth + 1) nodes i p table = .ok (record sym p table) := by
  simp [walk, nodeRead_ok.mpr h]

/-- A visit of an internal node: the left subtree, then the right one. -/
theorem walk_internal {nodes : List Node} {i : Nat} {w : Weight} {l r : NodeIdx} {depth : Nat} {p : BitString}
    {table table' : Memory BitString} (h : nodes[i]? = some (.internal w l r))
    (hl : walk depth nodes l.toNat (p ++ [false]) table = .ok table') :
    walk (depth + 1) nodes i p table = walk depth nodes r.toNat (p ++ [true]) table' := by
  simp [walk, nodeRead_ok.mpr h, hl]

/-- Everything a walk that ends can do. -/
theorem walk_cases {nodes : List Node} {i depth : Nat} {p : BitString} {table out : Memory BitString}
    (h : walk depth nodes i p table = .ok out) : ∃ d, depth = d + 1 ∧
      ((∃ sym w, nodes[i]? = some (.leaf sym w) ∧ out = record sym p table)
        ∨ ∃ w l r table', nodes[i]? = some (.internal w l r)
          ∧ walk d nodes l.toNat (p ++ [false]) table = .ok table' ∧ walk d nodes r.toNat (p ++ [true]) table' = .ok out) := by
  cases depth with
  | zero => simp [walk] at h
  | succ d =>
    refine ⟨d, rfl, ?_⟩
    unfold walk at h
    split at h
    · cases h
    · next sym w hn => exact .inl ⟨sym, w, nodeRead_ok.mp hn, by injection h with h; exact h.symm⟩
    · next w l r hn =>
      split at h
      · cases h
      · next table' hl => exact .inr ⟨w, l, r, table', nodeRead_ok.mp hn, hl, h⟩

/-- A walk keeps the canonical form. -/
theorem codeWf_walk {nodes : List Node} {i depth : Nat} {p : BitString} {table out : Memory BitString}
    (h : walk depth nodes i p table = .ok out) (hw : codeWf table = true) : codeWf out = true := by
  induction depth generalizing i p table out with
  | zero => simp [walk] at h
  | succ d ih =>
    obtain ⟨d', hd, ⟨sym, w, -, rfl⟩ | ⟨w, l, r, table', -, hl, hr⟩⟩ := walk_cases h
    · exact codeWf_record sym p table hw
    · obtain rfl : d = d' := by omega
      exact ih hr (ih hl hw)

/-- A walk never changes an entry that is already recorded (R132). -/
theorem codeRead_walk {nodes : List Node} {i depth : Nat} {p q : BitString} {table out : Memory BitString} {x : Nat}
    (h : walk depth nodes i p table = .ok out) (hx : codeRead table x = some q) : codeRead out x = some q := by
  induction depth generalizing i p table out with
  | zero => simp [walk] at h
  | succ d ih =>
    obtain ⟨d', hd, ⟨sym, w, -, rfl⟩ | ⟨w, l, r, table', -, hl, hr⟩⟩ := walk_cases h
    · rw [codeRead_record]; split <;> simp [hx]
    · obtain rfl : d = d' := by omega
      exact ih hr (ih hl hx)

end Sys2Proof.Machine
end

