-- ==== Sys2Proof/Laws/Decoder.lean ====
section
/-! SUPPORT. The bit decoder's one operation (spec/44_bit_decoder.md R161): everything one bit can do, and a run of bits in two
parts (R164, R168). -/

namespace Sys2Proof.Machine

/-- Everything one bit can do. -/
theorem decodeBit_cases {a a' : Arch} {b : Bool} {out : List Symbol} (h : decodeBit a b = .ok (a', out)) :
    ∃ w l r, a.node[a.dcur.toNat]? = some (.internal w l r)
      ∧ ((∃ sym w', a.node[(if b then r else l).toNat]? = some (.leaf sym w') ∧ out = [sym]
          ∧ a' = { a with dbits := a.dbits + 1#48, dsym := a.dsym + 1#48, dcur := a.root })
        ∨ (∃ w' l' r', a.node[(if b then r else l).toNat]? = some (.internal w' l' r') ∧ out = []
          ∧ a' = { a with dbits := a.dbits + 1#48, dcur := if b then r else l })) := by
  unfold decodeBit at h
  split at h
  · cases h
  · next n hn =>
    cases n with
    | leaf sym w => simp [childOf] at h
    | internal w l r =>
      refine ⟨w, l, r, nodeRead_ok.mp hn, ?_⟩
      simp only [childOf] at h
      split at h
      · cases h
      · next sym w' hc =>
        simp only [Except.ok.injEq, Prod.mk.injEq] at h
        exact .inl ⟨sym, w', nodeRead_ok.mp hc, h.2.symm, h.1.symm⟩
      · next w' l' r' hc =>
        simp only [Except.ok.injEq, Prod.mk.injEq] at h
        exact .inr ⟨w', l', r', nodeRead_ok.mp hc, h.2.symm, h.1.symm⟩

/-- One bit from an internal node to a leaf. -/
theorem decodeBit_leaf {a : Arch} {b : Bool} {w w' : Weight} {l r : NodeIdx} {sym : Symbol}
    (h : a.node[a.dcur.toNat]? = some (.internal w l r))
    (hc : a.node[(if b then r else l).toNat]? = some (.leaf sym w')) :
    decodeBit a b = .ok ({ a with dbits := a.dbits + 1#48, dsym := a.dsym + 1#48, dcur := a.root }, [sym]) := by
  simp [decodeBit, nodeRead_ok.mpr h, childOf, nodeRead_ok.mpr hc]

/-- One bit from an internal node to an internal node. -/
theorem decodeBit_internal {a : Arch} {b : Bool} {w w' : Weight} {l r l' r' : NodeIdx}
    (h : a.node[a.dcur.toNat]? = some (.internal w l r))
    (hc : a.node[(if b then r else l).toNat]? = some (.internal w' l' r')) :
    decodeBit a b = .ok ({ a with dbits := a.dbits + 1#48, dcur := if b then r else l }, []) := by
  simp [decodeBit, nodeRead_ok.mpr h, childOf, nodeRead_ok.mpr hc]

/-- A run of bits in two parts. -/
theorem decodeBits_append {a a' a'' : Arch} {p q : List Bool} {out out' : List Symbol}
    (hp : decodeBits a p = .ok (a', out)) (hq : decodeBits a' q = .ok (a'', out')) :
    decodeBits a (p ++ q) = .ok (a'', out ++ out') := by
  induction p generalizing a out with
  | nil =>
    simp only [decodeBits, Except.ok.injEq, Prod.mk.injEq] at hp
    obtain ⟨rfl, rfl⟩ := hp
    simpa using hq
  | cons b rest ih =>
    unfold decodeBits at hp
    split at hp
    · cases hp
    · next a1 o1 h1 =>
      split at hp
      · cases hp
      · next a2 o2 h2 =>
        simp only [Except.ok.injEq, Prod.mk.injEq] at hp
        obtain ⟨rfl, rfl⟩ := hp
        simp [decodeBits, h1, ih h2]

/-- A run of bits writes `DCUR`, `DBITS` and `DSYM` only. -/
theorem decodeBits_frame {a a' : Arch} {p : List Bool} {out : List Symbol} (h : decodeBits a p = .ok (a', out)) :
    a' = { a with dcur := a'.dcur, dsym := a'.dsym, dbits := a.dbits + BitVec.ofNat 48 p.length } := by
  induction p generalizing a out with
  | nil =>
    simp only [decodeBits, Except.ok.injEq, Prod.mk.injEq] at h
    obtain ⟨rfl, -⟩ := h
    simp
  | cons b rest ih =>
    unfold decodeBits at h
    split at h
    · cases h
    · next a1 o1 h1 =>
      split at h
      · cases h
      · next a2 o2 h2 =>
        simp only [Except.ok.injEq, Prod.mk.injEq] at h
        obtain ⟨rfl, -⟩ := h
        have hr := ih h2
        have e : a.dbits + BitVec.ofNat 48 (b :: rest).length = a.dbits + 1#48 + BitVec.ofNat 48 rest.length := by
          rw [BitVec.add_assoc, BitVec.add_comm 1#48, ← BitVec.ofNat_add]; rfl
        rw [e]
        obtain ⟨w, l, r, -, ⟨sym, w', -, -, ha⟩ | ⟨w', l', r', -, -, ha⟩⟩ := decodeBit_cases h1 <;>
          (subst ha; rw [hr])

end Sys2Proof.Machine
end

