-- ==== Sys2Proof/Laws/Encoder.lean ====
section
/-! SUPPORT. The bit encoder's one operation (spec/43_bit_encoder.md R141): what pushing bits changes, and what it leaves. -/

namespace Sys2Proof.Machine

@[simp] theorem pushBits_nil (a : Arch) : pushBits [] a = (a, []) := rfl

/-- The eighth bit sends the byte out. -/
theorem pushBit_full {a : Arch} (out : List Byte) (b : Bool) (h : a.nacc = 7#3) :
    pushBit (a, out) b = ({ a with acc := 0#8, nacc := 0#3, ebits := a.ebits + 1#48 },
      out ++ [a.acc ||| ((BitVec.ofBool b).setWidth 8 <<< (7 - a.nacc.toNat))]) := by
  simp [pushBit, h]

/-- Before that a bit only waits. -/
theorem pushBit_room {a : Arch} (out : List Byte) (b : Bool) (h : a.nacc ≠ 7#3) :
    pushBit (a, out) b = ({ a with
      acc := a.acc ||| ((BitVec.ofBool b).setWidth 8 <<< (7 - a.nacc.toNat))
      nacc := a.nacc + 1#3
      ebits := a.ebits + 1#48 }, out) := by
  simp [pushBit, h]

/-- The bytes emitted so far only gain at the end. -/
theorem foldl_pushBit_bytes (p : BitString) (a : Arch) (out : List Byte) :
    p.foldl pushBit (a, out) = ((pushBits p a).1, out ++ (pushBits p a).2) := by
  unfold pushBits
  induction p generalizing a out with
  | nil => simp
  | cons b rest ih =>
    simp only [List.foldl_cons]
    have h1 : ∀ o, pushBit (a, o) b = ((pushBit (a, []) b).1, o ++ (pushBit (a, []) b).2) := by
      intro o
      by_cases h : a.nacc = 7#3
      · rw [pushBit_full _ _ h, pushBit_full _ _ h]; simp
      · rw [pushBit_room _ _ h, pushBit_room _ _ h]; simp
    rw [h1 out, h1 []]
    simp only [List.nil_append]
    rw [ih, ih (pushBit (a, []) b).1 (pushBit (a, []) b).2]
    simp

/-- First bit first (R142). -/
theorem pushBits_cons (b : Bool) (rest : BitString) (a : Arch) :
    pushBits (b :: rest) a =
      ((pushBits rest (pushBit (a, []) b).1).1, (pushBit (a, []) b).2 ++ (pushBits rest (pushBit (a, []) b).1).2) := by
  rw [pushBits, List.foldl_cons, foldl_pushBit_bytes]

/-- Pushing a sequence in two parts. -/
theorem pushBits_append (p q : BitString) (a : Arch) :
    pushBits (p ++ q) a = ((pushBits q (pushBits p a).1).1, (pushBits p a).2 ++ (pushBits q (pushBits p a).1).2) := by
  rw [pushBits, List.foldl_append]
  exact foldl_pushBit_bytes q (pushBits p a).1 (pushBits p a).2

/-- Pushing bits writes `ACC`, `NACC` and `EBITS` only. -/
theorem pushBits_frame (p : BitString) (a : Arch) :
    (pushBits p a).1 = { a with
      acc := (pushBits p a).1.acc, nacc := (pushBits p a).1.nacc, ebits := a.ebits + BitVec.ofNat 48 p.length } := by
  induction p generalizing a with
  | nil => simp
  | cons b rest ih =>
    rw [pushBits_cons]
    simp only
    rw [ih]
    have hb : (pushBit (a, []) b).1 = { a with
        acc := (pushBit (a, []) b).1.acc, nacc := (pushBit (a, []) b).1.nacc, ebits := a.ebits + 1#48 } := by
      by_cases h : a.nacc = 7#3
      · rw [pushBit_full _ _ h]
      · rw [pushBit_room _ _ h]
    rw [hb]
    simp only [List.length_cons, Arch.mk.injEq, true_and, and_true]
    rw [BitVec.add_assoc, BitVec.add_comm 1#48, ← BitVec.ofNat_add]

/-- How far `ACC` is filled after pushing, and how many bytes were sent. -/
theorem pushBits_counts (p : BitString) (a : Arch) :
    (pushBits p a).1.nacc.toNat = (a.nacc.toNat + p.length) % 8
      ∧ (pushBits p a).2.length = (a.nacc.toNat + p.length) / 8 := by
  induction p generalizing a with
  | nil => have := a.nacc.isLt; simp; omega
  | cons b rest ih =>
    rw [pushBits_cons]
    obtain ⟨h1, h2⟩ := ih (pushBit (a, []) b).1
    simp only [List.length_append, List.length_cons, h1, h2]
    have hn := a.nacc.isLt
    by_cases h : a.nacc = 7#3
    · have ht : a.nacc.toNat = 7 := by rw [h]; rfl
      rw [pushBit_full _ _ h]
      simp only [List.nil_append, List.length_cons, List.length_nil, BitVec.toNat_ofNat]
      omega
    · have ht : a.nacc.toNat ≠ 7 := fun h' => h (BitVec.eq_of_toNat_eq (by simpa using h'))
      rw [pushBit_room _ _ h]
      simp only [List.length_nil, BitVec.toNat_add, BitVec.toNat_ofNat]
      omega

end Sys2Proof.Machine
end

