-- ==== Sys2Proof/Laws/Exec.lean ====
section
/-! SUPPORT. Every command runs in the shared frame (spec/60_exceptions.md R223): `exec` said once for all of them. Proofs about
a command, or about every command, start here. -/

namespace Sys2Proof.Machine

/-- The pseudocode of a command, without its guards. -/
def commandBody (i : Instr) (a : Arch) : Except Fault Reply :=
  match i with
  | .nop => .ok (respond a 0#56)
  | .clr => .ok (respond Arch.reset 0#56)
  | .ldf sym count => .ok (respond { a with freq := freqWrite a.freq sym.toNat count } 0#56)
  | .build => .ok (respond (writeTree (buildTree a.freq).1 (buildTree a.freq).2 a) 0#56)
  | .derive =>
    match deriveTable a.node a.root a.tstate with
    | .error f => .error f
    | .ok table => .ok (respond { a with code := table, cvalid := true } 0#56)
  | .enc sym => .ok (encodeSymbol sym a)
  | .flush => .ok (flushByte a)
  | .erst => .ok (respond { a with acc := 0#8, nacc := 0#3, ebits := 0#48, esym := 0#48 } 0#56)
  | .drst => .ok (respond { a with dcur := a.root, dbits := 0#48, dsym := 0#48, frame := false } 0#56)
  | .dbit bit => decodeReply [bit] a
  | .dbyte byte nbits => decodeReply (streamBits byte nbits) a
  | .dend => .ok (endOfStream a)
  | .rdf sym => .ok (respond a ((freqRead a.freq sym.toNat).setWidth 56))
  | .rdnl idx => nodeReply idx nodeLinks a
  | .rdnw idx => nodeReply idx (fun n => n.weight.setWidth 56) a
  | .rdc sym k => .ok (respond a (codeReadout (codeRead a.code sym.toNat) k))
  | .rds n =>
    match csr a n.toNat with
    | some data => .ok (respond a data)
    | none => .ok (raise .range (encode (.rds n)) a)

/-- Every command is its guards and then its pseudocode. -/
theorem exec_eq (i : Instr) (s : State) : exec i s = accept i (commandBody i) s := by
  cases i <;> rfl

/-- No guard fails and the pseudocode answers `r`. -/
theorem exec_ok {i : Instr} {s : State} {r : Reply} (h : firstError i s.arch = none) (hr : commandBody i s.arch = .ok r) :
    exec i s = .next (s.deliver r) := by
  rw [exec_eq, accept_ok h hr]

/-- No guard fails and the pseudocode answers `OK` with nothing emitted. -/
theorem exec_respond {i : Instr} {s : State} {a : Arch} {d : RspData} (h : firstError i s.arch = none)
    (hr : commandBody i s.arch = .ok (respond a d)) : exec i s = .next ⟨a, s.ports.answered 0x00#8 d [] []⟩ := by
  rw [exec_ok h hr]; rfl

/-- The same with no data. -/
theorem exec_done {i : Instr} {s : State} {a : Arch} (h : firstError i s.arch = none)
    (hr : commandBody i s.arch = .ok (respond a 0#56)) : exec i s = .next (s.done a) := exec_respond h hr

/-- A guard fails. -/
theorem exec_refused {i : Instr} {s : State} {e : Status} (h : firstError i s.arch = some e) :
    exec i s = .next (s.answerRefused (encode i) e.code) := by
  rw [exec_eq, accept_refused h]

/-- Everything a command can do when it answers a next state. -/
theorem exec_cases {i : Instr} {s t : State} (h : exec i s = .next t) :
    (∃ e, firstError i s.arch = some e ∧ t = s.answerRefused (encode i) e.code)
      ∨ (∃ r, firstError i s.arch = none ∧ commandBody i s.arch = .ok r ∧ t = s.deliver r) :=
  accept_cases (exec_eq i s ▸ h)

/-- The model refuses no command. -/
theorem exec_not_refused {i : Instr} {s : State} {r : Refusal} : exec i s ≠ .refused r := by
  rw [exec_eq]; exact accept_not_refused

end Sys2Proof.Machine
end

