-- ==== Sys2Proof/Laws/PerInstr.lean ====
section
/-! SUPPORT. The family `EncodeFields`, one lemma per constructor: the three fields of a command's word (spec/30_encoding.md R80)
are its opcode and its two operand fields. -/

namespace Sys2Proof.Laws

theorem opField_append (o : BitVec 8) (a : BitVec 8) (d : BitVec 32) : opField (o ++ a ++ d) = o := by
  ext i hi
  have h1 : ¬ 40 + i < 32 := by omega
  have h2 : ¬ 40 + i - 32 < 8 := by omega
  have h3 : 40 + i - 32 - 8 = i := by omega
  simp only [opField, BitVec.getElem_extractLsb', BitVec.getLsbD_append, h1, h2, h3, if_false,
    BitVec.getLsbD_eq_getElem hi]

theorem aField_append (o : BitVec 8) (a : BitVec 8) (d : BitVec 32) : aField (o ++ a ++ d) = a := by
  ext i hi
  have h1 : ¬ 32 + i < 32 := by omega
  have h2 : 32 + i - 32 = i := by omega
  simp only [aField, BitVec.getElem_extractLsb', BitVec.getLsbD_append, h1, h2, hi, if_false,
    if_true, BitVec.getLsbD_eq_getElem hi]

theorem dField_append (o : BitVec 8) (a : BitVec 8) (d : BitVec 32) : dField (o ++ a ++ d) = d :=
  BitVec.extractLsb'_append_eq_right

/-- The three fields of the word that encodes a command. -/
def EncodeFields.Statement (i : Instr) : Prop :=
  opField (encode i) = i.opcode ∧ aField (encode i) = i.aOperand ∧ dField (encode i) = i.dOperand

theorem encodeFields (i : Instr) : EncodeFields.Statement i :=
  ⟨opField_append _ _ _, aField_append _ _ _, dField_append _ _ _⟩

theorem EncodeFields.nop : EncodeFields.Statement .nop := encodeFields .nop
theorem EncodeFields.clr : EncodeFields.Statement .clr := encodeFields .clr
theorem EncodeFields.ldf (sym : Symbol) (count : Count) : EncodeFields.Statement (.ldf sym count) := encodeFields (.ldf sym count)
theorem EncodeFields.build : EncodeFields.Statement .build := encodeFields .build
theorem EncodeFields.derive : EncodeFields.Statement .derive := encodeFields .derive
theorem EncodeFields.enc (sym : Symbol) : EncodeFields.Statement (.enc sym) := encodeFields (.enc sym)
theorem EncodeFields.flush : EncodeFields.Statement .flush := encodeFields .flush
theorem EncodeFields.erst : EncodeFields.Statement .erst := encodeFields .erst
theorem EncodeFields.drst : EncodeFields.Statement .drst := encodeFields .drst
theorem EncodeFields.dbit (bit : Bool) : EncodeFields.Statement (.dbit bit) := encodeFields (.dbit bit)
theorem EncodeFields.dbyte (byte : Byte) (nbits : BitVec 4) : EncodeFields.Statement (.dbyte byte nbits) := encodeFields (.dbyte byte nbits)
theorem EncodeFields.dend : EncodeFields.Statement .dend := encodeFields .dend
theorem EncodeFields.rdf (sym : Symbol) : EncodeFields.Statement (.rdf sym) := encodeFields (.rdf sym)
theorem EncodeFields.rdnl (idx : NodeIdx) : EncodeFields.Statement (.rdnl idx) := encodeFields (.rdnl idx)
theorem EncodeFields.rdnw (idx : NodeIdx) : EncodeFields.Statement (.rdnw idx) := encodeFields (.rdnw idx)
theorem EncodeFields.rdc (sym : Symbol) (k : BitVec 3) : EncodeFields.Statement (.rdc sym k) := encodeFields (.rdc sym k)
theorem EncodeFields.rds (n : BitVec 8) : EncodeFields.Statement (.rds n) := encodeFields (.rds n)

end Sys2Proof.Laws
end

