-- ==== Sys2Proof/Laws/Step.lean ====
section
/-! SUPPORT. What one step can do: one case per kind of input event (spec/10_state.md R51, spec/70_reset_and_hazards.md R250). -/

namespace Sys2Proof.Machine

/-- A word that decodes runs its command. -/
theorem runWord_command {w : CmdWord} {i : Instr} (s : State) (h : decode w = .ok i) : runWord w s = exec i s := by
  simp [runWord, h]

/-- A word that does not decode is answered (spec/60_exceptions.md R225). -/
theorem runWord_illegal {w : CmdWord} {e : DecodeError} (s : State) (h : decode w = .error e) :
    runWord w s = .next (s.answerRefused w 0x01#8) := by
  simp only [runWord, h, illegalWord]
  rw [deliver_raise_eq s .illegal w (by decide)]
  rfl

/-- Every step that answers a next state is one of these. -/
theorem step_cases {s t : State} (h : step s = .next t) :
    (s.ports.pending = [] ∧ t = s)
      ∨ (∃ w rest, s.ports.pending = .command w :: rest ∧ runWord w (s.withPending rest) = .next t)
      ∨ (∃ rest, s.ports.pending = .reset :: rest ∧ t = (s.withPending rest).resetEvent)
      ∨ (∃ w k rest done, s.ports.pending = .resetDuring w k :: rest ∧ runWord w (s.withPending rest) = .next done
          ∧ t = cutShort k (s.withPending rest) done) := by
  unfold step takeEvent at h
  split at h
  · next hp => exact .inl ⟨hp, by injection h with h; exact h.symm⟩
  · next w rest hp => exact .inr (.inl ⟨w, rest, hp, h⟩)
  · next rest hp => exact .inr (.inr (.inl ⟨rest, hp, by injection h with h; exact h.symm⟩))
  · next w k rest hp =>
    unfold runWordCutShort at h
    split at h
    · next done hd => exact .inr (.inr (.inr ⟨w, k, rest, done, hp, hd, by injection h with h; exact h.symm⟩))
    · cases h
    · cases h

/-- After a step the architectural state is the one before, the reset state, or what one word makes of it. -/
theorem step_arch {s t : State} (h : step s = .next t) :
    t.arch = s.arch ∨ t.arch = Arch.reset
      ∨ ∃ w rest, s.ports.pending = .command w :: rest ∧ runWord w (s.withPending rest) = .next t := by
  rcases step_cases h with ⟨-, rfl⟩ | ⟨w, rest, hp, hr⟩ | ⟨rest, -, rfl⟩ | ⟨w, k, rest, done, -, -, rfl⟩
  · exact .inl rfl
  · exact .inr (.inr ⟨w, rest, hp, hr⟩)
  · exact .inr (.inl rfl)
  · exact .inr (.inl rfl)

end Sys2Proof.Machine
end

