-- ==== Sys2Proof/Laws/Tree.lean ====
section
/-! SUPPORT. The parts of the tree builder (spec/41_tree_builder.md R111, R112): what `takeLightest` takes and what one turn of
`merge` does. -/

namespace Sys2Proof.Machine

/-- The order of the priorities, in numbers. -/
theorem lighter_iff {x y : Weight × Nat} :
    lighter x y = true ↔ x.1.toNat < y.1.toNat ∨ (x.1.toNat = y.1.toNat ∧ x.2 < y.2) := by
  simp [lighter, BitVec.lt_def, BitVec.toNat_inj]

theorem lighter_false_iff {x y : Weight × Nat} :
    lighter x y = false ↔ y.1.toNat < x.1.toNat ∨ (y.1.toNat = x.1.toNat ∧ y.2 ≤ x.2) := by
  rw [← Bool.not_eq_true, lighter_iff]
  omega

/-- Only from an empty collection is there nothing to take. -/
theorem takeLightest_none {q : List (Weight × Nat)} : takeLightest q = none ↔ q = [] := by
  cases q with
  | nil => simp [takeLightest]
  | cons x rest =>
    simp only [takeLightest, reduceCtorEq, iff_false]
    split
    · simp
    · split <;> simp

/-- Taking out loses nothing and invents nothing. -/
theorem takeLightest_perm {q others : List (Weight × Nat)} {m : Weight × Nat} (h : takeLightest q = some (m, others)) :
    (m :: others).Perm q := by
  induction q generalizing m others with
  | nil => simp [takeLightest] at h
  | cons x rest ih =>
    simp only [takeLightest] at h
    split at h
    · next hn =>
      simp only [Option.some.injEq, Prod.mk.injEq] at h
      rw [takeLightest_none.mp hn, ← h.1, ← h.2]
    · next m' others' hs =>
      have hp := ih hs
      split at h <;> simp only [Option.some.injEq, Prod.mk.injEq] at h <;> rw [← h.1, ← h.2]
      · exact (List.Perm.swap _ _ _).trans (hp.cons x)
      · exact hp.cons x

/-- What is taken is lightest: nothing left is before it. -/
theorem takeLightest_least {q others : List (Weight × Nat)} {m : Weight × Nat} (h : takeLightest q = some (m, others)) :
    ∀ y ∈ others, lighter y m = false := by
  induction q generalizing m others with
  | nil => simp [takeLightest] at h
  | cons x rest ih =>
    simp only [takeLightest] at h
    split at h
    · simp only [Option.some.injEq, Prod.mk.injEq] at h
      simp [← h.2]
    · next m' others' hs =>
      have hl := ih hs
      by_cases hc : lighter m' x = true
      · simp only [hc, if_true, Option.some.injEq, Prod.mk.injEq] at h
        rw [← h.1, ← h.2]
        intro y hy
        rcases List.mem_cons.mp hy with rfl | hy
        · rw [lighter_iff] at hc; rw [lighter_false_iff]; omega
        · exact hl y hy
      · simp only [hc, Bool.false_eq_true, if_false, Option.some.injEq, Prod.mk.injEq] at h
        rw [← h.1, ← h.2]
        have h2 := lighter_false_iff.mp (eq_false_of_ne_true hc)
        intro y hy
        rcases List.mem_cons.mp hy with rfl | hy
        · rw [lighter_false_iff]; exact h2
        · have h1 := lighter_false_iff.mp (hl y hy)
          rw [lighter_false_iff]; omega

/-- One turn of the loop (R112). -/
theorem merge_turn {nodes : List Node} {q q1 q2 : List (Weight × Nat)} {x y : Weight × Nat} (turns : Nat)
    (hx : takeLightest q = some (x, q1)) (hy : takeLightest q1 = some (y, q2)) :
    merge (turns + 1) nodes q =
      merge turns (nodes ++ [.internal (x.1 + y.1) (BitVec.ofNat 9 x.2) (BitVec.ofNat 9 y.2)])
        (q2 ++ [(x.1 + y.1, nodes.length)]) := by
  simp [merge, hx, hy]

/-- The loop ends when at most one tree is left. -/
theorem merge_stop {nodes : List Node} {q : List (Weight × Nat)} (turns : Nat) (h : q.length ≤ 1) :
    merge turns nodes q = nodes := by
  match turns, q with
  | 0, _ => rfl
  | _ + 1, [] => rfl
  | _ + 1, [x] => rfl
  | _ + 1, _ :: _ :: _ => simp at h

/-- With enough turns every merge but the last leaves one tree, and each adds one node. -/
theorem merge_length (turns : Nat) (nodes : List Node) (q : List (Weight × Nat)) (h : q.length ≤ turns) :
    (merge turns nodes q).length = nodes.length + (q.length - 1) := by
  induction turns generalizing nodes q with
  | zero => rw [merge_stop 0 (by omega)]; omega
  | succ turns ih =>
    by_cases h1 : q.length ≤ 1
    · rw [merge_stop _ h1]; omega
    · cases hx : takeLightest q with
      | none => rw [takeLightest_none.mp hx] at h1; simp at h1
      | some r =>
        obtain ⟨x, q1⟩ := r
        have hq := (takeLightest_perm hx).length_eq
        cases hy : takeLightest q1 with
        | none => rw [takeLightest_none.mp hy] at hq; simp only [List.length_cons, List.length_nil] at hq; omega
        | some r =>
          obtain ⟨y, q2⟩ := r
          have hq1 := (takeLightest_perm hy).length_eq
          simp only [List.length_cons] at hq hq1
          rw [merge_turn turns hx hy, ih _ _ (by simp; omega)]
          simp; omega

/-- The nodes already made are never written again. -/
theorem merge_prefix (turns : Nat) (nodes : List Node) (q : List (Weight × Nat)) : nodes <+: merge turns nodes q := by
  induction turns generalizing nodes q with
  | zero => exact List.prefix_rfl
  | succ turns ih =>
    cases hx : takeLightest q with
    | none => simp [merge, hx]
    | some r =>
      obtain ⟨x, q1⟩ := r
      cases hy : takeLightest q1 with
      | none => simp [merge, hx, hy]
      | some r =>
        obtain ⟨y, q2⟩ := r
        rw [merge_turn turns hx hy]
        exact (List.prefix_append _ _).trans (ih _ _)

/-- One leaf per key (R111, spec/10_state.md R23). -/
theorem leaves_length (freq : Memory Count) : (leaves freq).length = keyCount freq := by
  unfold leaves keyCount
  show (List.filterMap _ (List.range 256)).length = _
  induction List.range 256 with
  | nil => rfl
  | cons s rest ih =>
    by_cases h : freqRead freq s = 0#32
    · simp [h, ih]
    · simp [h, ih]

/-- A leaf of step 1 is a key with its count. -/
theorem mem_leaves {freq : Memory Count} {n : Node} :
    n ∈ leaves freq ↔ ∃ s, s < 256 ∧ freqRead freq s ≠ 0#32
      ∧ n = .leaf (BitVec.ofNat 8 s) ((freqRead freq s).setWidth 40) := by
  simp only [leaves, List.mem_filterMap, List.mem_range, Config.nsym]
  constructor
  · rintro ⟨s, hs, h⟩
    split at h
    · cases h
    · next hz => exact ⟨s, hs, hz, by injection h with h; exact h.symm⟩
  · rintro ⟨s, hs, hz, rfl⟩
    exact ⟨s, hs, by rw [if_neg hz]⟩

end Sys2Proof.Machine
end

