-- ==== Sys2Proof/Tests/Slice0.lean ====
section
/-! SUPPORT. Tests with expected values from spec/ (the words of spec/96_derived_vectors.md section V-E and of the programs P1,
P2, P4 of spec/95_test_vectors.md, the tree of spec/41_tree_builder.md R123, the tables of spec/42_code_table_deriver.md R134),
and for every statement with hypotheses a witness that they can be met. -/

namespace Sys2Proof.Tests.Slice0

open Sys2Proof Sys2Proof.Machine

/-! ### Ill-formed words are refused (V-E2 to V-E36) -/

/-- `NOP` with a bit of `d` (V-E2). -/
theorem test_wf_nop_d : CmdWord.wellFormed 0x000000000001#48 = false := by decide
/-- `NOP` with bits of `a` (V-E3). -/
theorem test_wf_nop_a : CmdWord.wellFormed 0x00FF00000000#48 = false := by decide
/-- `BUILD` with `d = 1` (V-E8). -/
theorem test_wf_build : CmdWord.wellFormed 0x030000000001#48 = false := by decide
/-- `DERIVE` with `a = 1` (V-E9). -/
theorem test_wf_derive : CmdWord.wellFormed 0x040100000000#48 = false := by decide
/-- `ENC` with a bit of `d` (V-E11). -/
theorem test_wf_enc : CmdWord.wellFormed 0x056100000001#48 = false := by decide
/-- `DBIT` with `a[1]`, `a[7:0]` (V-E14, V-E15). -/
theorem test_wf_dbit : CmdWord.wellFormed 0x090200000000#48 = false ∧ CmdWord.wellFormed 0x09FF00000000#48 = false := by decide
/-- `DBYTE` with `d[4]` (V-E18). -/
theorem test_wf_dbyte : CmdWord.wellFormed 0x0A0000000010#48 = false := by decide
/-- `RDNL` with `d[9]`, with `a[0]` (V-E24, V-E25). -/
theorem test_wf_rdnl : CmdWord.wellFormed 0x110000000200#48 = false ∧ CmdWord.wellFormed 0x110100000000#48 = false := by decide
/-- `RDC` with `d[3]` (V-E28). -/
theorem test_wf_rdc : CmdWord.wellFormed 0x136100000008#48 = false := by decide
/-- `RDS` with `d[0]` (V-E33). -/
theorem test_wf_rds : CmdWord.wellFormed 0x140000000001#48 = false := by decide
/-- Unassigned opcodes (V-E20, V-E21, V-E34 to V-E36). -/
theorem test_wf_unassigned :
    CmdWord.wellFormed 0x0C0000000000#48 = false ∧ CmdWord.wellFormed 0x0F0000000000#48 = false
    ∧ CmdWord.wellFormed 0x150000000000#48 = false ∧ CmdWord.wellFormed 0xFF0000000000#48 = false
    ∧ CmdWord.wellFormed 0xFFFFFFFFFFFF#48 = false := by decide
/-- `LDF` has no reserved bit (V-E6). -/
theorem test_wf_ldf : CmdWord.wellFormed 0x02FFFFFFFFFF#48 = true := by decide

/-! ### Decoding: a word of every constructor, written out from R80 to R82 -/

def decodesTo (w : CmdWord) (i : Instr) : Bool := (decode w).toOption == some i

theorem test_decode_nop : decodesTo 0x000000000000#48 .nop = true := by decide
theorem test_decode_clr : decodesTo 0x010000000000#48 .clr = true := by decide
theorem test_decode_ldf :
    decodesTo 0x026100000005#48 (.ldf 0x61#8 5#32) = true
    ∧ decodesTo 0x02FFFFFFFFFF#48 (.ldf 0xFF#8 0xFFFFFFFF#32) = true := by decide
theorem test_decode_build : decodesTo 0x030000000000#48 .build = true := by decide
theorem test_decode_derive : decodesTo 0x040000000000#48 .derive = true := by decide
theorem test_decode_enc : decodesTo 0x056100000000#48 (.enc 0x61#8) = true := by decide
theorem test_decode_flush : decodesTo 0x060000000000#48 .flush = true := by decide
theorem test_decode_erst : decodesTo 0x070000000000#48 .erst = true := by decide
theorem test_decode_drst : decodesTo 0x080000000000#48 .drst = true := by decide
theorem test_decode_dbit :
    decodesTo 0x090000000000#48 (.dbit false) = true ∧ decodesTo 0x090100000000#48 (.dbit true) = true := by decide
theorem test_decode_dbyte :
    decodesTo 0x0A6E00000008#48 (.dbyte 0x6E#8 8#4) = true
    ∧ decodesTo 0x0AFF0000000F#48 (.dbyte 0xFF#8 15#4) = true := by decide
theorem test_decode_dend : decodesTo 0x0B0000000000#48 .dend = true := by decide
theorem test_decode_rdf : decodesTo 0x106100000000#48 (.rdf 0x61#8) = true := by decide
theorem test_decode_rdnl :
    decodesTo 0x110000000008#48 (.rdnl 8#9) = true ∧ decodesTo 0x1100000001FF#48 (.rdnl 511#9) = true := by decide
theorem test_decode_rdnw : decodesTo 0x120000000002#48 (.rdnw 2#9) = true := by decide
theorem test_decode_rdc : decodesTo 0x13FF00000007#48 (.rdc 0xFF#8 7#3) = true := by decide
theorem test_decode_rds :
    decodesTo 0x140C00000000#48 (.rds 12#8) = true ∧ decodesTo 0x14FF00000000#48 (.rds 255#8) = true := by decide
/-- The two reasons of R85. -/
theorem test_decode_refused :
    decode 0x150000000000#48 = .error .unassignedOpcode ∧ decode 0x136100000008#48 = .error .reservedBitSet := ⟨rfl, rfl⟩

/-! ### Small states -/

/-- The map of "abracadabra" (X1). -/
def abraMap : Memory Count := [(0x61, 5#32), (0x62, 2#32), (0x63, 1#32), (0x64, 1#32), (0x72, 2#32)]

/-- After `BUILD` of that map (R123; P1, step 6). -/
def abraBuilt : Arch :=
  { Arch.reset with
    freq := abraMap
    node := [.leaf 0x61#8 5#40, .leaf 0x62#8 2#40, .leaf 0x63#8 1#40, .leaf 0x64#8 1#40, .leaf 0x72#8 2#40,
      .internal 2#40 2#9 3#9, .internal 4#40 1#9 4#9, .internal 6#40 5#9 6#9, .internal 11#40 0#9 7#9]
    tstate := .valid, nleaf := 5#9, nnodes := 9#9, root := 8#9, dcur := 8#9 }

/-- The table of that tree (R134 (a)). -/
def abraCode : Memory BitString :=
  [(0x61, [false]), (0x62, [true, true, false]), (0x63, [true, false, false]), (0x64, [true, false, true]),
    (0x72, [true, true, true])]

/-- After `DERIVE` (P1, step 11). -/
def abra : Arch := { abraBuilt with code := abraCode, cvalid := true }

/-- The map {a:2, b:1} (P4), its tree and its table. -/
def pairMap : Memory Count := [(0x61, 2#32), (0x62, 1#32)]

def pairBuilt : Arch :=
  { Arch.reset with
    freq := pairMap
    node := [.leaf 0x61#8 2#40, .leaf 0x62#8 1#40, .internal 3#40 1#9 0#9]
    tstate := .valid, nleaf := 2#9, nnodes := 3#9, root := 2#9, dcur := 2#9 }

def pair : Arch := { pairBuilt with code := [(0x61, [true]), (0x62, [false])], cvalid := true }

/-- With one bit waiting in the encoder (P4, step 5). -/
def pairWaiting : Arch := { pair with acc := 0x80#8, nacc := 1#3, ebits := 1#48, esym := 1#48 }

/-- In `FAULT` mode (P4, step 6). -/
def pairFault : Arch := { pairWaiting with mode := .fault, ecause := 0x05#8, ecmd := 0x057A00000000#48 }

/-- The map {x:1} (P2), its tree and its table. -/
def loneMap : Memory Count := [(0x78, 1#32)]

def lone : Arch :=
  { Arch.reset with
    freq := loneMap
    node := [.leaf 0x78#8 1#40, .leaf 0x78#8 1#40, .internal 2#40 0#9 1#9]
    code := [(0x78, [false])]
    tstate := .valid, cvalid := true, nleaf := 1#9, nnodes := 3#9, root := 2#9, dcur := 2#9 }

/-- After `BUILD` and `DERIVE` of the empty map (P3). -/
def emptyDerived : Arch := { Arch.reset with tstate := .empty, cvalid := true }

/-- An architectural state with nothing on the ports. -/
def st (a : Arch) : State := ⟨a, Ports.idle⟩

/-- The next state, if there is one. -/
def after : Host.Outcome State Fault Refusal → Option State
  | .next t => some t
  | .fault _ => none
  | .refused _ => none

/-- The architectural state and the response word after a command. -/
def seen (i : Instr) (a : Arch) : Option (Arch × List RspWord) := (after (exec i (st a))).map fun t => (t.arch, t.ports.rsp)

/-! ### One step per instruction -/

/-- P4, step 22. -/
theorem test_nop : seen .nop pairFault = some (pairFault, [0#64]) := by decide
/-- P4, step 23. -/
theorem test_clr : seen .clr pairFault = some (Arch.reset, [0#64]) := by decide
/-- A count replaces the one before (R103). -/
theorem test_ldf :
    seen (.ldf 0x61#8 7#32) { Arch.reset with freq := pairMap } =
      some ({ Arch.reset with freq := [(0x61, 7#32), (0x62, 1#32)] }, [0#64]) := by decide
/-- A count of 0 takes a symbol out of the map (R103); V-F5: the map is frozen after `BUILD`. -/
theorem test_ldf_zero :
    seen (.ldf 0x61#8 0#32) { Arch.reset with freq := pairMap } =
      some ({ Arch.reset with freq := [(0x62, 1#32)] }, [0#64])
    ∧ seen (.ldf 0x61#8 1#32) pair =
      some ({ pair with ecause := 0x02#8, ecmd := 0x026100000001#48 }, [0x0200000000000000#64]) := by decide
/-- P4, step 3. -/
theorem test_build : seen .build { Arch.reset with freq := pairMap } = some (pairBuilt, [0#64]) := by decide +kernel
/-- P3: the empty map. -/
theorem test_build_empty : seen .build Arch.reset = some ({ Arch.reset with tstate := .empty }, [0#64]) := by decide +kernel
/-- P1, step 11 (R134 (a)). -/
theorem test_derive : seen .derive abraBuilt = some (abra, [0#64]) := by decide +kernel
/-- P2: the first visited leaf of the one symbol wins. -/
theorem test_derive_lone : seen .derive { lone with code := [], cvalid := false } = some (lone, [0#64]) := by decide +kernel
/-- P4, steps 5 and 6. -/
theorem test_enc :
    seen (.enc 0x61#8) pair = some (pairWaiting, [0#64])
    ∧ seen (.enc 0x7A#8) pairWaiting = some (pairFault, [0x0500000000000000#64]) := by decide
/-- P1, step 18: the eighth bit sends the byte. -/
theorem test_enc_byte :
    (after (exec (.enc 0x61#8) (st { abra with acc := 0x6E#8, nacc := 7#3, ebits := 7#48, esym := 3#48 }))).map
        (fun t => (t.ports.ob, t.arch.acc, t.arch.nacc, t.arch.ebits, t.arch.esym)) =
      some ([0x6E#8], 0#8, 0#3, 8#48, 4#48) := by decide
/-- R143: the waiting bit goes out with seven pad bits, and `EBITS` does not count them. -/
theorem test_flush :
    (after (exec .flush (st pairWaiting))).map (fun t => (t.ports.ob, t.arch)) =
      some ([0x80#8], { pair with ebits := 1#48, esym := 1#48 }) := by decide
/-- R143: with no bit waiting nothing is emitted. -/
theorem test_flush_idle : (after (exec .flush (st pair))).map (fun t => (t.ports.ob, t.arch)) = some ([], pair) := by decide
/-- R144. -/
theorem test_erst : seen .erst pairWaiting = some (pair, [0#64]) := by decide
/-- R162: the cursor returns to `ROOT`, `FRAME` and the counters are cleared. -/
theorem test_drst :
    seen .drst { abra with dcur := 7#9, dbits := 13#48, dsym := 7#48, frame := true } = some (abra, [0#64]) := by decide
/-- R161: from the root of the tree of R123 a 1 leads to node 7, no symbol. -/
theorem test_dbit_right : seen (.dbit true) abraBuilt =
    some ({ abraBuilt with dcur := 7#9, dbits := 1#48 }, [0#64]) := by decide
/-- R161: a 0 leads to the leaf of `a`, and the cursor returns to the root. -/
theorem test_dbit_left :
    (after (exec (.dbit false) (st abraBuilt))).map (fun t => (t.ports.os, t.arch)) =
      some ([0x61#8], { abraBuilt with dbits := 1#48, dsym := 1#48 }) := by decide
/-- P1, step 29. -/
theorem test_dbyte :
    (after (exec (.dbyte 0x6E#8 8#4) (st abra))).map (fun t => (t.ports.os, t.arch.dcur, t.arch.dbits, t.arch.dsym)) =
      some ([0x61#8, 0x62#8, 0x72#8, 0x61#8], 8#9, 8#48, 4#48) := by decide
/-- P1, step 31: only the first seven bits are looked at. -/
theorem test_dbyte_seven :
    (after (exec (.dbyte 0xDC#8 7#4) (st abra))).map (fun t => (t.ports.os, t.arch.dcur, t.arch.dbits)) =
      some ([0x62#8, 0x72#8, 0x61#8], 8#9, 7#48) := by decide
/-- R165. -/
theorem test_dend : seen .dend abra = some (abra, [0#64]) := by decide
/-- R165 away from the root. -/
theorem test_dend_frame :
    seen .dend { abra with dcur := 7#9, dbits := 1#48 } =
      some ({ abra with dcur := 7#9, dbits := 1#48, frame := true, ecause := 0x04#8, ecmd := 0x0B0000000000#48 },
        [0x0400000000000000#64]) := by decide
/-- P4, step 16. -/
theorem test_rdf : seen (.rdf 0x61#8) pairFault = some (pairFault, [0x0000000000000002#64]) := by decide
/-- P2, steps 6 and 8. -/
theorem test_rdnl :
    seen (.rdnl 0#9) lone = some (lone, [0x00000000000000F1#64])
    ∧ seen (.rdnl 2#9) lone = some (lone, [0x0000000000040000#64]) := by decide
/-- P4, steps 17 and 20. -/
theorem test_rdnl_fault :
    seen (.rdnl 2#9) pairFault = some (pairFault, [0x0000000000000200#64])
    ∧ seen (.rdnl 3#9) pairFault = some (pairFault, [0x0300000000000000#64]) := by decide
/-- P1, step 10. -/
theorem test_rdnw : seen (.rdnw 8#9) abra = some (abra, [0x000000000000000B#64]) := by decide
/-- P1, steps 13 and 14. -/
theorem test_rdc :
    seen (.rdc 0x61#8 0#3) abra = some (abra, [0x0000000100000000#64])
    ∧ seen (.rdc 0x63#8 0#3) abra = some (abra, [0x0000000380000000#64]) := by decide +kernel
/-- R184: an absent entry reads 0; the next chunk of a short word is empty. -/
theorem test_rdc_rest :
    seen (.rdc 0x7A#8 0#3) abra = some (abra, [0#64])
    ∧ seen (.rdc 0x63#8 1#3) abra = some (abra, [0x0000000300000000#64]) := by decide +kernel
/-- P4, steps 7 and 15. -/
theorem test_rds :
    seen (.rds 0#8) pairFault = some (pairFault, [0x000000000000002E#64])
    ∧ seen (.rds 7#8) pairFault = some (pairFault, [0x0000000000000180#64]) := by decide
/-- P4, step 14; V-E31. -/
theorem test_rds_ends :
    seen (.rds 12#8) pairFault = some (pairFault, [0x0000057A00000000#64])
    ∧ seen (.rds 13#8) Arch.reset =
      some ({ Arch.reset with ecause := 0x03#8, ecmd := 0x140D00000000#48 }, [0x0300000000000000#64]) := by decide
/-- P4, step 12: an illegal word in `FAULT` mode is answered and not recorded. -/
theorem test_illegal :
    (after (step (offerWord 0xFF0000000000#48 (st pairFault)))).map (fun t => (t.arch, t.ports.rsp)) =
      some (pairFault, [0x0100000000000000#64]) := by decide

/-! ### Small states that meet the invariants -/

theorem shape_pair : TreeShape pair.node where
  childrenBelow := by
    rintro (_ | _ | _ | i) w l r h <;> simp_all [pair, pairBuilt]
    obtain ⟨-, rfl, rfl⟩ := h; decide
  rootInternal := ⟨3#40, 1#9, 0#9, rfl⟩
  ownedOnce := by decide
  weightsAdd := by
    rintro (_ | _ | _ | i) w l r h <;> simp_all [pair, pairBuilt]
    obtain ⟨rfl, rfl, rfl⟩ := h; decide
  leafCount := by decide

theorem shape_lone : TreeShape lone.node where
  childrenBelow := by
    rintro (_ | _ | _ | i) w l r h <;> simp_all [lone]
    obtain ⟨-, rfl, rfl⟩ := h; decide
  rootInternal := ⟨2#40, 0#9, 1#9, rfl⟩
  ownedOnce := by decide
  weightsAdd := by
    rintro (_ | _ | _ | i) w l r h <;> simp_all [lone]
    obtain ⟨rfl, rfl, rfl⟩ := h; decide
  leafCount := by decide

/-- `ACC` with nothing waiting, and with the one bit of `pairWaiting`. -/
theorem accClean_zero : ∀ j, j < 8 → (0#8).getLsbD (7 - j) = false := by decide
theorem accClean_one : ∀ j, 1 ≤ j → j < 8 → (0x80#8).getLsbD (7 - j) = false := by
  intro j h1 h2
  have : ∀ j, j < 8 → 1 ≤ j → (0x80#8).getLsbD (7 - j) = false := by decide
  exact this j h2 h1

theorem inv_pair : pair.Inv where
  nodesHeld := by decide
  freqCanonical := by decide
  codeCanonical := by decide
  noneClear := by decide
  emptyClear := nofun
  validCounts := by decide +kernel
  validTree := fun _ => shape_pair
  cursorInternal := fun _ => ⟨by decide, 3#40, 1#9, 0#9, rfl⟩
  codeDerived := fun _ => ⟨by decide, rfl⟩
  accClean := fun j _ h => accClean_zero j h
  waitingNeedsCode := by decide
  faultCause := by decide
  frameNeedsTree := by decide
  decoderIdle := by decide
  encoderIdle := by decide

theorem inv_pairBuilt : pairBuilt.Inv where
  nodesHeld := by decide
  freqCanonical := by decide
  codeCanonical := by decide
  noneClear := by decide
  emptyClear := nofun
  validCounts := by decide +kernel
  validTree := fun _ => shape_pair
  cursorInternal := fun _ => ⟨by decide, 3#40, 1#9, 0#9, rfl⟩
  codeDerived := nofun
  accClean := fun j _ h => accClean_zero j h
  waitingNeedsCode := by decide
  faultCause := by decide
  frameNeedsTree := by decide
  decoderIdle := by decide
  encoderIdle := by decide

theorem inv_pairWaiting : pairWaiting.Inv :=
  { inv_pair with
    accClean := fun j h1 h2 => accClean_one j h1 h2
    waitingNeedsCode := by decide
    faultCause := by decide
    decoderIdle := by decide
    encoderIdle := by decide }

theorem inv_pairFault : pairFault.Inv :=
  { inv_pairWaiting with faultCause := by decide }

theorem inv_lone : lone.Inv where
  nodesHeld := by decide
  freqCanonical := by decide
  codeCanonical := by decide
  noneClear := by decide
  emptyClear := nofun
  validCounts := by decide +kernel
  validTree := fun _ => shape_lone
  cursorInternal := fun _ => ⟨by decide, 2#40, 0#9, 1#9, rfl⟩
  codeDerived := fun _ => ⟨by decide, rfl⟩
  accClean := fun j _ h => accClean_zero j h
  waitingNeedsCode := by decide
  faultCause := by decide
  frameNeedsTree := by decide
  decoderIdle := by decide
  encoderIdle := by decide

theorem inv_emptyDerived : emptyDerived.Inv where
  nodesHeld := by decide
  freqCanonical := by decide
  codeCanonical := by decide
  noneClear := by decide
  emptyClear := fun _ => ⟨fun _ => rfl, by decide⟩
  validCounts := nofun
  validTree := nofun
  cursorInternal := nofun
  codeDerived := fun _ => ⟨by decide, rfl⟩
  accClean := fun j _ h => accClean_zero j h
  waitingNeedsCode := by decide
  faultCause := by decide
  frameNeedsTree := by decide
  decoderIdle := by decide
  encoderIdle := by decide

/-- A loaded map before `BUILD`. -/
def loaded : Arch := { Arch.reset with freq := pairMap }

theorem inv_loaded : loaded.Inv where
  nodesHeld := by decide
  freqCanonical := by decide
  codeCanonical := by decide
  noneClear := by decide
  emptyClear := nofun
  validCounts := nofun
  validTree := nofun
  cursorInternal := nofun
  codeDerived := nofun
  accClean := fun j _ h => accClean_zero j h
  waitingNeedsCode := by decide
  faultCause := by decide
  frameNeedsTree := by decide
  decoderIdle := by decide
  encoderIdle := by decide

theorem built_pair : pair.Built := fun _ => by decide +kernel
theorem built_lone : lone.Built := fun _ => by decide +kernel
theorem built_emptyDerived : emptyDerived.Built := fun _ => by decide +kernel

/-- Ports with one input event waiting. -/
def waiting (e : Event) (a : Arch) : State := ⟨a, { Ports.idle with pending := [e] }⟩

/-! ### Witnesses: the hypotheses of every statement can be met -/

theorem witness_EncodeUndoesDecode : decode 0x13FF00000007#48 = .ok (.rdc 0xFF#8 7#3) := rfl

theorem witness_DecodeFollowsTheOpcodeTable :
    (∃ r ∈ opcodeRows, (0x13FF00000007#48 : CmdWord) &&& r.mask = r.pattern)
    ∧ decode 0x02FFFFFFFFFF#48 = .ok (.ldf 0xFF#8 0xFFFFFFFF#32) ∧ decode 0x05FF00000000#48 = .ok (.enc 0xFF#8)
    ∧ decode 0x10FF00000000#48 = .ok (.rdf 0xFF#8) ∧ decode 0x090100000000#48 = .ok (.dbit true)
    ∧ decode 0x0AFF0000000F#48 = .ok (.dbyte 0xFF#8 15#4) ∧ decode 0x1100000001FF#48 = .ok (.rdnl 511#9)
    ∧ decode 0x1200000001FF#48 = .ok (.rdnw 511#9) ∧ decode 0x13FF00000007#48 = .ok (.rdc 0xFF#8 7#3)
    ∧ decode 0x14FF00000000#48 = .ok (.rds 255#8) :=
  ⟨by decide, rfl, rfl, rfl, rfl, rfl, rfl, rfl, rfl, rfl⟩

theorem witness_StepRunsTheDecodedCommand :
    (waiting (.command 0x030000000000#48) loaded).ports.pending = .command 0x030000000000#48 :: []
    ∧ decode 0x030000000000#48 = .ok .build ∧ decodeTableWord 48 0x030000000000 = some .build := ⟨rfl, rfl, rfl⟩

theorem witness_IllegalWordIsAnswered :
    (waiting (.command 0xFF0000000000#48) pair).ports.pending = .command 0xFF0000000000#48 :: []
    ∧ (waiting (.command 0xFF0000000000#48) pairFault).ports.pending = .command 0xFF0000000000#48 :: []
    ∧ (∀ r ∈ opcodeRows, (0xFF0000000000#48 : CmdWord) &&& r.mask ≠ r.pattern) ∧ pair.mode = .run
    ∧ pairFault.mode = .fault := ⟨rfl, rfl, by decide, rfl, rfl⟩

theorem witness_ResetEventGivesTheResetState :
    (waiting .reset pairFault).ports.pending = .reset :: []
    ∧ (waiting (.resetDuring 0x060000000000#48 0) pairWaiting).ports.pending = .resetDuring 0x060000000000#48 0 :: []
    ∧ ∃ t, runWord 0x060000000000#48 (st pairWaiting) = .next t ∧ t.ports = Ports.idle.answered 0x00#8 0#56 [0x80#8] [] :=
  ⟨rfl, rfl, _, rfl, rfl⟩

theorem witness_LdfReplacesOneEntry :
    (loaded.mode = .run ∧ loaded.tstate = .none) ∧ (pair.mode = .run ∧ pair.tstate ≠ .none) ∧ pairFault.mode = .fault := by
  decide

theorem witness_FirstErrorIsAnswered :
    (∀ i, decode 0xFF0000000000#48 ≠ .ok i)
    ∧ (decode 0x056100000000#48 = .ok (.enc 0x61#8) ∧ pairFault.mode = .fault ∧ (Instr.enc 0x61#8).mnemonic ∉ faultServed)
    ∧ (decode 0x0A0000000009#48 = .ok (.dbyte 0#8 9#4) ∧ ¬ (Arch.reset.mode = .fault) ∧ SeqFails (.dbyte 0#8 9#4) Arch.reset)
    ∧ (¬ SeqFails (.dbyte 0#8 9#4) pair ∧ RangeFails (.dbyte 0#8 9#4) pair)
    ∧ (¬ SeqFails (.rdnl 3#9) pairFault ∧ RangeFails (.rdnl 3#9) pairFault)
    ∧ (¬ SeqFails (.rds 12#8) Arch.reset ∧ ¬ RangeFails (.rds 12#8) Arch.reset
      ∧ ∃ t, runWord 0x140C00000000#48 State.reset = .next t) := by
  refine ⟨nofun, ⟨rfl, by decide⟩, ⟨rfl, by decide, .inr (.inr (.inr (by decide)))⟩, ⟨by unfold SeqFails; decide, ?_⟩,
    ⟨by unfold SeqFails; decide, .inl ⟨3#9, .inl rfl, by decide⟩⟩, by unfold SeqFails; decide, ?_, _, rfl⟩
  · exact .inr (.inl ⟨0#8, 9#4, rfl, .inr (by decide)⟩)
  · rintro (⟨idx, h | h, -⟩ | ⟨b, n, h, -⟩ | ⟨n, h, hn⟩)
    · cases h
    · cases h
    · cases h
    · injection h with h; subst h; exact absurd hn (by decide)

theorem witness_ErrorsArePrecise :
    (∃ t, runWord 0x057A00000000#48 (st pairWaiting) = .next t ∧ t.ports = Ports.idle.answered 0x05#8 0#56 [] [])
    ∧ (∃ t, runWord 0x110000000003#48 (st pairFault) = .next t ∧ t.ports = Ports.idle.answered 0x03#8 0#56 [] [])
    ∧ (0x05#8 : BitVec 8) ≠ 0x00#8 ∧ (0x03#8 : BitVec 8) ≠ 0x00#8 :=
  ⟨⟨_, rfl, rfl⟩, ⟨_, rfl, rfl⟩, by decide, by decide⟩

theorem witness_OneResponsePerWord :
    (∃ t, runWord 0x120000000002#48 (st pair) = .next t ∧ t.ports = Ports.idle.answered 0x00#8 3#56 [] [])
    ∧ (∃ t, runWord 0x060000000000#48 (st pairWaiting) = .next t ∧ t.ports.ob = [0x80#8])
    ∧ (∃ t, runWord 0x090000000000#48 (st pair) = .next t ∧ t.ports.os = [0x62#8]) :=
  ⟨⟨_, rfl, rfl⟩, ⟨_, rfl, rfl⟩, ⟨_, rfl, rfl⟩⟩

theorem witness_ModeChangesOnlyByNocodeAndClr :
    (∃ t, runWord 0x057A00000000#48 (st pair) = .next t ∧ pair.mode = .run ∧ t.arch.mode = .fault)
    ∧ (∃ t, runWord 0x010000000000#48 (st pairFault) = .next t ∧ pairFault.mode = .fault ∧ t.arch.mode = .run) :=
  ⟨⟨_, rfl, rfl, rfl⟩, ⟨_, rfl, rfl, rfl⟩⟩

/-- Does a command that answers a next state change a part of the architectural state. -/
def changes {α : Type} [DecidableEq α] (part : Arch → α) (i : Instr) (a : Arch) : Bool :=
  match seen i a with
  | some (b, _) => part b != part a
  | none => false

theorem witness_RegistersAreWrittenOnlyByTheirCommands :
    changes (·.freq) (.ldf 0x61#8 7#32) loaded ∧ changes (·.node) .build loaded ∧ changes (·.code) .derive pairBuilt
    ∧ changes (·.tstate) .build loaded ∧ changes (·.cvalid) .derive pairBuilt ∧ changes (·.nleaf) .build loaded
    ∧ changes (·.nnodes) .build loaded ∧ changes (·.root) .build loaded ∧ changes (·.acc) (.enc 0x61#8) pair
    ∧ changes (·.nacc) .flush pairWaiting ∧ changes (·.ebits) .erst pairWaiting ∧ changes (·.esym) (.enc 0x61#8) pair
    ∧ changes (·.dcur) (.dbit true) abra ∧ changes (·.dbits) (.dbit true) abra ∧ changes (·.dsym) (.dbit false) abra
    ∧ changes (·.frame) .dend { abra with dcur := 7#9 } ∧ changes (·.ecause) .dend Arch.reset
    ∧ changes (·.ecmd) .dend Arch.reset ∧ changes (·.mode) (.enc 0x7A#8) pair := by decide +kernel

theorem witness_BuildWritesTheTree :
    (loaded.mode = .run ∧ loaded.tstate = .none ∧ buildTree loaded.freq = (pairBuilt.node, 2)) ∧
    (pair.mode = .run ∧ pair.tstate ≠ .none) ∧ pairFault.mode = .fault := by decide +kernel

theorem witness_LeavesComeFirstInSymbolOrder :
    max 2 (keyCount pairMap) ≤ 2 ∧ (buildTree pairMap).1[2]? = some (.internal 3#40 1#9 0#9) ∧ keyCount [] = 0 := by decide +kernel

theorem witness_MergeRunsTheSpecsLoop : 1 ≤ keyCount loneMap := by decide +kernel

theorem witness_LoneSymbolGivesTwoLeaves :
    freqRead loneMap (0x78#8 : Symbol).toNat ≠ 0#32 ∧ ∀ x : Symbol, x ≠ 0x78#8 → freqRead loneMap x.toNat = 0#32 := by
  decide +kernel

theorem witness_EmptyMapIsNoError :
    Arch.reset.mode = .run ∧ Arch.reset.tstate = .none ∧ ∀ x : Symbol, freqRead Arch.reset.freq x.toNat = 0#32 :=
  ⟨rfl, rfl, fun _ => rfl⟩

theorem witness_BuiltTreeHasTheShape :
    1 ≤ keyCount pairMap ∧ (buildTree pairMap).1 = pair.node ∧ LeafPath pair.node 0x61#8 [true] :=
  ⟨by decide +kernel, by decide +kernel, 0, 2#40, rfl, rfl⟩

theorem witness_LeavesAreTheKeys : 2 ≤ keyCount pairMap ∧ keyCount loneMap = 1 := by decide +kernel

theorem witness_RootWeighsTheSumOfCounts : 2 ≤ keyCount pairMap ∧ keyCount loneMap = 1 := by decide +kernel

theorem witness_LeftChildIsTheLighter : (buildTree pairMap).1[2]? = some (.internal 3#40 1#9 0#9) := by decide +kernel

theorem witness_InternalWeightsDoNotDecrease :
    5 ≤ 8 ∧ (buildTree abraMap).1[5]? = some (.internal 2#40 2#9 3#9)
    ∧ (buildTree abraMap).1[8]? = some (.internal 11#40 0#9 7#9) := by decide +kernel

/-- Two lists that are not equal and read alike. -/
theorem witness_EqualMapsGiveEqualTrees :
    ([(0x62, 1#32), (0x61, 2#32)] : Memory Count) ≠ pairMap
    ∧ ∀ x : Symbol, freqRead [(0x62, 1#32), (0x61, 2#32)] x.toNat = freqRead pairMap x.toNat := by decide +kernel

theorem witness_DeriveRecordsTheFirstPaths :
    (pairBuilt.Inv ∧ pairBuilt.mode = .run ∧ pairBuilt.tstate = .valid) ∧ (emptyDerived.Inv ∧ emptyDerived.tstate = .empty)
    ∧ (loaded.Inv ∧ loaded.mode = .run ∧ loaded.tstate = .none) ∧ (pairFault.Inv ∧ pairFault.mode = .fault) :=
  ⟨⟨inv_pairBuilt, rfl, rfl⟩, ⟨inv_emptyDerived, rfl⟩, ⟨inv_loaded, rfl, rfl⟩, inv_pairFault, rfl⟩

theorem witness_CodeWordIsTheLeafsPath :
    (pair.Inv ∧ pair.Built ∧ pair.cvalid = true ∧ 2 ≤ pair.nleaf.toNat)
    ∧ (lone.Inv ∧ lone.Built ∧ lone.cvalid = true ∧ lone.nleaf.toNat = 1)
    ∧ (emptyDerived.Inv ∧ emptyDerived.Built ∧ emptyDerived.cvalid = true ∧ emptyDerived.tstate = .empty) :=
  ⟨⟨inv_pair, built_pair, rfl, by decide⟩, ⟨inv_lone, built_lone, rfl, rfl⟩, inv_emptyDerived, built_emptyDerived, rfl, rfl⟩

theorem witness_CodeIsPrefixFree :
    pair.Inv ∧ pair.cvalid = true ∧ (0x61#8 : Symbol) ≠ 0x62#8 ∧ codeRead pair.code 0x61 = some [true]
    ∧ codeRead pair.code 0x62 = some [false] := ⟨inv_pair, rfl, by decide, rfl, rfl⟩

theorem witness_CodeIsComplete :
    pair.Inv ∧ pair.cvalid = true ∧ codeRead pair.code 0x61 = some [true] ∧ pair.Built ∧ 2 ≤ pair.nleaf.toNat
    ∧ pair.tstate = .valid ∧ 255 ≤ (List.replicate 255 true).length :=
  ⟨inv_pair, rfl, rfl, built_pair, by decide, rfl, le_of_eq List.length_replicate.symm⟩

theorem witness_MoreFrequentIsNotLonger :
    pair.Inv ∧ pair.Built ∧ pair.cvalid = true
    ∧ (freqRead pair.freq 0x62).toNat < (freqRead pair.freq 0x61).toNat ∧ freqRead pair.freq 0x62 ≠ 0#32 :=
  ⟨inv_pair, built_pair, rfl, by decide, by decide⟩

theorem witness_EncPacksTheCodeWord :
    (pairWaiting.mode = .run ∧ pairWaiting.cvalid = true ∧ AccClean pairWaiting
      ∧ codeRead pairWaiting.code 0x61 = some [true])
    ∧ codeRead pairWaiting.code 0x7A = none ∧ (pairBuilt.mode = .run ∧ pairBuilt.cvalid = false)
    ∧ pairFault.mode = .fault :=
  ⟨⟨rfl, rfl, inv_pairWaiting.accClean, rfl⟩, rfl, ⟨rfl, rfl⟩, rfl⟩

theorem witness_FlushEmitsThePartialByte :
    (pairWaiting.mode = .run ∧ pairWaiting.nacc ≠ 0#3 ∧ pairWaiting.Inv) ∧ (pair.mode = .run ∧ pair.nacc = 0#3)
    ∧ pairFault.mode = .fault := ⟨⟨rfl, by decide, inv_pairWaiting⟩, ⟨rfl, rfl⟩, rfl⟩

theorem witness_ErstClearsTheEncoder : pairWaiting.mode = .run ∧ pairFault.mode = .fault := by decide

theorem witness_WholeStreamIsTheConcatenation :
    abra.mode = .run ∧ abra.cvalid = true ∧ abra.acc = 0#8 ∧ abra.nacc = 0#3 ∧ abra.ebits = 0#48 ∧ abra.esym = 0#48
    ∧ (∀ c ∈ ([0x61#8, 0x62#8] : List Symbol),
        codeRead abra.code c.toNat = some (if c = 0x61#8 then [false] else [true, true, false])
        ∧ (if c = 0x61#8 then [false] else [true, true, false]).length ≤ 255)
    ∧ ([0x61#8, 0x62#8] : List Symbol).length * 255 < 2 ^ 48 := by decide

theorem witness_DrstRestartsTheDecoder : pairWaiting.mode = .run ∧ pairFault.mode = .fault := by decide

theorem witness_DbitWalksOneEdge :
    (pair.Inv ∧ pair.mode = .run ∧ pair.tstate = .valid) ∧ (emptyDerived.mode = .run ∧ emptyDerived.tstate ≠ .valid)
    ∧ pairFault.mode = .fault := ⟨⟨inv_pair, rfl, rfl⟩, ⟨rfl, by decide⟩, rfl⟩

theorem witness_DbyteIsItsDbits :
    (pair.Inv ∧ pair.mode = .run ∧ pair.tstate = .valid) ∧ (1 ≤ (1#4).toNat ∧ (8#4).toNat ≤ 8)
    ∧ ((0#4).toNat = 0 ∧ 9 ≤ (9#4).toNat ∧ 9 ≤ (15#4).toNat) ∧ (loaded.mode = .run ∧ loaded.tstate ≠ .valid)
    ∧ pairFault.mode = .fault := ⟨⟨inv_pair, rfl, rfl⟩, by decide, by decide, ⟨rfl, by decide⟩, rfl⟩

theorem witness_DendReportsACursorAwayFromTheRoot :
    (abra.mode = .run ∧ abra.tstate = .valid ∧ abra.dcur = abra.root) ∧ (emptyDerived.mode = .run ∧ emptyDerived.tstate = .empty)
    ∧ ({ abra with dcur := 7#9 } : Arch).dcur ≠ abra.root ∧ (loaded.mode = .run ∧ loaded.tstate = .none)
    ∧ pairFault.mode = .fault := by decide

theorem witness_DecoderAlwaysEmitsWithin255Bits :
    pair.Inv ∧ pair.mode = .run ∧ pair.tstate = .valid ∧ 255 ≤ (List.replicate 255 false).length :=
  ⟨inv_pair, rfl, rfl, le_of_eq List.length_replicate.symm⟩

theorem witness_PadBitsDecodeToTheLeftmostSymbol :
    pair.Inv ∧ pair.mode = .run ∧ pair.tstate = .valid ∧ pair.dcur = pair.root
    ∧ LeafPath pair.node 0x62#8 (List.replicate 1 false) := ⟨inv_pair, rfl, rfl, rfl, 1, 1#40, rfl, rfl⟩

theorem witness_ReadsChangeNothing :
    (Instr.rds 0#8).mnemonic ∈ ["RDF", "RDNL", "RDNW", "RDC", "RDS"] ∧ ∃ t, exec (.rds 0#8) (st pairFault) = .next t :=
  ⟨by decide, _, rfl⟩

theorem witness_RdnlReadsShapeAndLinks :
    pairFault.Inv ∧ (2#9).toNat < pairFault.nnodes.toNat ∧ pairFault.nnodes.toNat ≤ (3#9).toNat :=
  ⟨inv_pairFault, by decide, by decide⟩

theorem witness_RdnwReadsTheWeight :
    pair.Inv ∧ (0#9).toNat < pair.nnodes.toNat ∧ pair.nnodes.toNat ≤ (511#9).toNat := ⟨inv_pair, by decide, by decide⟩

theorem witness_RdcReadsLengthAndChunk :
    (pair.cvalid = true ∧ codeRead pair.code 0x7A = none)
    ∧ (codeRead [(0, List.replicate 255 true)] 0 = some (List.replicate 255 true) ∧ (List.replicate 255 true).length ≤ 255)
    ∧ loaded.cvalid = false := ⟨⟨rfl, rfl⟩, ⟨rfl, le_of_eq List.length_replicate⟩, rfl⟩

theorem witness_RdsReadsTheRegister : (12#8).toNat ≤ 12 ∧ 13 ≤ (13#8).toNat ∧ 13 ≤ (255#8).toNat := by decide

theorem witness_EveryStepKeepsTheInvariants :
    pair.Inv ∧ (∃ t, step (waiting (.command 0x057A00000000#48) pair) = .next t ∧ t.arch.mode = .fault)
    ∧ ∃ t, step (waiting .reset pair) = .next t := ⟨inv_pair, ⟨_, rfl, rfl⟩, _, rfl⟩

theorem witness_TreeNeverDisagreesWithTheMap :
    pair.Built ∧ ∃ t, step (waiting (.command 0x090000000000#48) pair) = .next t := ⟨built_pair, _, rfl⟩

theorem witness_EveryCommandEnds : (waiting (.command 0x090000000000#48) pair).arch.Inv := inv_pair

theorem witness_EncoderAndDecoderDoNotDisturbEachOther :
    (∃ t, exec (.enc 0x61#8) (st pair) = .next t ∧ (Instr.enc 0x61#8).mnemonic ∈ ["ENC", "FLUSH", "ERST"])
    ∧ ∃ t, exec (.dbit true) (st pair) = .next t ∧ (Instr.dbit true).mnemonic ∈ ["DBIT", "DBYTE", "DRST", "DEND"] :=
  ⟨⟨_, rfl, by decide⟩, _, rfl, by decide⟩

theorem witness_EncodeThenDecodeIsTheIdentity :
    pair.Inv ∧ pair.mode = .run ∧ pair.cvalid = true ∧ pair.nacc = 0#3 ∧ pair.ebits = 0#48 ∧ pair.esym = 0#48
    ∧ ([0x61#8, 0x62#8] : List Symbol) ≠ [] ∧ (∀ c ∈ ([0x61#8, 0x62#8] : List Symbol), codeRead pair.code c.toNat ≠ none)
    ∧ 255 * ([0x61#8, 0x62#8] : List Symbol).length < 2 ^ 48 :=
  ⟨inv_pair, rfl, rfl, rfl, rfl, rfl, by decide, by decide, by decide⟩

theorem witness_RoundTripFromReset :
    (([(0x61#8, 2#32), (0x62#8, 1#32)] : List (Symbol × Count)).map (·.1)).Nodup ∧ ([0x61#8] : List Symbol) ≠ []
    ∧ (∀ c ∈ ([0x61#8] : List Symbol), ∃ n, (c, n) ∈ ([(0x61#8, 2#32), (0x62#8, 1#32)] : List (Symbol × Count)) ∧ n ≠ 0#32)
    ∧ 255 * ([0x61#8] : List Symbol).length < 2 ^ 48 ∧ ∀ c, freqOf [0x61#8] c < 2 ^ 32 := by
  refine ⟨by decide, by decide, fun c hc => ⟨2#32, ?_, by decide⟩, by decide, fun c => ?_⟩
  · simp at hc; simp [hc]
  · exact lt_of_le_of_lt List.count_le_length (by decide)

theorem witness_OneRepeatedSymbolRoundTrips : 1 ≤ 4 ∧ 4 < 2 ^ 32 := by decide

theorem witness_PayloadLengthIsCountTimesLength :
    ([0x61#8, 0x61#8, 0x62#8] : List Symbol) ≠ [] ∧ (∀ c, freqOf [0x61#8, 0x61#8, 0x62#8] c < 2 ^ 32)
    ∧ 255 * ([0x61#8, 0x61#8, 0x62#8] : List Symbol).length < 2 ^ 48 :=
  ⟨by decide, fun _ => lt_of_le_of_lt List.count_le_length (by decide), by decide⟩

end Sys2Proof.Tests.Slice0
end

section
/-! SUPPORT. A command word that is taken, and the host's reading of a table row (spec/00_scope.md R8, spec/10_state.md R51). -/

namespace Sys2Proof

/-- A table row names a command when its number fits the word and the word decodes (spec/20_memory.md R64, log 10). -/
theorem decodeTableWord_eq_some_iff {nbits w : Nat} {i : Instr} :
    decodeTableWord nbits w = some i ↔ w < 2 ^ 48 ∧ decode (BitVec.ofNat 48 w) = .ok i := by
  unfold decodeTableWord
  cases decode (BitVec.ofNat 48 w) <;> simp [Except.toOption]

namespace Machine

/-- With a command word next, a step takes it and runs it. -/
theorem step_of_command_pending {s : State} {w : CmdWord} {rest : List Event}
    (hp : s.ports.pending = .command w :: rest) : step s = runWord w (s.withPending rest) := by
  simp only [step, takeEvent, hp]

/-- A word just put on the port is taken off again and run on the state as it was. -/
theorem step_offerWord (w : CmdWord) (s : State) : step (offerWord w s) = runWord w s :=
  step_of_command_pending (withPending_pending s _)

/-- Settles O5: a step takes the word off the port and runs it, and a word that decodes runs its command. -/
theorem stepRunsTheDecodedCommand : Obligations.StepRunsTheDecodedCommand := by
  refine ⟨fun s w rest i hp hd => ?_, fun s nbits w i hd => ?_⟩
  · calc step s = runWord w (s.withPending rest) := step_of_command_pending hp
      _ = exec i (s.withPending rest) := runWord_command _ hd
  · obtain ⟨-, hd⟩ := decodeTableWord_eq_some_iff.mp hd
    calc step (s.withFetchWord nbits w) = runWord (BitVec.ofNat 48 w) s := step_offerWord _ s
      _ = exec i s := runWord_command s hd

end Machine

end Sys2Proof
end

section
/-! SUPPORT. The encoding (spec/30_encoding.md R80 to R85): a word is its three fields, a short operand lies in the low bits of a
field whose other bits are zero, and `decode w = .ok i` says the same as `encode i = w`. -/

namespace Sys2Proof

section LowBits

variable {n m : Nat} {x : BitVec (n + m)}

/-- A field with its `n` high bits zero is nothing but its `m` low bits. -/
theorem highZero_and_low_iff {p : BitVec m → Prop} :
    (x.extractLsb' m n = 0#n ∧ p (x.extractLsb' 0 m)) ↔ ∃ y : BitVec m, x = 0#n ++ y ∧ p y := by
  constructor
  · rintro ⟨hx, hp⟩
    exact ⟨x.extractLsb' 0 m, by rw [← hx, BitVec.extractLsb'_append_extractLsb'], hp⟩
  · rintro ⟨y, rfl, hp⟩
    rw [BitVec.extractLsb'_append_eq_left, BitVec.extractLsb'_append_eq_right]
    exact ⟨rfl, hp⟩

/-- A mask of the `n` high bits finds nothing exactly when they are zero. -/
theorem and_highOnes_eq_zero_iff :
    x &&& (BitVec.allOnes n ++ 0#m) = 0#(n + m) ↔ ∃ y : BitVec m, x = 0#n ++ y := by
  constructor
  · intro h
    have hx : x.extractLsb' m n = 0#n := by
      have := congrArg (BitVec.extractLsb' m n) h
      rwa [BitVec.extractLsb'_and, BitVec.extractLsb'_append_eq_left, BitVec.and_allOnes, BitVec.extractLsb'_zero] at this
    exact ⟨x.extractLsb' 0 m, by rw [← hx, BitVec.extractLsb'_append_extractLsb']⟩
  · rintro ⟨y, rfl⟩
    simp

end LowBits

/-- A bit vector of width 1 is one bit. -/
theorem ofBool_getLsbD_zero (b : BitVec 1) : BitVec.ofBool (b.getLsbD 0) = b := by
  rw [← BitVec.setWidth_one, BitVec.setWidth_eq]

/-! ### The three fields of a word -/

/-- A word is its three fields, the opcode in the most significant place (R80). -/
theorem fields_append (w : CmdWord) : opField w ++ aField w ++ dField w = w := by
  have hop : opField w ++ aField w = w.extractLsb' 32 16 := BitVec.extractLsb'_append_extractLsb'_eq_extractLsb' rfl
  rw [hop]
  exact BitVec.extractLsb'_append_extractLsb' (w := 16) (len := 32)

/-- Fields put together make a word exactly when they are the word's own fields. -/
theorem append_eq_word_iff {o a : BitVec 8} {d : BitVec 32} {w : CmdWord} :
    o ++ a ++ d = w ↔ opField w = o ∧ aField w = a ∧ dField w = d := by
  constructor
  · rintro rfl
    exact ⟨Laws.opField_append o a d, Laws.aField_append o a d, Laws.dField_append o a d⟩
  · rintro ⟨rfl, rfl, rfl⟩
    exact fields_append w

theorem encode_eq_iff {i : Instr} {w : CmdWord} :
    encode i = w ↔ opField w = i.opcode ∧ aField w = i.aOperand ∧ dField w = i.dOperand :=
  append_eq_word_iff

/-! ### The formats (R81): when a word of the format is a command, and which -/

theorem whenReserved_eq_ok_iff {zero : Bool} {i j : Instr} : whenReserved zero i = .ok j ↔ zero = true ∧ i = j := by
  cases zero <;> simp [whenReserved]

theorem formatZ_eq_ok_iff {w : CmdWord} {i j : Instr} :
    formatZ w i = .ok j ↔ aField w = 0#8 ∧ dField w = 0#32 ∧ i = j := by
  simp [formatZ, whenReserved_eq_ok_iff, and_assoc]

theorem formatA_eq_ok_iff {w : CmdWord} {i : BitVec 8 → Instr} {j : Instr} :
    formatA w i = .ok j ↔ dField w = 0#32 ∧ i (aField w) = j := by
  simp [formatA, whenReserved_eq_ok_iff]

theorem formatB_eq_ok_iff {w : CmdWord} {i : Bool → Instr} {j : Instr} :
    formatB w i = .ok j ↔ ∃ bit, aField w = 0#7 ++ BitVec.ofBool bit ∧ dField w = 0#32 ∧ i bit = j := by
  have hbit : (aField w).getLsbD 0 = ((aField w).extractLsb' 0 1).getLsbD 0 := by simp
  simp only [formatB, whenReserved_eq_ok_iff, Bool.and_eq_true, beq_iff_eq, and_assoc, hbit]
  refine (highZero_and_low_iff (n := 7) (p := fun b => dField w = 0#32 ∧ i (b.getLsbD 0) = j)).trans ?_
  constructor
  · rintro ⟨b, ha, h⟩
    exact ⟨b.getLsbD 0, by rw [ofBool_getLsbD_zero, ha], h⟩
  · rintro ⟨bit, ha, h⟩
    exact ⟨BitVec.ofBool bit, ha, by simpa using h⟩

theorem formatBN_eq_ok_iff {w : CmdWord} {i : BitVec 8 → BitVec 4 → Instr} {j : Instr} :
    formatBN w i = .ok j ↔ ∃ nbits : BitVec 4, dField w = 0#28 ++ nbits ∧ i (aField w) nbits = j := by
  simp only [formatBN, whenReserved_eq_ok_iff, beq_iff_eq]
  exact highZero_and_low_iff (n := 28) (p := fun nbits => i (aField w) nbits = j)

theorem formatI_eq_ok_iff {w : CmdWord} {i : BitVec 9 → Instr} {j : Instr} :
    formatI w i = .ok j ↔ aField w = 0#8 ∧ ∃ idx : BitVec 9, dField w = 0#23 ++ idx ∧ i idx = j := by
  simp only [formatI, whenReserved_eq_ok_iff, Bool.and_eq_true, beq_iff_eq, and_assoc]
  exact and_congr_right fun _ => highZero_and_low_iff (n := 23) (p := fun idx => i idx = j)

theorem formatSK_eq_ok_iff {w : CmdWord} {i : BitVec 8 → BitVec 3 → Instr} {j : Instr} :
    formatSK w i = .ok j ↔ ∃ k : BitVec 3, dField w = 0#29 ++ k ∧ i (aField w) k = j := by
  simp only [formatSK, whenReserved_eq_ok_iff, beq_iff_eq]
  exact highZero_and_low_iff (n := 29) (p := fun k => i (aField w) k = j)

/-! ### Decoding and encoding -/

/-- A word that decodes has the command's opcode, and its operand fields hold the operands and zeros (R80, R85). -/
theorem fields_of_decode {w : CmdWord} {i : Instr} (h : decode w = .ok i) :
    opField w = i.opcode ∧ aField w = i.aOperand ∧ dField w = i.dOperand := by
  unfold decode at h
  split at h
  case h_3 hop =>
    cases h
    exact ⟨BitVec.eq_of_toNat_eq hop, rfl, rfl⟩
  case h_6 hop | h_13 hop | h_17 hop =>
    obtain ⟨hd, rfl⟩ := formatA_eq_ok_iff.mp h
    exact ⟨BitVec.eq_of_toNat_eq hop, rfl, hd⟩
  case h_10 hop =>
    obtain ⟨bit, ha, hd, rfl⟩ := formatB_eq_ok_iff.mp h
    exact ⟨BitVec.eq_of_toNat_eq hop, ha, hd⟩
  case h_11 hop =>
    obtain ⟨nbits, hd, rfl⟩ := formatBN_eq_ok_iff.mp h
    exact ⟨BitVec.eq_of_toNat_eq hop, rfl, hd⟩
  case h_14 hop | h_15 hop =>
    obtain ⟨ha, idx, hd, rfl⟩ := formatI_eq_ok_iff.mp h
    exact ⟨BitVec.eq_of_toNat_eq hop, ha, hd⟩
  case h_16 hop =>
    obtain ⟨k, hd, rfl⟩ := formatSK_eq_ok_iff.mp h
    exact ⟨BitVec.eq_of_toNat_eq hop, rfl, hd⟩
  case h_18 => cases h
  all_goals
    next hop =>
    obtain ⟨ha, hd, rfl⟩ := formatZ_eq_ok_iff.mp h
    exact ⟨BitVec.eq_of_toNat_eq hop, ha, hd⟩

theorem decode_of_fields {w : CmdWord} {i : Instr} (hop : opField w = i.opcode) (ha : aField w = i.aOperand)
    (hd : dField w = i.dOperand) : decode w = .ok i := by
  cases i <;> simp only [decode, hop, Instr.opcode]
  case ldf => exact congrArg Except.ok (congrArg₂ Instr.ldf ha hd)
  case enc | rdf | rds => exact formatA_eq_ok_iff.mpr ⟨hd, congrArg _ ha⟩
  case dbit bit => exact formatB_eq_ok_iff.mpr ⟨bit, ha, hd, rfl⟩
  case dbyte byte nbits => exact formatBN_eq_ok_iff.mpr ⟨nbits, hd, congrArg (Instr.dbyte · nbits) ha⟩
  case rdnl idx | rdnw idx => exact formatI_eq_ok_iff.mpr ⟨ha, idx, hd, rfl⟩
  case rdc sym k => exact formatSK_eq_ok_iff.mpr ⟨k, hd, congrArg (Instr.rdc · k) ha⟩
  all_goals exact formatZ_eq_ok_iff.mpr ⟨ha, hd, rfl⟩

/-- The words that decode to a command are the one word that encodes it. -/
theorem decode_eq_ok_iff {w : CmdWord} {i : Instr} : decode w = .ok i ↔ encode i = w := by
  refine ⟨fun h => encode_eq_iff.mpr (fields_of_decode h), fun h => ?_⟩
  obtain ⟨hop, ha, hd⟩ := encode_eq_iff.mp h
  exact decode_of_fields hop ha hd

/-- Settles O1: an encoded command is a word with that command's encoding. -/
theorem decodeUndoesEncode : Obligations.DecodeUndoesEncode :=
  fun _ => decode_eq_ok_iff.mpr rfl

/-- Settles O2: the three fields of a word that decodes are the command's opcode and operand fields. -/
theorem encodeUndoesDecode : Obligations.EncodeUndoesDecode :=
  fun _ _ => decode_eq_ok_iff.mp

end Sys2Proof
end

section
/-! SUPPORT. The opcode table (spec/30_encoding.md R82, R83): the row of each command, and that a row selects exactly the words
that encode the commands of that row. -/

namespace Sys2Proof

/-- The reserved bits of a command's byte operand field (R81). -/
def Instr.aReserved : Instr → BitVec 8
  | .ldf _ _ | .enc _ | .dbyte _ _ | .rdf _ | .rdc _ _ | .rds _ => 0x00#8
  | .dbit _ => 0xFE#8
  | .nop | .clr | .build | .derive | .flush | .erst | .drst | .dend | .rdnl _ | .rdnw _ => 0xFF#8

/-- The reserved bits of a command's word operand field (R81). -/
def Instr.dReserved : Instr → BitVec 32
  | .ldf _ _ => 0x00000000#32
  | .dbyte _ _ => 0xFFFFFFF0#32
  | .rdnl _ | .rdnw _ => 0xFFFFFE00#32
  | .rdc _ _ => 0xFFFFFFF8#32
  | .nop | .clr | .build | .derive | .enc _ | .flush | .erst | .drst | .dbit _ | .dend | .rdf _ | .rds _ => 0xFFFFFFFF#32

/-- A command's row of the opcode table (R82): its opcode with both operand fields zero, under a mask of the opcode and the
reserved bits. -/
def Instr.row (i : Instr) : Row :=
  ⟨i.mnemonic, i.opcode ++ 0#8 ++ 0#32, 0xFF#8 ++ i.aReserved ++ i.dReserved⟩

/-- No part of a command's row depends on its operands, so each kind of command leaves a closed fact about the table. -/
theorem row_mem_opcodeRows (i : Instr) : i.row ∈ opcodeRows := by
  cases i <;> simp only [Instr.row, Instr.mnemonic, Instr.opcode, Instr.aReserved, Instr.dReserved] <;> decide

/-- Every row of the table is the row of some command. -/
theorem exists_row_eq {r : Row} (hr : r ∈ opcodeRows) : ∃ i : Instr, i.row = r := by
  have htable : opcodeRows = [.nop, .clr, .ldf 0#8 0#32, .build, .derive, .enc 0#8, .flush, .erst, .drst, .dbit false,
    .dbyte 0#8 0#4, .dend, .rdf 0#8, .rdnl 0#9, .rdnw 0#9, .rdc 0#8 0#3, .rds 0#8].map Instr.row := by decide
  rw [htable] at hr
  obtain ⟨i, -, hi⟩ := List.mem_map.mp hr
  exact ⟨i, hi⟩

/-- A row selects a word by the opcode and by zeros in the reserved bits (R83). -/
theorem row_selects_iff {w : CmdWord} {i : Instr} :
    w &&& i.row.mask = i.row.pattern
      ↔ opField w = i.opcode ∧ aField w &&& i.aReserved = 0#8 ∧ dField w &&& i.dReserved = 0#32 := by
  have hw : w &&& i.row.mask = opField w ++ (aField w &&& i.aReserved) ++ (dField w &&& i.dReserved) := by
    calc w &&& i.row.mask
        = (opField w ++ aField w ++ dField w) &&& i.row.mask := by rw [fields_append]
      _ = (opField w &&& BitVec.allOnes 8) ++ (aField w &&& i.aReserved) ++ (dField w &&& i.dReserved) :=
        BitVec.and_append.trans (congrArg (· ++ _) BitVec.and_append)
      _ = opField w ++ (aField w &&& i.aReserved) ++ (dField w &&& i.dReserved) := by rw [BitVec.and_allOnes]
  rw [hw, append_eq_word_iff]
  simp only [Instr.row, Laws.opField_append, Laws.aField_append, Laws.dField_append, eq_comm]

/-- A field of which every bit is reserved is zero. -/
theorem eq_zero_of_and_allOnes {n : Nat} {x : BitVec n} (h : x &&& BitVec.allOnes n = 0#n) : x = 0#n := by
  rwa [BitVec.and_allOnes] at h

theorem aOperand_and_aReserved (i : Instr) : i.aOperand &&& i.aReserved = 0#8 := by
  cases i
  case dbit bit => exact and_highOnes_eq_zero_iff.mpr ⟨BitVec.ofBool bit, rfl⟩
  all_goals simp [Instr.aOperand, Instr.aReserved]

theorem dOperand_and_dReserved (i : Instr) : i.dOperand &&& i.dReserved = 0#32 := by
  cases i
  case dbyte byte nbits => exact and_highOnes_eq_zero_iff.mpr ⟨nbits, rfl⟩
  case rdnl idx | rdnw idx => exact and_highOnes_eq_zero_iff.mpr ⟨idx, rfl⟩
  case rdc sym k => exact and_highOnes_eq_zero_iff.mpr ⟨k, rfl⟩
  all_goals simp [Instr.dOperand, Instr.dReserved]

/-- A command's row selects the word that encodes it. -/
theorem row_selects_encode (i : Instr) : encode i &&& i.row.mask = i.row.pattern := by
  obtain ⟨hop, ha, hd⟩ := Laws.encodeFields i
  rw [row_selects_iff, hop, ha, hd]
  exact ⟨rfl, aOperand_and_aReserved i, dOperand_and_dReserved i⟩

/-- A word that a command's row selects encodes a command of that row: the one whose operands are the word's fields. -/
theorem exists_encode_of_row_selects {w : CmdWord} {i : Instr} (h : w &&& i.row.mask = i.row.pattern) :
    ∃ j : Instr, j.row = i.row ∧ encode j = w := by
  obtain ⟨hop, ha, hd⟩ := row_selects_iff.mp h
  simp only [encode_eq_iff]
  cases i
  case ldf => exact ⟨.ldf (aField w) (dField w), rfl, hop, rfl, rfl⟩
  case enc => exact ⟨.enc (aField w), rfl, hop, rfl, eq_zero_of_and_allOnes hd⟩
  case rdf => exact ⟨.rdf (aField w), rfl, hop, rfl, eq_zero_of_and_allOnes hd⟩
  case rds => exact ⟨.rds (aField w), rfl, hop, rfl, eq_zero_of_and_allOnes hd⟩
  case dbit =>
    obtain ⟨b, hb⟩ := (and_highOnes_eq_zero_iff (n := 7) (m := 1)).mp ha
    have ha : aField w = (Instr.dbit (b.getLsbD 0)).aOperand := by rw [hb, Instr.aOperand, ofBool_getLsbD_zero]
    exact ⟨.dbit (b.getLsbD 0), rfl, hop, ha, eq_zero_of_and_allOnes hd⟩
  case dbyte =>
    obtain ⟨nbits, hn⟩ := (and_highOnes_eq_zero_iff (n := 28) (m := 4)).mp hd
    exact ⟨.dbyte (aField w) nbits, rfl, hop, rfl, hn⟩
  case rdnl =>
    obtain ⟨idx, hi⟩ := (and_highOnes_eq_zero_iff (n := 23) (m := 9)).mp hd
    exact ⟨.rdnl idx, rfl, hop, eq_zero_of_and_allOnes ha, hi⟩
  case rdnw =>
    obtain ⟨idx, hi⟩ := (and_highOnes_eq_zero_iff (n := 23) (m := 9)).mp hd
    exact ⟨.rdnw idx, rfl, hop, eq_zero_of_and_allOnes ha, hi⟩
  case rdc =>
    obtain ⟨k, hk⟩ := (and_highOnes_eq_zero_iff (n := 29) (m := 3)).mp hd
    exact ⟨.rdc (aField w) k, rfl, hop, rfl, hk⟩
  all_goals exact ⟨_, rfl, hop, eq_zero_of_and_allOnes ha, eq_zero_of_and_allOnes hd⟩

/-- R83: a row of the table selects exactly the words that decode to a command of that row. -/
theorem selects_iff_decode {w : CmdWord} {r : Row} (hr : r ∈ opcodeRows) :
    w &&& r.mask = r.pattern ↔ ∃ i : Instr, i.row = r ∧ decode w = .ok i := by
  constructor
  · intro h
    obtain ⟨i, rfl⟩ := exists_row_eq hr
    obtain ⟨j, hrow, hj⟩ := exists_encode_of_row_selects h
    exact ⟨j, hrow, decode_eq_ok_iff.mpr hj⟩
  · rintro ⟨i, rfl, hi⟩
    rw [← decode_eq_ok_iff.mp hi]
    exact row_selects_encode i

theorem exists_selects_iff_decode (w : CmdWord) :
    (∃ r ∈ opcodeRows, w &&& r.mask = r.pattern) ↔ ∃ i, decode w = .ok i := by
  constructor
  · rintro ⟨r, hr, h⟩
    obtain ⟨i, -, hi⟩ := (selects_iff_decode hr).mp h
    exact ⟨i, hi⟩
  · rintro ⟨i, hi⟩
    have hr := row_mem_opcodeRows i
    exact ⟨i.row, hr, (selects_iff_decode hr).mpr ⟨i, rfl, hi⟩⟩

/-- The row that selects a word is the row of the command it decodes to. -/
theorem eq_row_of_selects {w : CmdWord} {r : Row} {i : Instr} (hr : r ∈ opcodeRows) (h : w &&& r.mask = r.pattern)
    (hi : decode w = .ok i) : r = i.row := by
  obtain ⟨j, hrow, hj⟩ := (selects_iff_decode hr).mp h
  obtain rfl : j = i := Except.ok.inj (hj.symm.trans hi)
  exact hrow.symm

theorem selects_unique {w : CmdWord} {r r' : Row} (hr : r ∈ opcodeRows) (hr' : r' ∈ opcodeRows)
    (h : w &&& r.mask = r.pattern) (h' : w &&& r'.mask = r'.pattern) : r = r' := by
  obtain ⟨i, hrow, hi⟩ := (selects_iff_decode hr).mp h
  rw [← hrow, eq_row_of_selects hr' h' hi]

/-! ### The operands of a command are fields of the word (R84) -/

section Operands

variable {w : CmdWord} {i : Instr}

theorem aOperand_of_decode (h : decode w = .ok i) : i.aOperand = w.extractLsb' 32 8 := by
  obtain ⟨-, ha, -⟩ := fields_of_decode h
  exact ha.symm

theorem dOperand_of_decode (h : decode w = .ok i) : i.dOperand = w.extractLsb' 0 32 := by
  obtain ⟨-, -, hd⟩ := fields_of_decode h
  exact hd.symm

/-- An operand in the low bits of the word operand field is in the low bits of the word. -/
theorem dOperand_low_of_decode {m : Nat} (hm : m ≤ 32) (h : decode w = .ok i) :
    i.dOperand.extractLsb' 0 m = w.extractLsb' 0 m := by
  rw [dOperand_of_decode h, BitVec.extractLsb'_extractLsb'_of_le (by omega)]

theorem dbit_operand_of_decode {bit : Bool} (h : decode w = .ok (.dbit bit)) : bit = w.getLsbD 32 := by
  have hbit := congrArg (BitVec.getLsbD · 0) (aOperand_of_decode h)
  cases bit <;> simpa [Instr.aOperand] using hbit

end Operands

/-- Settles O3: a row selects the words that encode its commands, and these are the words that decode to them; the operands
are the low bits of the fields that `fields_of_decode` fixes. -/
theorem decodeFollowsTheOpcodeTable : Obligations.DecodeFollowsTheOpcodeTable := by
  refine ⟨exists_selects_iff_decode, fun _ _ _ => selects_unique, fun w r i hr h hi => ?_,
    fun w sym count h => ⟨aOperand_of_decode h, dOperand_of_decode h⟩, fun w sym h => ?_,
    fun _ _ => dbit_operand_of_decode, fun w byte nbits h => ⟨aOperand_of_decode h, ?_⟩, fun w idx h => ?_,
    fun w sym k h => ⟨aOperand_of_decode h, ?_⟩, fun w n h => aOperand_of_decode h⟩
  · rw [eq_row_of_selects hr h hi]; rfl
  · rcases h with h | h <;> exact aOperand_of_decode h
  · exact BitVec.extractLsb'_append_eq_right.symm.trans (dOperand_low_of_decode (by decide) h)
  · rcases h with h | h <;>
      exact BitVec.extractLsb'_append_eq_right.symm.trans (dOperand_low_of_decode (by decide) h)
  · exact BitVec.extractLsb'_append_eq_right.symm.trans (dOperand_low_of_decode (by decide) h)

end Sys2Proof
end

section
/-! SUPPORT. Control and load (spec/40_control_and_load.md R101 to R103): what `NOP` and `CLR` do in every state, and what `LDF`
does under each of its guards. -/

namespace Sys2Proof.Machine

/-- R101: `NOP` has no guard of its own, and `FAULT` mode serves it. -/
theorem exec_nop (s : State) : exec .nop s = .next (s.done s.arch) :=
  exec_done (firstError_served rfl rfl rfl) rfl

/-- R102: `CLR` has no guard of its own, and `FAULT` mode serves it. -/
theorem exec_clr (s : State) : exec .clr s = .next (s.done Arch.reset) :=
  exec_done (firstError_served rfl rfl rfl) rfl

section Load

variable (sym : Symbol) (count : Count) {s : State}

theorem encode_ldf : encode (.ldf sym count) = 0x02#8 ++ sym ++ count := rfl

/-- Before a `BUILD`, `LDF` is a write of `FREQ` and nothing else. -/
theorem exec_ldf_accepted (hm : s.arch.mode = .run) (ht : s.arch.tstate = .none) :
    exec (.ldf sym count) s = .next (s.done { s.arch with freq := freqWrite s.arch.freq sym.toNat count }) :=
  have hseq : seqGuard (.ldf sym count) s.arch = true := by simp [seqGuard, ht]
  exec_done (firstError_run hm hseq rfl) rfl

theorem exec_ldf_seq (hm : s.arch.mode = .run) (ht : s.arch.tstate ≠ .none) :
    exec (.ldf sym count) s = .next (s.answerRefused (encode (.ldf sym count)) Status.seq.code) :=
  have hseq : seqGuard (.ldf sym count) s.arch = false := by simp [seqGuard, ht]
  exec_refused (firstError_seq (.inl hm) hseq)

theorem exec_ldf_faulted (hm : s.arch.mode = .fault) :
    exec (.ldf sym count) s = .next (s.answerRefused (encode (.ldf sym count)) Status.faulted.code) :=
  exec_refused (firstError_faulted hm rfl)

end Load

/-- Settles O11: an accepted `LDF` is one write of `FREQ`, which `freqRead_freqWrite` reads back; the guards answer the rest. -/
theorem ldfReplacesOneEntry : Obligations.LdfReplacesOneEntry := by
  intro sym count s
  refine ⟨encode_ldf sym count, fun hm ht => ?_, exec_ldf_seq sym count, exec_ldf_faulted sym count⟩
  exact ⟨_, exec_ldf_accepted sym count hm ht, fun x => freqRead_freqWrite s.arch.freq sym.toNat x count⟩

/-- Settles O9: the frame of the commands lets `NOP` through in every state; a nonzero reserved bit makes the word 1 illegal. -/
theorem nopDoesNothing : Obligations.NopDoesNothing :=
  ⟨exec_nop, decode_eq_ok_iff.mpr rfl, rfl⟩

/-- Settles O10: `CLR` leaves `Arch.reset` whatever the state was, and what is said of that one state is computed. -/
theorem clrGivesTheResetState : Obligations.ClrGivesTheResetState := by
  intro s
  refine ⟨Arch.reset, exec_clr s, rfl, fun _ => rfl, ?_⟩
  decide

end Sys2Proof.Machine
end

section
/-! SUPPORT. Step 3 of `BuildTree` (spec/41_tree_builder.md R112): the model's collection, a list of indices with their weights,
stands for the spec's set of indices `Q`, and each turn of `merge` is a turn of the spec's loop. -/

namespace Sys2Proof.Machine

/-- The set of indices that a collection stands for: the spec's `Q`. -/
def indices (q : List (Weight × Nat)) : Finset Nat := (q.map Prod.snd).toFinset

/-- What every turn of `merge` keeps of the nodes and the collection: each index stands once, with its node's own weight, and
neither the indices nor the sums outgrow their 9 and 40 bits (R22, R26). -/
structure Collects (nodes : List Node) (q : List (Weight × Nat)) : Prop where
  /-- Each entry carries the weight of its node. -/
  entry : ∀ e ∈ q, (nodes[e.2]?).map Node.weight = some e.1
  /-- No index stands twice. -/
  distinct : (q.map Prod.snd).Nodup
  /-- The merges still to come, one fewer than the entries, fit in the node memory. -/
  room : nodes.length + q.length ≤ 512
  /-- The sum of all weights, and so each weight to come, fits 40 bits. -/
  sumFits : (q.map fun e => e.1.toNat).sum < 2 ^ 40

theorem indices_perm {q q' : List (Weight × Nat)} (h : q.Perm q') : indices q = indices q' :=
  List.toFinset_eq_of_perm _ _ (h.map _)

theorem mem_indices {q : List (Weight × Nat)} {e : Weight × Nat} (he : e ∈ q) : e.2 ∈ indices q :=
  List.mem_toFinset.mpr (List.mem_map_of_mem he)

theorem card_indices_le (q : List (Weight × Nat)) : (indices q).card ≤ q.length :=
  (List.toFinset_card_le _).trans_eq (List.length_map _)

theorem weightAt_append {nodes : List Node} {i : Nat} (more : List Node) (hi : i < nodes.length) :
    weightAt (nodes ++ more) i = weightAt nodes i := by
  unfold weightAt
  rw [List.getElem?_append_left hi]

theorem exists_takeLightest {q : List (Weight × Nat)} (h : 1 ≤ q.length) : ∃ m others, takeLightest q = some (m, others) := by
  have hne : takeLightest q ≠ none := mt takeLightest_none.mp (List.ne_nil_of_length_pos h)
  obtain ⟨⟨m, others⟩, hm⟩ := Option.ne_none_iff_exists'.mp hne
  exact ⟨m, others, hm⟩

/-- While two trees remain there are two lightest ones to take. -/
theorem exists_takeLightest_two {q : List (Weight × Nat)} (h : 2 ≤ q.length) :
    ∃ x q1 y q2, takeLightest q = some (x, q1) ∧ takeLightest q1 = some (y, q2) := by
  obtain ⟨x, q1, hx⟩ := exists_takeLightest (q := q) (by omega)
  have hlen := (takeLightest_perm hx).length_eq
  rw [List.length_cons] at hlen
  obtain ⟨y, q2, hy⟩ := exists_takeLightest (q := q1) (by omega)
  exact ⟨x, q1, y, q2, hx, hy⟩

namespace Collects

variable {nodes : List Node} {q q' : List (Weight × Nat)} {x y : Weight × Nat}

theorem perm (h : Collects nodes q) (hp : q.Perm q') : Collects nodes q' where
  entry e he := h.entry e (hp.mem_iff.mpr he)
  distinct := (hp.map _).nodup_iff.mp h.distinct
  room := hp.length_eq ▸ h.room
  sumFits := (hp.map fun e => e.1.toNat).sum_eq ▸ h.sumFits

theorem tail (h : Collects nodes (x :: q)) : Collects nodes q where
  entry e he := h.entry e (List.mem_cons_of_mem _ he)
  distinct := (List.nodup_cons.mp h.distinct).2
  room := by have := h.room; rw [List.length_cons] at this; omega
  sumFits := by have := h.sumFits; rw [List.map_cons, List.sum_cons] at this; omega

theorem index_lt (h : Collects nodes q) {e : Weight × Nat} (he : e ∈ q) : e.2 < nodes.length := by
  obtain ⟨n, hn, -⟩ := Option.map_eq_some_iff.mp (h.entry e he)
  exact (List.getElem?_eq_some_iff.mp hn).1

theorem weightAt_eq (h : Collects nodes q) {e : Weight × Nat} (he : e ∈ q) : weightAt nodes e.2 = e.1.toNat := by
  obtain ⟨n, hn, hw⟩ := Option.map_eq_some_iff.mp (h.entry e he)
  simp [weightAt, hn, hw]

/-- Taking an entry out takes its index out of the set. -/
theorem erase_indices (h : Collects nodes (x :: q)) : (indices (x :: q)).erase x.2 = indices q := by
  have hx : x.2 ∉ indices q := by
    rw [indices, List.mem_toFinset]
    exact (List.nodup_cons.mp h.distinct).1
  rw [indices, List.map_cons, List.toFinset_cons]
  exact Finset.erase_insert hx

theorem of_taken (h : Collects nodes q) (hx : takeLightest q = some (x, q')) : Collects nodes (x :: q') :=
  h.perm (takeLightest_perm hx).symm

theorem erase_taken (h : Collects nodes q) (hx : takeLightest q = some (x, q')) : (indices q).erase x.2 = indices q' := by
  rw [← indices_perm (takeLightest_perm hx), (h.of_taken hx).erase_indices]

/-- What `takeLightest` takes is the spec's `argmin` over the set of indices. -/
theorem isLeast (h : Collects nodes q) (hx : takeLightest q = some (x, q')) : IsLeast nodes (indices q) x.2 := by
  have hcons := h.of_taken hx
  refine ⟨mem_indices ((takeLightest_perm hx).mem_iff.mp List.mem_cons_self), fun i hi hne => ?_⟩
  have hmem : i ∈ indices q' := h.erase_taken hx ▸ Finset.mem_erase.mpr ⟨hne, hi⟩
  obtain ⟨e, he, rfl⟩ := List.mem_map.mp (List.mem_toFinset.mp hmem)
  have hle := lighter_false_iff.mp (takeLightest_least hx e he)
  rw [Before, hcons.weightAt_eq List.mem_cons_self, hcons.weightAt_eq (List.mem_cons_of_mem _ he)]
  omega

/-- The weight of a merged node is the exact sum (R22). -/
theorem toNat_add (h : Collects nodes (x :: y :: q)) : (x.1 + y.1).toNat = x.1.toNat + y.1.toNat := by
  have hsum := h.sumFits
  simp only [List.map_cons, List.sum_cons] at hsum
  exact BitVec.toNat_add_of_lt (by omega)

/-- One turn: two entries give way to the new node's. -/
theorem turn (h : Collects nodes (x :: y :: q)) (l r : NodeIdx) :
    Collects (nodes ++ [.internal (x.1 + y.1) l r]) (q ++ [(x.1 + y.1, nodes.length)]) where
  entry e he := by
    rcases List.mem_append.mp he with he | he
    · rw [List.getElem?_append_left (h.tail.tail.index_lt he)]
      exact h.tail.tail.entry e he
    · rw [List.mem_singleton.mp he]
      simp [Node.weight]
  distinct := by
    rw [List.map_append, List.map_singleton, ← List.concat_eq_append, List.nodup_concat]
    refine ⟨fun hmem => ?_, h.tail.tail.distinct⟩
    obtain ⟨e, he, heq⟩ := List.mem_map.mp hmem
    exact (h.tail.tail.index_lt he).ne heq
  room := by
    have hroom := h.room
    simp only [List.length_append, List.length_cons, List.length_nil] at hroom ⊢
    omega
  sumFits := by
    have hsum := h.sumFits
    simp only [List.map_append, List.map_cons, List.map_nil, List.sum_append, List.sum_cons, List.sum_nil,
      h.toNat_add] at hsum ⊢
    omega

theorem toNat_index (h : Collects nodes q) {e : Weight × Nat} (he : e ∈ q) : (BitVec.ofNat 9 e.2).toNat = e.2 := by
  have hlt := h.index_lt he
  have hroom := h.room
  rw [BitVec.toNat_ofNat]
  omega

/-- Every run of `merge` with enough turns is a run of the spec's loop. -/
theorem mergeRun {turns : Nat} (h : Collects nodes q) (hturns : q.length ≤ turns) :
    MergeRun nodes (indices q) (merge turns nodes q) := by
  induction turns generalizing nodes q with
  | zero => exact .stop _ _ ((card_indices_le q).trans (by omega))
  | succ turns ih =>
    by_cases hlast : q.length ≤ 1
    · rw [merge_stop _ hlast]
      exact .stop _ _ ((card_indices_le q).trans hlast)
    · obtain ⟨x, q1, y, q2, hx, hy⟩ := exists_takeLightest_two (q := q) (by omega)
      have hq1 : Collects nodes q1 := (h.of_taken hx).tail
      have hp : (x :: y :: q2).Perm q := ((takeLightest_perm hy).cons x).trans (takeLightest_perm hx)
      have hxy : Collects nodes (x :: y :: q2) := h.perm hp.symm
      have hxm : x ∈ x :: y :: q2 := by simp
      have hym : y ∈ x :: y :: q2 := by simp
      have hsum : (x.1 + y.1).toNat = weightAt nodes x.2 + weightAt nodes y.2 := by
        rw [hxy.toNat_add, hxy.weightAt_eq hxm, hxy.weightAt_eq hym]
      have hnext : insert nodes.length (((indices q).erase x.2).erase y.2)
          = indices (q2 ++ [(x.1 + y.1, nodes.length)]) := by
        rw [h.erase_taken hx, hq1.erase_taken hy]
        ext i
        simp [indices]
      have hlen : (q2 ++ [(x.1 + y.1, nodes.length)]).length ≤ turns := by
        have hq := hp.length_eq
        simp only [List.length_append, List.length_cons, List.length_nil] at hq ⊢
        omega
      rw [merge_turn turns hx hy]
      refine .turn nodes (indices q) x.2 y.2 (x.1 + y.1) _ _ _ (h.isLeast hx) ?_ hsum (hxy.toNat_index hxm)
        (hxy.toNat_index hym) (hnext ▸ ih (hxy.turn _ _) hlen)
      exact h.erase_taken hx ▸ hq1.isLeast hy

end Collects

/-! ### The collection before the first merge -/

theorem indices_collection (nodes : List Node) : indices (collection nodes) = Finset.range nodes.length := by
  rw [indices, collection, List.zipIdx_map_snd, List.length_map, ← List.range_eq_range', List.toFinset_range]

theorem collects_collection {nodes : List Node} (hlen : nodes.length ≤ 256)
    (hw : ∀ n ∈ nodes, n.weight.toNat < 2 ^ 32) : Collects nodes (collection nodes) where
  entry e he := by
    rw [← List.getElem?_map]
    exact List.mem_zipIdx_iff_getElem?.mp he
  distinct := List.nodup_zipIdx_map_snd _
  room := by simp only [collection, List.length_zipIdx, List.length_map]; omega
  sumFits := by
    have hbound : ∀ v ∈ (collection nodes).map fun e => e.1.toNat, v ≤ 2 ^ 32 - 1 := by
      intro v hv
      obtain ⟨e, he, rfl⟩ := List.mem_map.mp hv
      obtain ⟨n, hn, hne⟩ := List.mem_map.mp (List.fst_mem_of_mem_zipIdx he)
      have := hw n hn
      rw [hne] at this
      omega
    have hsum := List.sum_le_card_nsmul _ _ hbound
    simp only [collection, List.length_map, List.length_zipIdx, smul_eq_mul] at hsum ⊢
    omega

end Sys2Proof.Machine
end

section
/-! SUPPORT. The tree builder as a whole (spec/41_tree_builder.md R110 to R121): the leaves are the keys in ascending order, every
node after them comes from a turn of the loop, and `BUILD` writes the result to the registers. -/

namespace Sys2Proof.Machine

/-! ### Step 1: the leaves (R111) -/

theorem toNat_symbol {s : Nat} (hs : s ∈ List.range 256) : (BitVec.ofNat 8 s).toNat = s := by
  rw [BitVec.toNat_ofNat, Nat.mod_eq_of_lt (List.mem_range.mp hs)]

theorem leaves_eq_map_filter (freq : Memory Count) :
    leaves freq = ((List.range 256).filter fun x => freqRead freq x != 0#32).map
      fun x => .leaf (BitVec.ofNat 8 x) ((freqRead freq x).setWidth 40) := by
  rw [← List.filterMap_eq_map, List.filterMap_filter]
  refine List.filterMap_congr fun x _ => ?_
  by_cases h : freqRead freq x = 0#32 <;> simp [h]

/-- The leaves depend on a map only through what it reads at the 256 symbols. -/
theorem leaves_congr {freq freq' : Memory Count}
    (h : ∀ x : Symbol, freqRead freq x.toNat = freqRead freq' x.toNat) : leaves freq = leaves freq' := by
  refine List.filterMap_congr fun s hs => ?_
  have hread : freqRead freq s = freqRead freq' s := toNat_symbol hs ▸ h (BitVec.ofNat 8 s)
  rw [hread]

/-- A map with exactly one key has the one leaf of that key. -/
theorem leaves_lone {freq : Memory Count} {sym : Symbol} (hsym : freqRead freq sym.toNat ≠ 0#32)
    (hother : ∀ x : Symbol, x ≠ sym → freqRead freq x.toNat = 0#32) :
    leaves freq = [.leaf sym ((freqRead freq sym.toNat).setWidth 40)] := by
  have hkey : ∀ s ∈ List.range 256, (freqRead freq s != 0#32) = (s == sym.toNat) := by
    intro s hs
    by_cases heq : s = sym.toNat
    · simp [heq, hsym]
    · have hne : BitVec.ofNat 8 s ≠ sym := fun h => heq (by rw [← h, toNat_symbol hs])
      have hzero : freqRead freq s = 0#32 := toNat_symbol hs ▸ hother _ hne
      simp [heq, hzero]
  have hone : (List.range 256).count sym.toNat = 1 := by rw [List.count_range, if_pos sym.isLt]
  rw [leaves_eq_map_filter, List.filter_congr hkey, List.filter_beq, hone]
  simp

theorem keyCount_le (freq : Memory Count) : keyCount freq ≤ 256 :=
  List.countP_le_length.trans_eq List.length_range

/-! ### Step 2: the doubled leaf (R113) -/

theorem doubleLone_prefix (nodes : List Node) : nodes <+: doubleLone nodes := by
  unfold doubleLone
  split
  · exact ⟨[_], rfl⟩
  · exact List.prefix_rfl

theorem mem_doubleLone {nodes : List Node} {n : Node} : n ∈ doubleLone nodes ↔ n ∈ nodes := by
  unfold doubleLone
  split <;> simp

theorem doubleLone_length_le (nodes : List Node) : (doubleLone nodes).length ≤ max 2 nodes.length := by
  unfold doubleLone
  split <;> simp

/-- The nodes before the first merge: at most 256 leaves, each with the weight of a 32-bit count. -/
theorem mem_doubleLone_leaves {freq : Memory Count} {n : Node} (h : n ∈ doubleLone (leaves freq)) :
    n.isLeaf = true ∧ n.weight.toNat < 2 ^ 32 := by
  obtain ⟨s, -, -, rfl⟩ := mem_leaves.mp (mem_doubleLone.mp h)
  refine ⟨rfl, ?_⟩
  rw [Node.weight, BitVec.toNat_setWidth_of_le (by decide)]
  exact (freqRead freq s).isLt

theorem doubleLone_leaves_length_le (freq : Memory Count) :
    (doubleLone (leaves freq)).length ≤ max 2 (keyCount freq) :=
  leaves_length freq ▸ doubleLone_length_le (leaves freq)

/-! ### Step 3: the merges (R112) -/

theorem collects_doubleLone_leaves (freq : Memory Count) :
    Collects (doubleLone (leaves freq)) (collection (doubleLone (leaves freq))) := by
  refine collects_collection ?_ fun n hn => (mem_doubleLone_leaves hn).2
  have hlen := doubleLone_leaves_length_le freq
  have hkeys := keyCount_le freq
  omega

/-- R112 for every map: with no key the loop stops at once. -/
theorem mergeRun_buildTree (freq : Memory Count) :
    MergeRun (doubleLone (leaves freq)) (Finset.range (doubleLone (leaves freq)).length) (buildTree freq).1 := by
  have hlen : (collection (doubleLone (leaves freq))).length ≤ (doubleLone (leaves freq)).length := by
    simp [collection]
  rw [← indices_collection]
  exact (collects_doubleLone_leaves freq).mergeRun hlen

/-- Settles O19: the list of pairs that `merge` works on stands for the set `Q`, and each of its turns is a turn of the loop. -/
theorem mergeRunsTheSpecsLoop : Obligations.MergeRunsTheSpecsLoop :=
  fun freq _ => mergeRun_buildTree freq

theorem getElem?_append_singleton_cases {nodes : List Node} {m n : Node} {i : Nat}
    (h : (nodes ++ [m])[i]? = some n) : nodes[i]? = some n ∨ i = nodes.length ∧ m = n := by
  rw [List.getElem?_append] at h
  split at h
  · exact .inl h
  · rw [List.getElem?_singleton] at h
    split at h
    · exact .inr ⟨by omega, Option.some.inj h⟩
    · cases h

/-- Every node from index `k` on is internal. -/
def InternalFrom (k : Nat) (nodes : List Node) : Prop :=
  ∀ (i : Nat) (n : Node), k ≤ i → nodes[i]? = some n → n.isLeaf = false

theorem internalFrom_length (nodes : List Node) : InternalFrom nodes.length nodes := by
  intro i n hi h
  rw [List.getElem?_eq_none hi] at h
  cases h

theorem InternalFrom.append_internal {k : Nat} {nodes : List Node} (h : InternalFrom k nodes) (w : Weight)
    (l r : NodeIdx) : InternalFrom k (nodes ++ [.internal w l r]) := by
  intro i n hi hn
  rcases getElem?_append_singleton_cases hn with hn | ⟨-, rfl⟩
  · exact h i n hi hn
  · rfl

/-- The loop appends internal nodes only. -/
theorem MergeRun.internalFrom {k : Nat} {nodes out : List Node} {q : Finset Nat} (run : MergeRun nodes q out)
    (h : InternalFrom k nodes) : InternalFrom k out := by
  induction run with
  | stop => exact h
  | turn nodes q x y w l r out _ _ _ _ _ _ ih => exact ih (h.append_internal w l r)

/-- Every internal node has its children among the nodes, the left one before the right one (R117). -/
def LeftBefore (nodes : List Node) : Prop :=
  ∀ (i : Nat) (w : Weight) (l r : NodeIdx), nodes[i]? = some (.internal w l r) →
    l.toNat < nodes.length ∧ r.toNat < nodes.length ∧ Before nodes l.toNat r.toNat

theorem before_append_iff {nodes : List Node} {i j : Nat} (more : List Node) (hi : i < nodes.length)
    (hj : j < nodes.length) : Before (nodes ++ more) i j ↔ Before nodes i j := by
  rw [Before, Before, weightAt_append more hi, weightAt_append more hj]

theorem leftBefore_of_leaves {nodes : List Node} (h : ∀ n ∈ nodes, n.isLeaf = true) : LeftBefore nodes :=
  fun _ _ _ _ hi => nomatch h _ (List.mem_of_getElem? hi)

theorem LeftBefore.append_internal {nodes : List Node} (h : LeftBefore nodes) {w : Weight} {l r : NodeIdx}
    (hl : l.toNat < nodes.length) (hr : r.toNat < nodes.length) (hlr : Before nodes l.toNat r.toNat) :
    LeftBefore (nodes ++ [.internal w l r]) := by
  intro i w' l' r' hi
  have hold : l'.toNat < nodes.length ∧ r'.toNat < nodes.length ∧ Before nodes l'.toNat r'.toNat := by
    rcases getElem?_append_singleton_cases hi with hi | ⟨-, hnew⟩
    · exact h i w' l' r' hi
    · obtain ⟨-, rfl, rfl⟩ := Node.internal.inj hnew
      exact ⟨hl, hr, hlr⟩
  obtain ⟨hl', hr', hlr'⟩ := hold
  rw [List.length_append, before_append_iff _ hl' hr']
  exact ⟨by omega, by omega, hlr'⟩

/-- The second index of a turn was still in the set when the first was the least of it. -/
theorem MergeRun.leftBefore {nodes out : List Node} {q : Finset Nat} (run : MergeRun nodes q out)
    (hq : ∀ i ∈ q, i < nodes.length) (h : LeftBefore nodes) : LeftBefore out := by
  induction run with
  | stop => exact h
  | turn nodes q x y w l r out hx hy _ hl hr _ ih =>
    obtain ⟨hyx, hyq⟩ := Finset.mem_erase.mp hy.1
    have hbefore : Before nodes x y := hx.2 y hyq hyx
    subst hl hr
    refine ih (fun i hi => ?_) (h.append_internal (hq _ hx.1) (hq _ hyq) hbefore)
    rw [List.length_append, List.length_singleton]
    rcases Finset.mem_insert.mp hi with rfl | hi
    · omega
    · have := hq i (Finset.mem_of_mem_erase (Finset.mem_of_mem_erase hi))
      omega

/-- Settles O25: no leaf has children, and every turn of the loop keeps the left child before the right one. -/
theorem leftChildIsTheLighter : Obligations.LeftChildIsTheLighter := by
  intro freq i w l r hi
  have hstart : LeftBefore (doubleLone (leaves freq)) :=
    leftBefore_of_leaves fun n hn => (mem_doubleLone_leaves hn).1
  obtain ⟨-, -, hlr⟩ := (mergeRun_buildTree freq).leftBefore (fun _ => Finset.mem_range.mp) hstart i w l r hi
  exact hlr

/-! ### The whole tree -/

theorem leaves_prefix_buildTree (freq : Memory Count) : leaves freq <+: (buildTree freq).1 :=
  (doubleLone_prefix _).trans (merge_prefix _ _ _)

theorem buildTree_keyCount (freq : Memory Count) : (buildTree freq).2 = keyCount freq := leaves_length freq

theorem buildTree_congr {freq freq' : Memory Count} (h : leaves freq = leaves freq') :
    buildTree freq = buildTree freq' := by
  rw [buildTree, buildTree, h]

theorem buildTree_no_key {freq : Memory Count} (h : keyCount freq = 0) : buildTree freq = ([], 0) := by
  have hnil : leaves freq = [] := List.length_eq_zero_iff.mp ((leaves_length freq).trans h)
  rw [buildTree, hnil]
  rfl

/-- Two nodes of equal weight are merged in the order of their indices. -/
theorem takeLightest_tie (w : Weight) (i : Nat) :
    takeLightest [(w, i), (w, i + 1)] = some ((w, i), [(w, i + 1)]) := by
  have h : lighter (w, i + 1) (w, i) = false := lighter_false_iff.mpr (.inr ⟨rfl, by omega⟩)
  simp [takeLightest, h]

theorem buildTree_lone {freq : Memory Count} {n : Node} (h : leaves freq = [n]) :
    buildTree freq = ([n, n, .internal (n.weight + n.weight) 0#9 1#9], 1) := by
  have hmerge : merge 2 [n, n] [(n.weight, 0), (n.weight, 1)]
      = [n, n, .internal (n.weight + n.weight) 0#9 1#9] := by
    rw [merge_turn 1 (takeLightest_tie n.weight 0) rfl]
    exact merge_stop 1 le_rfl
  rw [buildTree, h]
  exact congrArg (·, 1) hmerge

/-- Settles O18: the nodes begin with the leaves, and the loop appends internal nodes only. -/
theorem leavesComeFirstInSymbolOrder : Obligations.LeavesComeFirstInSymbolOrder := by
  intro freq
  refine ⟨buildTree_keyCount freq, ?_, fun i n hi hn => ?_, buildTree_no_key⟩
  · rw [← leaves_eq_map_filter, ← leaves_length, ← List.prefix_iff_eq_take.mp (leaves_prefix_buildTree freq)]
  · exact (mergeRun_buildTree freq).internalFrom (internalFrom_length _) i n
      ((doubleLone_leaves_length_le freq).trans hi) hn

/-- Settles O20: the one leaf and its copy weigh the same, and twice a 32-bit count fits 40 bits. -/
theorem loneSymbolGivesTwoLeaves : Obligations.LoneSymbolGivesTwoLeaves := by
  intro freq sym hsym hother
  refine ⟨_, ?_, buildTree_lone (leaves_lone hsym hother)⟩
  have hcount := (freqRead freq sym.toNat).isLt
  rw [Node.weight, BitVec.toNat_add, BitVec.toNat_setWidth]
  omega

/-- Settles O27: the tree is made of the leaves, and the leaves of the counts. -/
theorem equalMapsGiveEqualTrees : Obligations.EqualMapsGiveEqualTrees :=
  fun _ _ h => buildTree_congr (leaves_congr h)

/-! ### `BUILD` (R110, R115) -/

theorem writeTree_eq (nodes : List Node) (nleaf : Nat) (a : Arch) :
    writeTree nodes nleaf a =
      { a with
        node := nodes
        nleaf := BitVec.ofNat 9 nleaf
        nnodes := BitVec.ofNat 9 nodes.length
        tstate := if nodes = [] then .empty else .valid
        root := BitVec.ofNat 9 (nodes.length - 1)
        dcur := BitVec.ofNat 9 (nodes.length - 1) } := by
  cases nodes <;> rfl

/-- Before a `BUILD`, the command writes the tree and nothing else. -/
theorem exec_build_accepted {s : State} (hm : s.arch.mode = .run) (ht : s.arch.tstate = .none) :
    exec .build s = .next (s.done (writeTree (buildTree s.arch.freq).1 (buildTree s.arch.freq).2 s.arch)) :=
  have hseq : seqGuard .build s.arch = true := by simp [seqGuard, ht]
  exec_done (firstError_run hm hseq rfl) rfl

theorem exec_build_seq {s : State} (hm : s.arch.mode = .run) (ht : s.arch.tstate ≠ .none) :
    exec .build s = .next (s.answerRefused (encode .build) Status.seq.code) :=
  have hseq : seqGuard .build s.arch = false := by simp [seqGuard, ht]
  exec_refused (firstError_seq (.inl hm) hseq)

theorem exec_build_faulted {s : State} (hm : s.arch.mode = .fault) :
    exec .build s = .next (s.answerRefused (encode .build) Status.faulted.code) :=
  exec_refused (firstError_faulted hm rfl)

/-- Settles O17: an accepted `BUILD` is `writeTree` of the map's tree; the guards answer the rest. -/
theorem buildWritesTheTree : Obligations.BuildWritesTheTree := by
  intro s
  refine ⟨fun hm ht nodes nleaf hb => ?_, exec_build_seq, exec_build_faulted⟩
  rw [exec_build_accepted hm ht, hb, writeTree_eq]

end Sys2Proof.Machine
end

section
/-! SUPPORT. The code table deriver (spec/42_code_table_deriver.md R130 to R132): the paths from a node to the leaves below it,
the first of them in the walk's order, and that the walk ends and records just these. -/

namespace Sys2Proof.Machine

/-! ### The leaves below a node -/

/-- The path `q` leads from node `i` to a leaf of the symbol: `LeafPath` from any node. -/
def LeafBelow (nodes : List Node) (i : Nat) (sym : Symbol) (q : BitString) : Prop :=
  ∃ j w, follow nodes i q = some j ∧ nodes[j]? = some (.leaf sym w)

section Nodes

variable {nodes : List Node} {i : Nat} {w : Weight} {l r : NodeIdx} {sym sym' : Symbol} {q : BitString}

/-- A leaf is below itself, and nothing else is. -/
theorem leafBelow_leaf (h : nodes[i]? = some (.leaf sym' w)) : LeafBelow nodes i sym q ↔ q = [] ∧ sym = sym' := by
  cases q with
  | nil => simp [LeafBelow, follow, h, eq_comm]
  | cons b q => simp [LeafBelow, follow, h]

theorem leafBelow_internal_cons (h : nodes[i]? = some (.internal w l r)) (b : Bool) :
    LeafBelow nodes i sym (b :: q) ↔ LeafBelow nodes (if b then r.toNat else l.toNat) sym q := by
  simp [LeafBelow, follow, h]

/-- Every leaf below an internal node is below its left child or below its right one. -/
theorem forall_leafBelow_internal {P : BitString → Prop} (h : nodes[i]? = some (.internal w l r))
    (left : ∀ q, LeafBelow nodes l.toNat sym q → P (false :: q))
    (right : ∀ q, LeafBelow nodes r.toNat sym q → P (true :: q)) : ∀ q, LeafBelow nodes i sym q → P q
  | [], hq => by simp [LeafBelow, follow, h] at hq
  | false :: q, hq => left q ((leafBelow_internal_cons h false).mp hq)
  | true :: q, hq => right q ((leafBelow_internal_cons h true).mp hq)

end Nodes

/-! ### The first path (R132) -/

/-- The walk records at a node before it goes down from it. -/
theorem nil_le_path (q : BitString) : [] ≤ q := by
  cases q with
  | nil => exact le_rfl
  | cons b q => exact le_of_lt List.Lex.nil

/-- The walk is through with the left subtree before it enters the right one. -/
theorem left_path_le_right_path (p q : BitString) : false :: p ≤ true :: q :=
  le_of_lt (List.Lex.rel Bool.false_lt_true)

/-- What the walk from node `i` has to record for a symbol: the least path to a leaf of it, left before right, or nothing
when there is none. -/
def FirstBelow (nodes : List Node) (i : Nat) (sym : Symbol) : Option BitString → Prop
  | none => ∀ q, ¬ LeafBelow nodes i sym q
  | some q => LeafBelow nodes i sym q ∧ ∀ q', LeafBelow nodes i sym q' → q ≤ q'

section First

variable {nodes : List Node} {i : Nat} {w : Weight} {l r : NodeIdx} {sym sym' : Symbol} {o lo ro : Option BitString}

/-- From the root the paths are those of `LeafPath`. -/
theorem firstBelow_root_some_iff {q : BitString} : FirstBelow nodes (nodes.length - 1) sym (some q) ↔
    LeafPath nodes sym q ∧ ∀ q', LeafPath nodes sym q' → q ≤ q' := Iff.rfl

/-- There is one first path at most, and none only without a leaf. -/
theorem FirstBelow.eq_some_iff (h : FirstBelow nodes i sym o) {q : BitString} :
    o = some q ↔ FirstBelow nodes i sym (some q) := by
  constructor
  · rintro rfl
    exact h
  · rintro ⟨hq, hleast⟩
    cases o with
    | none => exact absurd hq (h q)
    | some q' => rw [le_antisymm (h.2 q hq) (hleast q' h.1)]

theorem firstBelow_leaf (h : nodes[i]? = some (.leaf sym' w)) :
    FirstBelow nodes i sym (if sym = sym' then some [] else none) := by
  split
  · next heq => exact ⟨(leafBelow_leaf h).mpr ⟨rfl, heq⟩, fun q' _ => nil_le_path q'⟩
  · next hne => exact fun q hq => hne ((leafBelow_leaf h).mp hq).2

/-- The left subtree's first path goes before every path of the right one. -/
theorem firstBelow_internal (h : nodes[i]? = some (.internal w l r)) (hl : FirstBelow nodes l.toNat sym lo)
    (hr : FirstBelow nodes r.toNat sym ro) :
    FirstBelow nodes i sym ((lo.map (false :: ·)).or (ro.map (true :: ·))) := by
  cases lo with
  | some p =>
    exact ⟨(leafBelow_internal_cons h false).mpr hl.1, forall_leafBelow_internal h
      (fun q hq => List.cons_le_cons false (hl.2 q hq)) (fun q _ => left_path_le_right_path p q)⟩
  | none =>
    cases ro with
    | some p =>
      exact ⟨(leafBelow_internal_cons h true).mpr hr.1, forall_leafBelow_internal h
        (fun q hq => absurd hq (hl q)) (fun q hq => List.cons_le_cons true (hr.2 q hq))⟩
    | none => exact forall_leafBelow_internal h hl hr

end First

/-! ### The walk (R131) -/

/-- A walk that ends leaves the entries it found, and gives every other symbol the first path to a leaf of it, put after the
path by which the walk came. -/
theorem codeRead_walk_eq_or {nodes : List Node} {i depth : Nat} {p : BitString} {table out : Memory BitString}
    (h : walk depth nodes i p table = .ok out) (sym : Symbol) :
    ∃ o, FirstBelow nodes i sym o ∧ codeRead out sym.toNat = (codeRead table sym.toNat).or (o.map (p ++ ·)) := by
  induction depth generalizing i p table out with
  | zero => cases h
  | succ d ih =>
    obtain ⟨d', hd, ⟨sym', w, hi, rfl⟩ | ⟨w, l, r, mid, hi, hl, hr⟩⟩ := walk_cases h
    · refine ⟨_, firstBelow_leaf hi, ?_⟩
      simp only [codeRead_record, BitVec.toNat_inj]
      by_cases heq : sym = sym'
      · subst heq
        cases codeRead table sym.toNat <;> simp
      · simp [heq]
    · obtain rfl : d = d' := by omega
      obtain ⟨lo, hlo, hmid⟩ := ih hl
      obtain ⟨ro, hro, hout⟩ := ih hr
      refine ⟨_, firstBelow_internal hi hlo hro, ?_⟩
      rw [hout, hmid, Option.or_assoc, Option.map_or]
      simp [Function.comp_def]

/-- In a tree every child is below its parent, so a walk with more depth than the node's index ends. -/
theorem exists_walk_eq_ok {nodes : List Node} (hshape : TreeShape nodes) {depth i : Nat} (hi : i < nodes.length)
    (hdepth : i < depth) (p : BitString) (table : Memory BitString) : ∃ out, walk depth nodes i p table = .ok out := by
  induction depth generalizing i p table with
  | zero => omega
  | succ d ih =>
    have hget : nodes[i]? = some nodes[i] := List.getElem?_eq_getElem hi
    cases hn : nodes[i] with
    | leaf sym w => exact ⟨_, walk_leaf d p table (hn ▸ hget)⟩
    | internal w l r =>
      rw [hn] at hget
      obtain ⟨hl, hr⟩ := hshape.childrenBelow i w l r hget
      obtain ⟨mid, hmid⟩ := ih (i := l.toNat) (by omega) (by omega) (p ++ [false]) table
      rw [walk_internal hget hmid]
      exact ih (by omega) (by omega) (p ++ [true]) mid

/-- The walk from the root of a tree ends, and from an empty table it records every symbol's first path. -/
theorem walk_root_records_first {nodes : List Node} (hshape : TreeShape nodes) {root : NodeIdx}
    (hroot : root.toNat = nodes.length - 1) :
    ∃ table, walk nodes.length nodes root.toNat [] [] = .ok table ∧
      ∀ sym, FirstBelow nodes root.toNat sym (codeRead table sym.toNat) := by
  obtain ⟨w, l, r, hlast⟩ := hshape.rootInternal
  have hlt : root.toNat < nodes.length := hroot ▸ (List.getElem?_eq_some_iff.mp hlast).1
  obtain ⟨table, hwalk⟩ := exists_walk_eq_ok hshape hlt hlt [] []
  refine ⟨table, hwalk, fun sym => ?_⟩
  obtain ⟨o, ho, hread⟩ := codeRead_walk_eq_or hwalk sym
  have hread : codeRead table sym.toNat = o := by simpa [codeRead, Memory.find] using hread
  exact hread ▸ ho

/-! ### `DERIVE` (R130) -/

/-- After a `BUILD`, the command writes the derived table and nothing else. -/
theorem exec_derive_accepted {s : State} {table : Memory BitString} (hm : s.arch.mode = .run)
    (ht : s.arch.tstate ≠ .none) (hd : deriveTable s.arch.node s.arch.root s.arch.tstate = .ok table) :
    exec .derive s = .next (s.done { s.arch with code := table, cvalid := true }) :=
  have hseq : seqGuard .derive s.arch = true := by simp [seqGuard, ht]
  exec_done (firstError_run hm hseq rfl) (by simp only [commandBody, hd])

theorem exec_derive_seq {s : State} (hm : s.arch.mode = .run) (ht : s.arch.tstate = .none) :
    exec .derive s = .next (s.answerRefused (encode .derive) Status.seq.code) :=
  have hseq : seqGuard .derive s.arch = false := by simp [seqGuard, ht]
  exec_refused (firstError_seq (.inl hm) hseq)

theorem exec_derive_faulted {s : State} (hm : s.arch.mode = .fault) :
    exec .derive s = .next (s.answerRefused (encode .derive) Status.faulted.code) :=
  exec_refused (firstError_faulted hm rfl)

/-- With a tree the table is the walk's. -/
theorem deriveTable_records_first {a : Arch} (hinv : a.Inv) (ht : a.tstate = .valid) :
    ∃ table, deriveTable a.node a.root a.tstate = .ok table ∧
      ∀ sym, FirstBelow a.node (a.node.length - 1) sym (codeRead table sym.toNat) := by
  obtain ⟨-, -, -, hroot⟩ := hinv.validCounts ht
  have hroot : a.root.toNat = a.node.length - 1 := hroot.trans (by rw [hinv.nodesHeld])
  rw [ht, ← hroot]
  exact walk_root_records_first (hinv.validTree ht) hroot

/-- Settles O29: in a tree the walk ends, with each symbol's least leaf path from the root; there is one least path at most. -/
theorem deriveRecordsTheFirstPaths : Obligations.DeriveRecordsTheFirstPaths := by
  intro s hinv
  refine ⟨fun hm ht => ?_, exec_derive_seq, exec_derive_faulted⟩
  cases hts : s.arch.tstate with
  | none => exact absurd hts ht
  | empty =>
    have htable : deriveTable s.arch.node s.arch.root s.arch.tstate = .ok [] := by rw [hts]; rfl
    exact ⟨[], exec_derive_accepted hm ht htable, fun _ _ => rfl, nofun⟩
  | valid =>
    obtain ⟨table, htable, hfirst⟩ := deriveTable_records_first hinv hts
    exact ⟨table, exec_derive_accepted hm ht htable, nofun, fun _ sym _ =>
      (hfirst sym).eq_some_iff.trans firstBelow_root_some_iff⟩

end Sys2Proof.Machine
end

section
/-! SUPPORT. The bit encoder (spec/43_bit_encoder.md R140 to R145). The bytes sent and the byte in `ACC` are read together as one
stream (spec/20_memory.md R63): that it holds a bit string, with zeros after it, is kept by every pushed bit. -/

namespace Sys2Proof.Machine

/-! ### The layout of the stream (R63) -/

theorem streamBit_append_left {bytes : List Byte} (rest : List Byte) {k : Nat} (hk : k < 8 * bytes.length) :
    streamBit (bytes ++ rest) k = streamBit bytes k := by
  simp only [streamBit, List.getD_append _ _ _ _ (Nat.div_lt_of_lt_mul hk)]

theorem streamBit_append_right (bytes rest : List Byte) (k : Nat) :
    streamBit (bytes ++ rest) (8 * bytes.length + k) = streamBit rest k := by
  have hdiv : (8 * bytes.length + k) / 8 = bytes.length + k / 8 := by omega
  have hmod : (8 * bytes.length + k) % 8 = k % 8 := by omega
  simp only [streamBit, hdiv, hmod, List.getD_append_right _ _ _ _ (Nat.le_add_right _ _), Nat.add_sub_cancel_left]

theorem streamBit_singleton (x : Byte) {k : Nat} (hk : k < 8) : streamBit [x] k = x.getLsbD (7 - k) := by
  simp [streamBit, Nat.div_eq_of_lt hk, Nat.mod_eq_of_lt hk]

theorem streamBit_of_le {bytes : List Byte} {k : Nat} (hk : 8 * bytes.length ≤ k) : streamBit bytes k = false := by
  have hlen : bytes.length ≤ k / 8 := by omega
  simp [streamBit, List.getElem?_eq_none hlen]

theorem streamBit_zero (k : Nat) : streamBit [0#8] k = false := by
  by_cases hk : k < 8
  · simp [streamBit_singleton _ hk]
  · exact streamBit_of_le (by simpa using hk)

/-- Bytes that are not there read like zero bytes. -/
theorem streamBit_append_zero (bytes : List Byte) (k : Nat) : streamBit (bytes ++ [0#8]) k = streamBit bytes k := by
  by_cases hk : k < 8 * bytes.length
  · exact streamBit_append_left _ hk
  · obtain ⟨j, rfl⟩ := Nat.exists_eq_add_of_le (not_lt.mp hk)
    rw [streamBit_append_right, streamBit_of_le (Nat.le_add_right _ _)]
    exact streamBit_zero j

/-- The byte after one bit went into place `7 - n` (R141). -/
def putBit (acc : Byte) (n : Nat) (b : Bool) : Byte := acc ||| ((BitVec.ofBool b).setWidth 8 <<< (7 - n))

theorem streamBit_putBit_singleton (acc : Byte) {n : Nat} (hn : n < 8) (b : Bool) (k : Nat) :
    streamBit [putBit acc n b] k = (streamBit [acc] k || (decide (k = n) && b)) := by
  by_cases hk : k < 8
  · rw [streamBit_singleton _ hk, streamBit_singleton _ hk, putBit]
    cases b with
    | false => simp
    | true =>
      have hplace : (¬ 7 - k < 7 - n ∧ 7 - k - (7 - n) = 0) ↔ k = n := by omega
      have hlt : 7 - k < 8 := by omega
      simp [hlt, ← hplace, -Nat.not_lt, -not_lt]
  · have hk : 8 ≤ k := not_lt.mp hk
    have hkn : k ≠ n := by omega
    rw [streamBit_of_le (by simpa using hk), streamBit_of_le (by simpa using hk)]
    simp [hkn]

theorem streamBit_putBit (bytes : List Byte) (acc : Byte) {n : Nat} (hn : n < 8) (b : Bool) (k : Nat) :
    streamBit (bytes ++ [putBit acc n b]) k
      = (streamBit (bytes ++ [acc]) k || (decide (k = 8 * bytes.length + n) && b)) := by
  by_cases hk : k < 8 * bytes.length
  · have hne : k ≠ 8 * bytes.length + n := by omega
    simp [streamBit_append_left _ hk, hne]
  · obtain ⟨j, rfl⟩ := Nat.exists_eq_add_of_le (not_lt.mp hk)
    simp only [streamBit_append_right, streamBit_putBit_singleton acc hn, Nat.add_left_cancel_iff]

theorem getD_concat_false (bits : BitString) (b : Bool) (k : Nat) :
    (bits ++ [b]).getD k false = (bits.getD k false || (decide (k = bits.length) && b)) := by
  rcases lt_trichotomy k bits.length with hk | rfl | hk
  · simp [List.getElem?_append_left hk, hk.ne]
  · simp
  · rw [List.getD_eq_default _ _ hk.le, List.getD_eq_default _ _ (by simpa using hk)]
    simp [hk.ne']

/-! ### What the encoder holds (R141) -/

/-- The bytes sent, then `ACC`, hold the bit string `bits` and only zeros after it; `NACC` of its bits wait. -/
structure Packs (x : Arch × List Byte) (bits : BitString) : Prop where
  count : 8 * x.2.length + x.1.nacc.toNat = bits.length
  layout : ∀ k, streamBit (x.2 ++ [x.1.acc]) k = bits.getD k false

/-- A clean `ACC` holds the bits waiting in it. -/
theorem packs_waitingBits {a : Arch} (h : AccClean a) : Packs (a, []) (waitingBits a) where
  count := by simp [waitingBits]
  layout k := by
    by_cases hk : k < a.nacc.toNat
    · have hn := a.nacc.isLt
      simp [waitingBits, hk, streamBit_singleton a.acc (k := k) (by omega)]
    · have hbits : (waitingBits a).getD k false = false := by simp [waitingBits, hk]
      rw [hbits]
      by_cases hk8 : k < 8
      · exact (streamBit_singleton _ hk8).trans (h k (not_lt.mp hk) hk8)
      · exact streamBit_of_le (not_lt.mp hk8)

theorem packs_nil {a : Arch} (hacc : a.acc = 0#8) (hnacc : a.nacc = 0#3) : Packs (a, []) [] where
  count := by simp [hnacc]
  layout k := by simpa [hacc] using streamBit_zero k

namespace Packs

variable {a : Arch} {x : Arch × List Byte} {bits : BitString}

/-- `PushBit` appends one bit to what is held. -/
theorem concat (h : Packs x bits) (b : Bool) : Packs (pushBit x b) (bits ++ [b]) := by
  obtain ⟨a, bytes⟩ := x
  obtain ⟨hcount, hlayout⟩ := h
  simp only at hcount hlayout
  have hput : ∀ k, streamBit (bytes ++ [putBit a.acc a.nacc.toNat b]) k = (bits ++ [b]).getD k false := fun k => by
    rw [streamBit_putBit bytes a.acc a.nacc.isLt, hlayout, hcount]
    exact (getD_concat_false bits b k).symm
  by_cases hfull : a.nacc = 7#3
  · have hseven : a.nacc.toNat = 7 := congrArg BitVec.toNat hfull
    rw [pushBit_full bytes b hfull]
    exact ⟨by simp; omega, fun k => (streamBit_append_zero _ k).trans (hput k)⟩
  · have hroom : (a.nacc + 1#3).toNat = a.nacc.toNat + 1 := by bv_omega
    rw [pushBit_room bytes b hfull]
    exact ⟨by simp only [hroom, List.length_append, List.length_singleton]; omega, hput⟩

theorem foldl (h : Packs x bits) (p : BitString) : Packs (p.foldl pushBit x) (bits ++ p) := by
  induction p generalizing x bits with
  | nil => simpa using h
  | cons b p ih => simpa using ih (h.concat b)

/-- Pushing a bit string appends it to what is held. -/
theorem append (h : Packs (a, []) bits) (p : BitString) : Packs (pushBits p a) (bits ++ p) := h.foldl p

/-- The whole bytes have been sent. -/
theorem bytes_length (h : Packs x bits) : x.2.length = bits.length / 8 := by
  have hcount := h.count
  have hlt := x.1.nacc.isLt
  omega

theorem nacc_eq (h : Packs x bits) : x.1.nacc = BitVec.ofNat 3 (bits.length % 8) := by
  have hcount := h.count
  have hlt := x.1.nacc.isLt
  apply BitVec.eq_of_toNat_eq
  rw [BitVec.toNat_ofNat]
  omega

theorem streamBit_bytes (h : Packs x bits) {k : Nat} (hk : k < 8 * x.2.length) : streamBit x.2 k = bits.getD k false :=
  (streamBit_append_left _ hk).symm.trans (h.layout k)

theorem acc_bit (h : Packs x bits) {j : Nat} (hj : j < 8) :
    x.1.acc.getLsbD (7 - j) = bits.getD (8 * x.2.length + j) false := by
  rw [← h.layout, streamBit_append_right, streamBit_singleton _ hj]

/-- With no bit waiting `ACC` is clear. -/
theorem acc_eq_zero (h : Packs x bits) (hn : x.1.nacc = 0#3) : x.1.acc = 0#8 := by
  have hcount : 8 * x.2.length = bits.length := by simpa [hn] using h.count
  apply BitVec.eq_of_getLsbD_eq
  intro i hi
  have hbit := h.acc_bit (j := 7 - i) (by omega)
  rw [List.getD_eq_default _ _ (by omega), Nat.sub_sub_self (by omega)] at hbit
  simpa using hbit

end Packs

/-! ### `ENC` (R142) -/

section Enc

variable {sym : Symbol} {s : State} {p : BitString}

/-- With a table no guard of `ENC` fails. -/
theorem firstError_enc (hm : s.arch.mode = .run) (hc : s.arch.cvalid = true) : firstError (.enc sym) s.arch = none :=
  have hseq : seqGuard (.enc sym) s.arch = true := hc
  firstError_run hm hseq rfl

/-- A symbol with a code word: its bits are pushed. -/
theorem exec_enc_accepted (hm : s.arch.mode = .run) (hc : s.arch.cvalid = true)
    (hp : codeRead s.arch.code sym.toNat = some p) :
    exec (.enc sym) s = .next ⟨{ (pushBits p s.arch).1 with esym := s.arch.esym + 1#48 },
      s.ports.answered 0x00#8 0#56 (pushBits p s.arch).2 []⟩ := by
  rw [exec_ok (firstError_enc hm hc) rfl, encodeSymbol, hp]
  rfl

/-- A symbol without a code word is the fatal error. -/
theorem exec_enc_nocode (hm : s.arch.mode = .run) (hc : s.arch.cvalid = true)
    (hp : codeRead s.arch.code sym.toNat = none) :
    exec (.enc sym) s = .next
      ⟨{ s.arch with mode := .fault, ecause := Status.nocode.code, ecmd := encode (.enc sym) },
        s.ports.answered Status.nocode.code 0#56 [] []⟩ := by
  rw [exec_ok (firstError_enc hm hc) rfl, encodeSymbol, hp, deliver_eq_answered, raise_run hm]
  rfl

theorem exec_enc_seq (hm : s.arch.mode = .run) (hc : s.arch.cvalid = false) :
    exec (.enc sym) s = .next (s.answerRefused (encode (.enc sym)) Status.seq.code) :=
  have hseq : seqGuard (.enc sym) s.arch = false := hc
  exec_refused (firstError_seq (.inl hm) hseq)

theorem exec_enc_faulted (hm : s.arch.mode = .fault) :
    exec (.enc sym) s = .next (s.answerRefused (encode (.enc sym)) Status.faulted.code) :=
  exec_refused (firstError_faulted hm rfl)

end Enc

/-- An accepted `ENC` writes `ACC`, `NACC` and the two counters only. -/
theorem pushBits_frame_esym (p : BitString) (a : Arch) (e : Counter) :
    { (pushBits p a).1 with esym := e } = { a with
      acc := (pushBits p a).1.acc
      nacc := (pushBits p a).1.nacc
      ebits := a.ebits + BitVec.ofNat 48 p.length
      esym := e } :=
  congrArg (fun x : Arch => { x with esym := e }) (pushBits_frame p a)

/-- Settles O34: the waiting bits are packed in `ACC`, and pushing the code word appends it to them; the guards answer the
rest. -/
theorem encPacksTheCodeWord : Obligations.EncPacksTheCodeWord := by
  intro sym s
  refine ⟨fun hm hc hclean p hp => ?_, exec_enc_nocode, exec_enc_seq, exec_enc_faulted⟩
  have hpacks := (packs_waitingBits hclean).append p
  have hlen : (waitingBits s.arch ++ p).length = s.arch.nacc.toNat + p.length := by simp [waitingBits]
  refine ⟨(pushBits p s.arch).1.acc, (pushBits p s.arch).2, ?_, hlen ▸ hpacks.bytes_length,
    fun k => hpacks.streamBit_bytes, fun j => hpacks.acc_bit⟩
  rw [exec_enc_accepted hm hc hp, pushBits_frame_esym, ← hlen, ← hpacks.nacc_eq]

/-! ### `FLUSH` (R143) and `ERST` (R144) -/

theorem flushByte_idle {a : Arch} (h : a.nacc = 0#3) : flushByte a = respond a 0#56 := if_pos h

theorem flushByte_waiting {a : Arch} (h : a.nacc ≠ 0#3) :
    flushByte a = { respond { a with acc := 0#8, nacc := 0#3 } 0#56 with ob := [a.acc] } := if_neg h

theorem exec_flush_run {s : State} (hm : s.arch.mode = .run) : exec .flush s = .next (s.deliver (flushByte s.arch)) :=
  exec_ok (firstError_run hm rfl rfl) rfl

theorem exec_flush_idle {s : State} (hm : s.arch.mode = .run) (hn : s.arch.nacc = 0#3) :
    exec .flush s = .next (s.done s.arch) := by
  rw [exec_flush_run hm, flushByte_idle hn]
  rfl

theorem exec_flush_waiting {s : State} (hm : s.arch.mode = .run) (hn : s.arch.nacc ≠ 0#3) :
    exec .flush s =
      .next ⟨{ s.arch with acc := 0#8, nacc := 0#3 }, s.ports.answered 0x00#8 0#56 [s.arch.acc] []⟩ := by
  rw [exec_flush_run hm, flushByte_waiting hn]
  rfl

theorem exec_flush_faulted {s : State} (hm : s.arch.mode = .fault) :
    exec .flush s = .next (s.answerRefused (encode .flush) Status.faulted.code) :=
  exec_refused (firstError_faulted hm rfl)

/-- Settles O35: the byte sent is `ACC`, which holds the waiting bits and, by the invariant on `ACC`, zeros after them. -/
theorem flushEmitsThePartialByte : Obligations.FlushEmitsThePartialByte := fun _ =>
  ⟨fun hm hn => ⟨exec_flush_waiting hm hn, fun hinv k _ => (packs_waitingBits hinv.accClean).layout k⟩,
    exec_flush_idle, exec_flush_faulted⟩

/-- Settles O36: `ERST` has no guard of its own, and `FAULT` mode does not serve it. -/
theorem erstClearsTheEncoder : Obligations.ErstClearsTheEncoder :=
  fun _ => ⟨fun hm => exec_done (firstError_run hm rfl rfl) rfl, fun hm => exec_refused (firstError_faulted hm rfl), rfl⟩

/-! ### A whole stream (R145) -/

theorem execAll_cons_next {i : Instr} {is : List Instr} {s t : State} (h : exec i s = .next t) :
    execAll (i :: is) s = execAll is t := by
  rw [execAll, h]

theorem execAll_append_next {is js : List Instr} {s t : State} (h : execAll is s = .next t) :
    execAll (is ++ js) s = execAll js t := by
  induction is generalizing s with
  | nil => cases h; rfl
  | cons i is ih =>
    rw [List.cons_append]
    cases hi : exec i s with
    | next u =>
      rw [execAll_cons_next hi] at h ⊢
      exact ih h
    | fault f => simp [execAll, hi] at h
    | refused r => simp [execAll, hi] at h

/-- `PushBit` neither reads nor writes `ESYM`. -/
theorem pushBits_esym (p : BitString) (a : Arch) (e : Counter) :
    pushBits p { a with esym := e } = ({ (pushBits p a).1 with esym := e }, (pushBits p a).2) := by
  induction p generalizing a with
  | nil => rfl
  | cons b p ih =>
    have hb : pushBit ({ a with esym := e }, []) b
        = ({ (pushBit (a, []) b).1 with esym := e }, (pushBit (a, []) b).2) := by
      by_cases h : a.nacc = 7#3
      · rw [pushBit_full [] b h, pushBit_full (a := { a with esym := e }) [] b h]
      · rw [pushBit_room [] b h, pushBit_room (a := { a with esym := e }) [] b h]
    simp only [pushBits_cons, hb, ih]

/-- The state once `n` symbols, whose code words are together `p`, are encoded. -/
def State.encoded (s : State) (p : BitString) (n : Nat) : State where
  arch := { (pushBits p s.arch).1 with esym := s.arch.esym + BitVec.ofNat 48 n }
  ports :=
    { s.ports with
      rsp := s.ports.rsp ++ List.replicate n 0#64
      ob := s.ports.ob ++ (pushBits p s.arch).2 }

theorem encoded_nil (s : State) : s.encoded [] 0 = s := by simp [State.encoded]

theorem encoded_encoded (s : State) (p q : BitString) (m n : Nat) :
    (s.encoded p m).encoded q n = s.encoded (p ++ q) (m + n) := by
  simp [State.encoded, pushBits_esym, pushBits_append, BitVec.ofNat_add, BitVec.add_assoc]

/-- What encoding writes; every other register and table is as it was. -/
theorem encoded_arch (s : State) (p : BitString) (n : Nat) : (s.encoded p n).arch = { s.arch with
    acc := (pushBits p s.arch).1.acc
    nacc := (pushBits p s.arch).1.nacc
    ebits := s.arch.ebits + BitVec.ofNat 48 p.length
    esym := s.arch.esym + BitVec.ofNat 48 n } :=
  pushBits_frame_esym p s.arch _

theorem exec_enc_eq_encoded {sym : Symbol} {s : State} {p : BitString} (hm : s.arch.mode = .run)
    (hc : s.arch.cvalid = true) (hp : codeRead s.arch.code sym.toNat = some p) :
    exec (.enc sym) s = .next (s.encoded p 1) := by
  rw [exec_enc_accepted hm hc hp]
  simp [State.encoded, Ports.answered]

/-- `ENC` of every symbol pushes the concatenation of the code words. -/
theorem execAll_encs {word : Symbol → BitString} (input : List Symbol) {s : State} (hm : s.arch.mode = .run)
    (hc : s.arch.cvalid = true) (hword : ∀ c ∈ input, codeRead s.arch.code c.toNat = some (word c)) :
    execAll (encs input) s = .next (s.encoded (input.flatMap word) input.length) := by
  induction input generalizing s with
  | nil => exact congrArg _ (encoded_nil s).symm
  | cons c input ih =>
    obtain ⟨hhead, htail⟩ := List.forall_mem_cons.mp hword
    calc execAll (encs (c :: input)) s
        = execAll (encs input) (s.encoded (word c) 1) := execAll_cons_next (exec_enc_eq_encoded hm hc hhead)
      _ = .next ((s.encoded (word c) 1).encoded (input.flatMap word) input.length) := by
        refine ih ?_ ?_ ?_ <;> rw [encoded_arch] <;> assumption
      _ = .next (s.encoded ((c :: input).flatMap word) (c :: input).length) := by
        rw [encoded_encoded, List.flatMap_cons, List.length_cons, Nat.add_comm]

theorem length_flatMap_le {word : Symbol → BitString} {input : List Symbol} {m : Nat}
    (h : ∀ c ∈ input, (word c).length ≤ m) : (input.flatMap word).length ≤ input.length * m := by
  rw [List.length_flatMap]
  simpa using List.sum_le_card_nsmul (input.map fun c => (word c).length) m (by simpa using h)

/-- `FLUSH` completes what the stream holds to whole bytes, and leaves the accumulator clear. -/
theorem exec_flush_of_packs {s : State} {bytes : List Byte} {bits : BitString} (hm : s.arch.mode = .run)
    (h : Packs (s.arch, bytes) bits) : ∃ tail,
      exec .flush s = .next ⟨{ s.arch with acc := 0#8, nacc := 0#3 }, s.ports.answered 0x00#8 0#56 tail []⟩
      ∧ (bytes ++ tail).length = (bits.length + 7) / 8 ∧ ∀ k, streamBit (bytes ++ tail) k = bits.getD k false := by
  have hcount : 8 * bytes.length + s.arch.nacc.toNat = bits.length := h.count
  by_cases hn : s.arch.nacc = 0#3
  · have hacc : s.arch.acc = 0#8 := h.acc_eq_zero hn
    have hclear : { s.arch with acc := 0#8, nacc := 0#3 } = s.arch := by rw [← hacc, ← hn]
    have hzero : s.arch.nacc.toNat = 0 := congrArg BitVec.toNat hn
    refine ⟨[], hclear ▸ exec_flush_idle hm hn, by rw [List.append_nil]; omega, fun k => ?_⟩
    rw [List.append_nil, ← streamBit_append_zero, ← hacc]
    exact h.layout k
  · have hpos : s.arch.nacc.toNat ≠ 0 := fun h0 => hn (BitVec.eq_of_toNat_eq h0)
    have hlt := s.arch.nacc.isLt
    exact ⟨[s.arch.acc], exec_flush_waiting hm hn, by rw [List.length_append, List.length_singleton]; omega, h.layout⟩

theorem allOk_of_rsp {s t : State} {n : Nat} (h : t.ports.rsp = s.ports.rsp ++ List.replicate n 0#64) : allOk s t := by
  rw [allOk, h, List.drop_left]
  exact fun w hw => List.eq_of_mem_replicate hw

/-- Settles O37: encoding the input pushes the concatenation of its code words, and `FLUSH` sends what then waits; the counters
do not wrap below `2 ^ 48`. -/
theorem wholeStreamIsTheConcatenation : Obligations.WholeStreamIsTheConcatenation := by
  intro s input word hm hc hacc hnacc hebits hesym hword hbound
  have hlength : (input.flatMap word).length ≤ input.length * 255 := length_flatMap_le fun c h => (hword c h).2
  have hencs := execAll_encs input hm hc fun c h => (hword c h).1
  generalize input.flatMap word = p at hlength hencs ⊢
  have hmode : (s.encoded p input.length).arch.mode = .run := by rw [encoded_arch]; exact hm
  have hpushed : Packs (pushBits p s.arch) p := (packs_nil hacc hnacc).append p
  have hpacks : Packs ((s.encoded p input.length).arch, (pushBits p s.arch).2) p := ⟨hpushed.count, hpushed.layout⟩
  obtain ⟨tail, hflush, hlen, hlayout⟩ := exec_flush_of_packs hmode hpacks
  have hrun : execAll (encs input ++ [.flush]) s = _ :=
    (execAll_append_next hencs).trans (execAll_cons_next hflush)
  refine ⟨_, _, hrun, allOk_of_rsp (n := input.length + 1) ?_, ?_, ?_, ?_, ?_, ?_, hlen, fun k _ => hlayout k⟩
  · simp [State.encoded, List.replicate_succ']
  · simp [State.encoded]
  · simp [State.encoded]
  · simp [encoded_arch, hacc, hnacc, hebits, hesym]
  · simp [encoded_arch, hebits]; omega
  · simp [encoded_arch, hesym]; omega

end Sys2Proof.Machine
end

section
/-! SUPPORT. The bit decoder (spec/44_bit_decoder.md R161 to R166): in a tree every bit has a child to go to, so a run of bits
always ends, and a command that consumes several bits does what one command for each of them does. -/

namespace Sys2Proof.Machine

/-! ### `DRST` (R162) and `DEND` (R165) -/

/-- Settles O38: `DRST` has no guard of its own, and `FAULT` mode does not serve it. -/
theorem drstRestartsTheDecoder : Obligations.DrstRestartsTheDecoder :=
  fun _ => ⟨fun hm => exec_done (firstError_run hm rfl rfl) rfl, fun hm => exec_refused (firstError_faulted hm rfl), rfl⟩

theorem atRoot_eq_true_iff {a : Arch} : atRoot a = true ↔ a.tstate ≠ .valid ∨ a.dcur = a.root := by
  simp [atRoot]

section Dend

variable {s : State}

/-- After a `BUILD` no guard of `DEND` fails. -/
theorem exec_dend_accepted (hm : s.arch.mode = .run) (ht : s.arch.tstate ≠ .none) :
    exec .dend s = .next (s.deliver (endOfStream s.arch)) :=
  have hseq : seqGuard .dend s.arch = true := by simp [seqGuard, ht]
  exec_ok (firstError_run hm hseq rfl) rfl

theorem exec_dend_atRoot (hm : s.arch.mode = .run) (ht : s.arch.tstate ≠ .none) (hroot : atRoot s.arch = true) :
    exec .dend s = .next (s.done s.arch) := by
  rw [exec_dend_accepted hm ht, endOfStream, if_pos hroot]
  rfl

/-- A cursor away from the root: `FRAME` is set, and `E_FRAME` recorded. -/
theorem exec_dend_frame (hm : s.arch.mode = .run) (ht : s.arch.tstate ≠ .none) (hroot : atRoot s.arch ≠ true) :
    exec .dend s = .next
      ⟨{ s.arch with frame := true, ecause := Status.frame.code, ecmd := encode .dend },
        s.ports.answered Status.frame.code 0#56 [] []⟩ := by
  rw [exec_dend_accepted hm ht, endOfStream, if_neg hroot, deliver_eq_answered,
    raise_run (a := { s.arch with frame := true }) hm, if_neg (by decide), ← hm]
  rfl

theorem exec_dend_seq (hm : s.arch.mode = .run) (ht : s.arch.tstate = .none) :
    exec .dend s = .next (s.answerRefused (encode .dend) Status.seq.code) :=
  have hseq : seqGuard .dend s.arch = false := by simp [seqGuard, ht]
  exec_refused (firstError_seq (.inl hm) hseq)

theorem exec_dend_faulted (hm : s.arch.mode = .fault) :
    exec .dend s = .next (s.answerRefused (encode .dend) Status.faulted.code) :=
  exec_refused (firstError_faulted hm rfl)

end Dend

/-- Settles O41: which of its two answers `DEND` gives is told by `ATROOT`; the guards answer the rest. -/
theorem dendReportsACursorAwayFromTheRoot : Obligations.DendReportsACursorAwayFromTheRoot := by
  intro s
  refine ⟨fun hm ht hd => ?_, fun hm ht => ?_, fun hm ht hd => ?_, exec_dend_seq, exec_dend_faulted⟩
  · exact exec_dend_atRoot hm (by simp [ht]) (atRoot_eq_true_iff.mpr (.inr hd))
  · exact exec_dend_atRoot hm (by simp [ht]) (atRoot_eq_true_iff.mpr (.inl (by simp [ht])))
  · exact exec_dend_frame hm (by simp [ht]) fun h => (atRoot_eq_true_iff.mp h).elim (absurd ht) hd

/-! ### A run of bits always ends (R161, R166) -/

/-- What `DecodeBit` needs and keeps: a tree with `ROOT` on its last node, and the cursor on an internal node. -/
structure Arch.CanDecode (a : Arch) : Prop where
  shape : TreeShape a.node
  root : a.root.toNat = a.node.length - 1
  cursor : ∃ w l r, a.node[a.dcur.toNat]? = some (.internal w l r)

/-- The invariants give it to every state with a tree. -/
theorem Arch.Inv.canDecode {a : Arch} (h : a.Inv) (ht : a.tstate = .valid) : a.CanDecode where
  shape := h.validTree ht
  root := by
    obtain ⟨-, -, -, hroot⟩ := h.validCounts ht
    rw [hroot, h.nodesHeld]
  cursor := (h.cursorInternal ht).2

/-- Both children of an internal node are nodes of the tree. -/
theorem TreeShape.exists_child {nodes : List Node} (h : TreeShape nodes) {i : Nat} {w : Weight} {l r : NodeIdx}
    (hi : nodes[i]? = some (.internal w l r)) (b : Bool) : ∃ n, nodes[(if b then r else l).toNat]? = some n := by
  obtain ⟨hl, hr⟩ := h.childrenBelow i w l r hi
  have hlen : i < nodes.length := (List.getElem?_eq_some_iff.mp hi).1
  have hchild : (if b then r else l).toNat < nodes.length := by
    cases b with
    | false => exact hl.trans hlen
    | true => exact hr.trans hlen
  exact ⟨_, List.getElem?_eq_getElem hchild⟩

theorem Arch.CanDecode.exists_decodeBit {a : Arch} (h : a.CanDecode) (b : Bool) :
    ∃ a' out, decodeBit a b = .ok (a', out) ∧ a'.CanDecode ∧ out.length ≤ 1 := by
  obtain ⟨w, l, r, hcur⟩ := h.cursor
  obtain ⟨n, hchild⟩ := h.shape.exists_child hcur b
  cases n with
  | leaf sym w' =>
    refine ⟨_, _, decodeBit_leaf hcur hchild, ⟨h.shape, h.root, ?_⟩, le_rfl⟩
    simpa [h.root] using h.shape.rootInternal
  | internal w' l' r' => exact ⟨_, _, decodeBit_internal hcur hchild, ⟨h.shape, h.root, w', l', r', hchild⟩, Nat.zero_le _⟩

theorem decodeBits_cons_eq_ok_iff {a a'' : Arch} {b : Bool} {p : List Bool} {out : List Symbol} :
    decodeBits a (b :: p) = .ok (a'', out) ↔ ∃ a' out₁ out₂,
      decodeBit a b = .ok (a', out₁) ∧ decodeBits a' p = .ok (a'', out₂) ∧ out₁ ++ out₂ = out := by
  cases hb : decodeBit a b with
  | error f => simp [decodeBits, hb]
  | ok x =>
    obtain ⟨a', out₁⟩ := x
    cases hp : decodeBits a' p <;> simp [decodeBits, hb, hp, Prod.ext_iff]

theorem decodeBits_singleton {a a' : Arch} {b : Bool} {out : List Symbol} (h : decodeBit a b = .ok (a', out)) :
    decodeBits a [b] = .ok (a', out) :=
  decodeBits_cons_eq_ok_iff.mpr ⟨a', out, [], h, rfl, List.append_nil out⟩

/-- Every bit of a run goes to a node, and emits one symbol at most. -/
theorem Arch.CanDecode.exists_decodeBits {a : Arch} (h : a.CanDecode) (p : List Bool) :
    ∃ a' out, decodeBits a p = .ok (a', out) ∧ a'.CanDecode ∧ out.length ≤ p.length := by
  induction p generalizing a with
  | nil => exact ⟨a, [], rfl, h, le_rfl⟩
  | cons b p ih =>
    obtain ⟨a₁, out₁, hb, h₁, hlen₁⟩ := h.exists_decodeBit b
    obtain ⟨a₂, out₂, hp, h₂, hlen₂⟩ := ih h₁
    refine ⟨a₂, out₁ ++ out₂, decodeBits_cons_eq_ok_iff.mpr ⟨a₁, out₁, out₂, hb, hp, rfl⟩, h₂, ?_⟩
    simp only [List.length_append, List.length_cons]
    omega

/-! ### The commands that consume bits (R163, R164) -/

/-- A command that consumes bits and passes its guards answers `OK` with what its bits decode to. -/
theorem exec_of_decodeBits {i : Instr} {s : State} {bits : List Bool} {a' : Arch} {out : List Symbol}
    (hi : firstError i s.arch = none) (hbody : commandBody i s.arch = decodeReply bits s.arch)
    (hd : decodeBits s.arch bits = .ok (a', out)) :
    exec i s = .next ⟨a', s.ports.answered 0x00#8 0#56 [] out⟩ := by
  have hreply : commandBody i s.arch = .ok { respond a' 0#56 with os := out } := by rw [hbody, decodeReply, hd]
  rw [exec_ok hi hreply]
  rfl

section Dbit

variable {s : State} (bit : Bool)

theorem encode_dbit : encode (.dbit bit) = 0x09#8 ++ 0#7 ++ BitVec.ofBool bit ++ 0#32 := by
  cases bit <;> rfl

/-- With a tree `DBIT` is one `DecodeBit`. -/
theorem exec_dbit_accepted {a' : Arch} {out : List Symbol} (hm : s.arch.mode = .run) (ht : s.arch.tstate = .valid)
    (hd : decodeBit s.arch bit = .ok (a', out)) :
    exec (.dbit bit) s = .next ⟨a', s.ports.answered 0x00#8 0#56 [] out⟩ :=
  have hseq : seqGuard (.dbit bit) s.arch = true := by simp [seqGuard, ht]
  exec_of_decodeBits (firstError_run hm hseq rfl) rfl (decodeBits_singleton hd)

theorem exec_dbit_seq (hm : s.arch.mode = .run) (ht : s.arch.tstate ≠ .valid) :
    exec (.dbit bit) s = .next (s.answerRefused (encode (.dbit bit)) Status.seq.code) :=
  have hseq : seqGuard (.dbit bit) s.arch = false := by simp [seqGuard, ht]
  exec_refused (firstError_seq (.inl hm) hseq)

theorem exec_dbit_faulted (hm : s.arch.mode = .fault) :
    exec (.dbit bit) s = .next (s.answerRefused (encode (.dbit bit)) Status.faulted.code) :=
  exec_refused (firstError_faulted hm rfl)

end Dbit

/-- Settles O39: the invariants put the cursor on an internal node of a tree, whose two children are nodes; the guards answer the
rest. -/
theorem dbitWalksOneEdge : Obligations.DbitWalksOneEdge := by
  intro bit s
  rw [← encode_dbit]
  refine ⟨fun hinv hm ht => ?_, exec_dbit_seq bit, exec_dbit_faulted bit⟩
  have hdec := hinv.canDecode ht
  obtain ⟨w, l, r, hcur⟩ := hdec.cursor
  obtain ⟨n, hchild⟩ := hdec.shape.exists_child hcur bit
  refine ⟨w, l, r, n, hcur, hchild, fun sym w' hn => ?_, fun hn => ?_⟩
  · exact exec_dbit_accepted bit hm ht (decodeBit_leaf hcur (hn ▸ hchild))
  · cases n with
    | leaf => cases hn
    | internal => exact exec_dbit_accepted bit hm ht (decodeBit_internal hcur hchild)

/-- The state once `n` bits, which decode to `a` and `out`, are answered by one response each. -/
def State.decoded (s : State) (a : Arch) (out : List Symbol) (n : Nat) : State where
  arch := a
  ports := { s.ports with rsp := s.ports.rsp ++ List.replicate n 0#64, os := s.ports.os ++ out }

theorem decoded_decoded (s : State) (a a' : Arch) (out out' : List Symbol) (m n : Nat) :
    (s.decoded a out m).decoded a' out' n = s.decoded a' (out ++ out') (m + n) := by
  simp [State.decoded]

/-- `DBIT` of every bit does what the run of the bits does. -/
theorem execAll_decb {p : List Bool} {s : State} {a' : Arch} {out : List Symbol} (hm : s.arch.mode = .run)
    (ht : s.arch.tstate = .valid) (hd : decodeBits s.arch p = .ok (a', out)) :
    execAll (decb p) s = .next (s.decoded a' out p.length) := by
  induction p generalizing s out with
  | nil =>
    cases hd
    simp [decb, execAll, State.decoded]
  | cons b p ih =>
    obtain ⟨a₁, out₁, out₂, hb, hp, rfl⟩ := decodeBits_cons_eq_ok_iff.mp hd
    have hframe := decodeBits_frame (decodeBits_singleton hb)
    have hexec : exec (.dbit b) s = .next (s.decoded a₁ out₁ 1) := by
      rw [exec_dbit_accepted b hm ht hb]
      simp [State.decoded, Ports.answered]
    calc execAll (decb (b :: p)) s
        = execAll (decb p) (s.decoded a₁ out₁ 1) := execAll_cons_next hexec
      _ = .next ((s.decoded a₁ out₁ 1).decoded a' out₂ p.length) := by
        refine ih ?_ ?_ hp <;> rw [State.decoded, hframe] <;> assumption
      _ = .next (s.decoded a' (out₁ ++ out₂) (b :: p).length) := by
        rw [decoded_decoded, List.length_cons, Nat.add_comm]

section Dbyte

variable {s : State} (byte : Byte) (nbits : BitVec 4)

theorem encode_dbyte : encode (.dbyte byte nbits) = 0x0A#8 ++ byte ++ 0#28 ++ nbits :=
  (BitVec.append_assoc (x₁ := 0x0A#8 ++ byte) (x₂ := 0#28) (x₃ := nbits)).symm

theorem rangeGuard_dbyte (a : Arch) :
    rangeGuard (.dbyte byte nbits) a = true ↔ 1 ≤ nbits.toNat ∧ nbits.toNat ≤ 8 := by
  simp [rangeGuard]

theorem length_streamBits : (streamBits byte nbits).length = nbits.toNat := by
  simp [streamBits]

/-- With a tree and 1 to 8 bits, `DBYTE` is `DecodeBit` of each of them. -/
theorem exec_dbyte_accepted {a' : Arch} {out : List Symbol} (hm : s.arch.mode = .run) (ht : s.arch.tstate = .valid)
    (hn : 1 ≤ nbits.toNat ∧ nbits.toNat ≤ 8) (hd : decodeBits s.arch (streamBits byte nbits) = .ok (a', out)) :
    exec (.dbyte byte nbits) s = .next ⟨a', s.ports.answered 0x00#8 0#56 [] out⟩ :=
  have hseq : seqGuard (.dbyte byte nbits) s.arch = true := by simp [seqGuard, ht]
  exec_of_decodeBits (firstError_run hm hseq ((rangeGuard_dbyte byte nbits s.arch).mpr hn)) rfl hd

theorem exec_dbyte_range (hm : s.arch.mode = .run) (ht : s.arch.tstate = .valid)
    (hn : nbits.toNat = 0 ∨ 9 ≤ nbits.toNat) :
    exec (.dbyte byte nbits) s = .next (s.answerRefused (encode (.dbyte byte nbits)) Status.range.code) :=
  have hseq : seqGuard (.dbyte byte nbits) s.arch = true := by simp [seqGuard, ht]
  have hrange : rangeGuard (.dbyte byte nbits) s.arch = false :=
    Bool.eq_false_iff.mpr fun h => by have := (rangeGuard_dbyte byte nbits s.arch).mp h; omega
  exec_refused (firstError_range (.inl hm) hseq hrange)

theorem exec_dbyte_seq (hm : s.arch.mode = .run) (ht : s.arch.tstate ≠ .valid) :
    exec (.dbyte byte nbits) s = .next (s.answerRefused (encode (.dbyte byte nbits)) Status.seq.code) :=
  have hseq : seqGuard (.dbyte byte nbits) s.arch = false := by simp [seqGuard, ht]
  exec_refused (firstError_seq (.inl hm) hseq)

theorem exec_dbyte_faulted (hm : s.arch.mode = .fault) :
    exec (.dbyte byte nbits) s = .next (s.answerRefused (encode (.dbyte byte nbits)) Status.faulted.code) :=
  exec_refused (firstError_faulted hm rfl)

end Dbyte

/-- Settles O40: in a tree the run of the byte's bits ends, and both the one `DBYTE` and the `DBIT` commands leave what it leaves;
the guards answer the rest. -/
theorem dbyteIsItsDbits : Obligations.DbyteIsItsDbits := by
  intro byte nbits s
  rw [← encode_dbyte]
  refine ⟨fun hinv hm ht h1 h8 => ?_, exec_dbyte_range byte nbits, exec_dbyte_seq byte nbits, exec_dbyte_faulted byte nbits⟩
  obtain ⟨a', out, hd, -, hlen⟩ := (hinv.canDecode ht).exists_decodeBits (streamBits byte nbits)
  have hframe := decodeBits_frame hd
  rw [length_streamBits] at hlen hframe
  rw [BitVec.ofNat_toNat] at hframe
  refine ⟨_, out, execAll_decb hm ht hd, allOk_of_rsp rfl, rfl, rfl, hlen.trans h8, ?_, hframe⟩
  exact exec_dbyte_accepted byte nbits hm ht ⟨h1, h8⟩ hd

end Sys2Proof.Machine
end

section
/-! SUPPORT. Readback (spec/45_readback.md R181 to R185): which guard each read has, what data it answers when no guard fails,
and how the fields of that data lie in the response. `FAULT` mode serves every read, so no lemma here names the mode. -/

namespace Sys2Proof.Machine

/-! ### Fields of a data word

The layouts of R38, R182 and R184 put fields together from the top down. A field is found by passing those below it. -/

section Fields

variable {a b c : Nat} (x : BitVec a) (y : BitVec b) (z : BitVec c)

/-- Above the lowest field lies what was put above it. -/
theorem extractLsb'_append_add (i len : Nat) : (x ++ y).extractLsb' (i + b) len = x.extractLsb' i len := by
  rw [BitVec.extractLsb'_append_eq_of_le (Nat.le_add_left b i), Nat.add_sub_cancel]

theorem getLsbD_append_add (i : Nat) : (x ++ y).getLsbD (i + b) = x.getLsbD i := by
  rw [BitVec.getLsbD_append, if_neg (by omega), Nat.add_sub_cancel]

/-- The lowest field but one. -/
theorem extractLsb'_append_mid : (x ++ y ++ z).extractLsb' c b = y := by
  rw [BitVec.extractLsb'_append_eq_of_le le_rfl, Nat.sub_self, BitVec.extractLsb'_append_eq_right]

/-- A flag put just above the lowest field. -/
theorem getLsbD_append_flag (flag : Bool) : (x ++ BitVec.ofBool flag ++ z).getLsbD c = flag := by
  rw [BitVec.getLsbD_append, if_neg (Nat.lt_irrefl c), Nat.sub_self, BitVec.getLsbD_append, if_pos Nat.one_pos]
  simp

end Fields

/-! ### `RDF` (R181) -/

/-- R181: `RDF` has no guard of its own. -/
theorem exec_rdf (sym : Symbol) (s : State) :
    exec (.rdf sym) s =
      .next ⟨s.arch, s.ports.answered 0x00#8 ((freqRead s.arch.freq sym.toNat).setWidth 56) [] []⟩ :=
  exec_respond (firstError_served rfl rfl rfl) rfl

/-- Settles O45: the frame of the commands lets `RDF` through in every state. -/
theorem rdfReadsTheEntry : Obligations.RdfReadsTheEntry :=
  fun sym s => ⟨rfl, exec_rdf sym s⟩

/-! ### `RDNL` and `RDNW` (R182, R183) -/

/-- Below `NNODES` every entry of `NODE` holds a value. -/
theorem Arch.Inv.exists_node {a : Arch} (h : a.Inv) {i : Nat} (hi : i < a.nnodes.toNat) : ∃ n, a.node[i]? = some n :=
  ⟨_, List.getElem?_eq_getElem (h.nodesHeld ▸ hi)⟩

section NodeReads

variable {s : State} {idx : NodeIdx}

/-- A command that reads a node answers its view of that node. -/
theorem exec_of_nodeReply {i : Instr} {view : Node → RspData} {n : Node} (hguard : firstError i s.arch = none)
    (hbody : commandBody i s.arch = nodeReply idx view s.arch) (hn : s.arch.node[idx.toNat]? = some n) :
    exec i s = .next ⟨s.arch, s.ports.answered 0x00#8 (view n) [] []⟩ :=
  exec_respond hguard (by rw [hbody, nodeReply, nodeRead_ok.mpr hn])

theorem exec_rdnl_accepted {n : Node} (hi : idx.toNat < s.arch.nnodes.toNat) (hn : s.arch.node[idx.toNat]? = some n) :
    exec (.rdnl idx) s = .next ⟨s.arch, s.ports.answered 0x00#8 (nodeLinks n) [] []⟩ :=
  have hrange : rangeGuard (.rdnl idx) s.arch = true := decide_eq_true hi
  exec_of_nodeReply (firstError_served rfl rfl hrange) rfl hn

theorem exec_rdnw_accepted {n : Node} (hi : idx.toNat < s.arch.nnodes.toNat) (hn : s.arch.node[idx.toNat]? = some n) :
    exec (.rdnw idx) s = .next ⟨s.arch, s.ports.answered 0x00#8 (n.weight.setWidth 56) [] []⟩ :=
  have hrange : rangeGuard (.rdnw idx) s.arch = true := decide_eq_true hi
  exec_of_nodeReply (view := fun n => n.weight.setWidth 56) (firstError_served rfl rfl hrange) rfl hn

theorem exec_rdnl_range (hi : s.arch.nnodes.toNat ≤ idx.toNat) :
    exec (.rdnl idx) s = .next (s.answerRefused (encode (.rdnl idx)) Status.range.code) :=
  exec_refused (firstError_range (.inr rfl) rfl (decide_eq_false hi.not_gt))

theorem exec_rdnw_range (hi : s.arch.nnodes.toNat ≤ idx.toNat) :
    exec (.rdnw idx) s = .next (s.answerRefused (encode (.rdnw idx)) Status.range.code) :=
  exec_refused (firstError_range (.inr rfl) rfl (decide_eq_false hi.not_gt))

end NodeReads

/-- Format `I` (R81): the bits between the opcode and the index are the reserved ones of two fields. -/
theorem formatI_word (op : BitVec 8) (idx : NodeIdx) : op ++ 0#8 ++ (0#23 ++ idx) = op ++ 0#31 ++ idx := by
  have hzero : 0#8 ++ (0#23 ++ idx) = 0#31 ++ idx :=
    (BitVec.append_assoc (x₁ := 0#8) (x₂ := 0#23) (x₃ := idx)).symm
  calc op ++ 0#8 ++ (0#23 ++ idx) = op ++ (0#8 ++ (0#23 ++ idx)) := BitVec.append_assoc
    _ = op ++ (0#31 ++ idx) := by rw [hzero]
    _ = op ++ 0#31 ++ idx := (BitVec.append_assoc (x₂ := 0#31)).symm

theorem encode_rdnl (idx : NodeIdx) : encode (.rdnl idx) = 0x11#8 ++ 0#31 ++ idx := formatI_word 0x11#8 idx

theorem encode_rdnw (idx : NodeIdx) : encode (.rdnw idx) = 0x12#8 ++ 0#31 ++ idx := formatI_word 0x12#8 idx

/-! The data field of `RDNL`, from the top down: zeros, right, left, symbol, leaf bit (R182). -/

/-- The fields of what `RDNL` answers, one node's right, left, symbol and leaf bit put together. -/
def linksWord (right left : NodeIdx) (sym : Symbol) (leaf : BitVec 1) : RspData := 0#29 ++ right ++ left ++ sym ++ leaf

section LinksWord

variable (right left : NodeIdx) (sym : Symbol) (leaf : BitVec 1)

theorem nodeLinks_leaf (w : Weight) : nodeLinks (.leaf sym w) = linksWord 0#9 0#9 sym 1#1 := rfl

theorem nodeLinks_internal (w : Weight) : nodeLinks (.internal w left right) = linksWord right left 0#8 0#1 := rfl

theorem linksWord_zeros : (linksWord right left sym leaf).extractLsb' 27 29 = 0#29 :=
  (extractLsb'_append_add _ leaf 26 29).trans <| (extractLsb'_append_add _ sym 18 29).trans <|
    (extractLsb'_append_add _ left 9 29).trans BitVec.extractLsb'_append_eq_left

theorem linksWord_leaf : (linksWord right left sym leaf).getLsbD 0 = leaf.getLsbD 0 :=
  BitVec.getLsbD_append.trans (if_pos Nat.one_pos)

theorem linksWord_sym : (linksWord right left sym leaf).extractLsb' 1 8 = sym :=
  extractLsb'_append_mid (0#29 ++ right ++ left) sym leaf

theorem linksWord_left : (linksWord right left sym leaf).extractLsb' 9 9 = left :=
  (extractLsb'_append_add _ leaf 8 9).trans (extractLsb'_append_mid (0#29 ++ right) left sym)

theorem linksWord_right : (linksWord right left sym leaf).extractLsb' 18 9 = right :=
  (extractLsb'_append_add _ leaf 17 9).trans <| (extractLsb'_append_add _ sym 9 9).trans <|
    extractLsb'_append_mid 0#29 right left

theorem linksWord_fields :
    (linksWord right left sym leaf).getLsbD 0 = leaf.getLsbD 0
      ∧ (linksWord right left sym leaf).extractLsb' 1 8 = sym
      ∧ (linksWord right left sym leaf).extractLsb' 9 9 = left
      ∧ (linksWord right left sym leaf).extractLsb' 18 9 = right :=
  ⟨linksWord_leaf right left sym leaf, linksWord_sym right left sym leaf, linksWord_left right left sym leaf,
    linksWord_right right left sym leaf⟩

end LinksWord

/-- Settles O46: an index below `NNODES` has a node, whose two shapes are two ways to fill the fields of `linksWord`; above it
the range guard answers. -/
theorem rdnlReadsShapeAndLinks : Obligations.RdnlReadsShapeAndLinks := by
  intro idx s
  rw [← encode_rdnl]
  refine ⟨fun hinv hi => ?_, exec_rdnl_range⟩
  obtain ⟨n, hn⟩ := hinv.exists_node hi
  refine ⟨n, nodeLinks n, hn, exec_rdnl_accepted hi hn, ?_, ?_, ?_⟩
  · cases n with
    | leaf sym w => rw [nodeLinks_leaf, linksWord_zeros]
    | internal w l r => rw [nodeLinks_internal, linksWord_zeros]
  · rintro sym w rfl
    rw [nodeLinks_leaf]
    exact linksWord_fields 0#9 0#9 sym 1#1
  · rintro w l r rfl
    rw [nodeLinks_internal]
    exact linksWord_fields r l 0#8 0#1

/-- The 40 bits of a weight fit the data field. -/
theorem toNat_weight_data {nodes : List Node} {i : Nat} {n : Node} (hn : nodes[i]? = some n) :
    (n.weight.setWidth 56).toNat = weightAt nodes i := by
  rw [BitVec.toNat_setWidth_of_le (by decide), weightAt, hn]
  rfl

/-- Settles O47: an index below `NNODES` has a node, whose weight the zero extension keeps; above it the range guard answers. -/
theorem rdnwReadsTheWeight : Obligations.RdnwReadsTheWeight := by
  intro idx s
  rw [← encode_rdnw]
  refine ⟨fun hinv hi => ?_, exec_rdnw_range⟩
  obtain ⟨n, hn⟩ := hinv.exists_node hi
  exact ⟨n, _, hn, exec_rdnw_accepted hi hn, toNat_weight_data hn⟩

/-! ### `RDC` (R184) -/

section Rdc

variable (sym : Symbol) (k : BitVec 3) {s : State}

theorem encode_rdc : encode (.rdc sym k) = 0x13#8 ++ sym ++ 0#29 ++ k :=
  (BitVec.append_assoc (x₁ := 0x13#8 ++ sym) (x₂ := 0#29) (x₃ := k)).symm

/-- Once the code table is derived, `RDC` reads its entry, present or absent. -/
theorem exec_rdc_accepted {entry : Option BitString} (hc : s.arch.cvalid = true)
    (hentry : codeRead s.arch.code sym.toNat = entry) :
    exec (.rdc sym k) s = .next ⟨s.arch, s.ports.answered 0x00#8 (codeReadout entry k) [] []⟩ :=
  exec_respond (firstError_served rfl hc rfl) (by rw [← hentry]; rfl)

theorem exec_rdc_seq (hc : s.arch.cvalid = false) :
    exec (.rdc sym k) s = .next (s.answerRefused (encode (.rdc sym k)) Status.seq.code) :=
  exec_refused (firstError_seq (.inr rfl) hc)

end Rdc

/-- The chunk's leftmost bit is its first (R184). -/
theorem codeChunk_bit (p : BitString) (k : BitVec 3) {j : Nat} (hj : j < 32) :
    (codeChunk p k).getLsbD (31 - j) = p.getD (32 * k.toNat + j) false := by
  have hlt : 31 - j < 32 := by omega
  have hback : 31 - (31 - j) = j := by omega
  simp [codeChunk, codeVectorBit, hlt, hback]

section Readout

variable (p : BitString) (k : BitVec 3)

theorem codeReadout_zeros : (codeReadout (some p) k).extractLsb' 40 16 = 0#16 :=
  (extractLsb'_append_add _ (codeChunk p k) 8 16).trans BitVec.extractLsb'_append_eq_left

theorem codeReadout_length : (codeReadout (some p) k).extractLsb' 32 8 = BitVec.ofNat 8 p.length :=
  extractLsb'_append_mid 0#16 (BitVec.ofNat 8 p.length) (codeChunk p k)

theorem codeReadout_bit {i : Nat} (hi : i < 32) : (codeReadout (some p) k).getLsbD i = (codeChunk p k).getLsbD i :=
  BitVec.getLsbD_append.trans (if_pos hi)

end Readout

/-- Settles O48: an absent entry reads as no data, and of a present one the length fits its 8 bits. -/
theorem rdcReadsLengthAndChunk : Obligations.RdcReadsLengthAndChunk := by
  intro sym k s
  rw [← encode_rdc]
  refine ⟨fun hc habsent => exec_rdc_accepted sym k hc habsent, fun hc p hp hlen => ?_, exec_rdc_seq sym k⟩
  refine ⟨_, exec_rdc_accepted sym k hc hp, codeReadout_zeros p k, ?_, fun j hj => ?_⟩
  · rw [codeReadout_length, BitVec.toNat_ofNat, Nat.mod_eq_of_lt (by omega)]
  · rw [codeReadout_bit p k (by omega), codeChunk_bit p k hj]

/-! ### `RDS` (R185) -/

/-- Every number in the range of `RDS` names a register (R37). -/
theorem exists_csr (a : Arch) {n : Nat} (hn : n ≤ 12) : ∃ data, csr a n = some data := by
  interval_cases n <;> exact ⟨_, rfl⟩

section Rds

variable {n : BitVec 8} {s : State}

theorem exec_rds_accepted {data : RspData} (hn : n.toNat ≤ 12) (hdata : csr s.arch n.toNat = some data) :
    exec (.rds n) s = .next ⟨s.arch, s.ports.answered 0x00#8 data [] []⟩ :=
  exec_respond (firstError_served rfl rfl (decide_eq_true hn)) (by simp only [commandBody, hdata])

theorem exec_rds_range (hn : 13 ≤ n.toNat) :
    exec (.rds n) s = .next (s.answerRefused (encode (.rds n)) Status.range.code) :=
  exec_refused (firstError_range (.inr rfl) rfl (decide_eq_false (Nat.not_le_of_lt hn)))

end Rds

/-! The fields of `STATUS` (R38). -/

section StatusWord

variable (a : Arch)

theorem statusWord_tstate : (statusWord a).extractLsb' 0 2 = a.tstate.bits := BitVec.extractLsb'_append_eq_right

theorem statusWord_cvalid : (statusWord a).getLsbD 2 = a.cvalid :=
  getLsbD_append_flag _ a.tstate.bits a.cvalid

theorem statusWord_fault : (statusWord a).getLsbD 3 = faultO a :=
  (getLsbD_append_add _ a.tstate.bits 1).trans (getLsbD_append_flag _ (BitVec.ofBool a.cvalid) (faultO a))

theorem statusWord_frame : (statusWord a).getLsbD 4 = a.frame :=
  (getLsbD_append_add _ a.tstate.bits 2).trans <| (getLsbD_append_add _ (BitVec.ofBool a.cvalid) 1).trans <|
    getLsbD_append_flag _ (BitVec.ofBool (faultO a)) a.frame

theorem statusWord_atRoot : (statusWord a).getLsbD 5 = atRoot a :=
  (getLsbD_append_add _ a.tstate.bits 3).trans <| (getLsbD_append_add _ (BitVec.ofBool a.cvalid) 2).trans <|
    (getLsbD_append_add _ (BitVec.ofBool (faultO a)) 1).trans <| getLsbD_append_flag 0#50 (BitVec.ofBool a.frame) (atRoot a)

theorem statusWord_zeros : (statusWord a).extractLsb' 6 50 = 0#50 :=
  (extractLsb'_append_add _ a.tstate.bits 4 50).trans <| (extractLsb'_append_add _ (BitVec.ofBool a.cvalid) 3 50).trans <|
    (extractLsb'_append_add _ (BitVec.ofBool (faultO a)) 2 50).trans <|
    (extractLsb'_append_add _ (BitVec.ofBool a.frame) 1 50).trans BitVec.extractLsb'_append_eq_left

end StatusWord

theorem faultO_eq_true_iff {a : Arch} : faultO a = true ↔ a.mode = .fault := by
  simp [faultO]

/-- A register of at most 56 bits is read whole. -/
theorem toNat_of_zeroExtended {w : Nat} {v : BitVec w} {data : RspData} (hw : w ≤ 56)
    (h : some (v.setWidth 56) = some data) : data.toNat = v.toNat := by
  cases h
  exact BitVec.toNat_setWidth_of_le hw

/-- Register 7 holds `NACC` above the 8 bits of `ACC` (R37). -/
theorem toNat_encoderRegister (nacc : BitVec 3) (acc : Byte) :
    (0#1 ++ nacc ++ acc).toNat = 256 * nacc.toNat + acc.toNat := by
  rw [BitVec.toNat_append, BitVec.toNat_append, ← Nat.shiftLeft_add_eq_or_of_lt acc.isLt, Nat.shiftLeft_eq]
  simp [Nat.mul_comm]

/-- Settles O49: every number up to 12 names a register, which the data field holds whole; the range guard answers the rest. -/
theorem rdsReadsTheRegister : Obligations.RdsReadsTheRegister := by
  intro n s
  refine ⟨fun hn => ?_, exec_rds_range⟩
  obtain ⟨data, hdata⟩ := exists_csr s.arch hn
  refine ⟨data, exec_rds_accepted hn hdata, ?status, ?id, ?_, ?_, ?_, ?_, ?_, ?enc, ?_, ?_, ?_, ?_, ?_⟩
  case status =>
    rintro rfl
    cases hdata
    rw [statusWord_fault, statusWord_atRoot]
    exact ⟨statusWord_zeros s.arch, statusWord_tstate s.arch, statusWord_cvalid s.arch, faultO_eq_true_iff,
      statusWord_frame s.arch, atRoot_eq_true_iff⟩
  case id =>
    rintro rfl
    cases hdata
    rfl
  case enc =>
    rintro rfl
    exact (toNat_of_zeroExtended (by decide) hdata).trans (toNat_encoderRegister s.arch.nacc s.arch.acc)
  all_goals
    rintro rfl
    exact toNat_of_zeroExtended (by decide) hdata

end Sys2Proof.Machine
end

section
/-! SUPPORT. The shape of every built tree (spec/41_tree_builder.md R118, R119, spec/46_laws.md R190): the loop of R112 works on a
forest whose roots are the indices in `Q`, and ends with one tree. -/

namespace Sys2Proof.Machine

/-! ### The forest of the loop (R112) -/

/-- Some trees in one node table, their roots the indices in `q`: what every turn of the loop keeps. -/
structure Forest (nodes : List Node) (q : Finset Nat) : Prop where
  /-- Both children of an internal node are below it (R119). -/
  childrenBelow : ∀ (i : Nat) (w : Weight) (l r : NodeIdx), nodes[i]? = some (.internal w l r) → l.toNat < i ∧ r.toNat < i
  /-- Every index is a root, or the child of exactly one node, once. -/
  owned : (nodes.flatMap Node.children : Multiset Nat) + q.val = Multiset.range nodes.length
  /-- An internal node's weight is the exact sum of its children's. -/
  weightsAdd : ∀ (i : Nat) (w : Weight) (l r : NodeIdx), nodes[i]? = some (.internal w l r) →
    w.toNat = weightAt nodes l.toNat + weightAt nodes r.toNat
  /-- As many internal nodes fewer than leaves as there are trees. -/
  leafCount : nodes.countP Node.isLeaf = (nodes.countP fun n => !n.isLeaf) + q.card

theorem not_internal_of_leaves {nodes : List Node} (h : ∀ n ∈ nodes, n.isLeaf = true) {i : Nat} {w : Weight}
    {l r : NodeIdx} : nodes[i]? ≠ some (.internal w l r) :=
  fun hi => nomatch h _ (List.mem_of_getElem? hi)

theorem children_of_isLeaf {n : Node} (h : n.isLeaf = true) : n.children = [] := by
  cases n with
  | leaf => rfl
  | internal => cases h

theorem isLeaf_internal (w : Weight) (l r : NodeIdx) : (Node.internal w l r).isLeaf = false := rfl

/-- Before the first turn every leaf is a tree. -/
theorem forest_of_leaves {nodes : List Node} (h : ∀ n ∈ nodes, n.isLeaf = true) :
    Forest nodes (Finset.range nodes.length) where
  childrenBelow _ _ _ _ hi := absurd hi (not_internal_of_leaves h)
  owned := by
    have hnone : nodes.flatMap Node.children = [] :=
      List.flatMap_eq_nil_iff.mpr fun n hn => children_of_isLeaf (h n hn)
    rw [hnone, Finset.range_val]
    exact zero_add _
  weightsAdd _ _ _ _ hi := absurd hi (not_internal_of_leaves h)
  leafCount := by
    have hnone : (nodes.countP fun n => !n.isLeaf) = 0 := List.countP_eq_zero.mpr fun n hn => by simp [h n hn]
    rw [List.countP_eq_length.mpr h, hnone, Finset.card_range, Nat.zero_add]

namespace Forest

variable {nodes : List Node} {q : Finset Nat}

theorem root_lt (h : Forest nodes q) {i : Nat} (hi : i ∈ q) : i < nodes.length := by
  have hmem : i ∈ (nodes.flatMap Node.children : Multiset Nat) + q.val := Multiset.mem_add.mpr (.inr hi)
  rwa [h.owned, Multiset.mem_range] at hmem

theorem child_lt (h : Forest nodes q) {i : Nat} (hi : i ∈ nodes.flatMap Node.children) : i < nodes.length - 1 := by
  obtain ⟨n, hn, hc⟩ := List.mem_flatMap.mp hi
  obtain ⟨k, hk, rfl⟩ := List.mem_iff_getElem.mp hn
  cases hnode : nodes[k] with
  | leaf => simp [hnode, Node.children] at hc
  | internal w l r =>
    obtain ⟨hl, hr⟩ := h.childrenBelow k w l r (hnode ▸ List.getElem?_eq_getElem hk)
    have hlr : i = l.toNat ∨ i = r.toNat := by simpa [hnode, Node.children] using hc
    omega

/-- The last node is nobody's child. -/
theorem last_mem (h : Forest nodes q) (hne : nodes ≠ []) : nodes.length - 1 ∈ q := by
  have hpos := List.length_pos_of_ne_nil hne
  have hmem : nodes.length - 1 ∈ (nodes.flatMap Node.children : Multiset Nat) + q.val := by
    rw [h.owned, Multiset.mem_range]
    omega
  rcases Multiset.mem_add.mp hmem with hchild | hroot
  · exact absurd (h.child_lt hchild) (Nat.lt_irrefl _)
  · exact hroot

/-- One turn joins two trees under a new root (R112). -/
theorem turn (h : Forest nodes q) {x y : Nat} {w : Weight} {l r : NodeIdx} (hx : x ∈ q) (hy : y ∈ q.erase x)
    (hw : w.toNat = weightAt nodes x + weightAt nodes y) (hl : l.toNat = x) (hr : r.toNat = y) :
    Forest (nodes ++ [.internal w l r]) (insert nodes.length ((q.erase x).erase y)) := by
  have hxlt := h.root_lt hx
  have hylt := h.root_lt (Finset.mem_of_mem_erase hy)
  have hnew : nodes.length ∉ (q.erase x).erase y := fun hmem =>
    absurd (h.root_lt (Finset.mem_of_mem_erase (Finset.mem_of_mem_erase hmem))) (Nat.lt_irrefl _)
  subst hl hr
  have hsplit : q.val = l.toNat ::ₘ r.toNat ::ₘ ((q.erase l.toNat).erase r.toNat).val := by
    rw [Finset.erase_val _ r.toNat, Multiset.cons_erase hy, Finset.erase_val, Multiset.cons_erase hx]
  have hcard : q.card = ((q.erase l.toNat).erase r.toNat).card + 2 := by
    rw [← Finset.card_erase_add_one hx, ← Finset.card_erase_add_one hy]
  refine ⟨fun i w' l' r' hi => ?_, ?_, fun i w' l' r' hi => ?_, ?_⟩
  · rcases getElem?_append_singleton_cases hi with hi | ⟨rfl, hn⟩
    · exact h.childrenBelow i w' l' r' hi
    · obtain ⟨-, rfl, rfl⟩ := Node.internal.inj hn
      exact ⟨hxlt, hylt⟩
  · have howned := h.owned
    rw [hsplit] at howned
    have hpair : (([.internal w l r] : List Node).flatMap Node.children : Multiset Nat) = {l.toNat, r.toNat} := rfl
    rw [Finset.insert_val_of_notMem hnew, List.length_append, List.length_singleton, Multiset.range_succ, ← howned,
      List.flatMap_append, ← Multiset.coe_add, hpair, Multiset.insert_eq_cons]
    simp only [← Multiset.singleton_add]
    abel
  · rcases getElem?_append_singleton_cases hi with hi | ⟨rfl, hn⟩
    · obtain ⟨hl', hr'⟩ := h.childrenBelow i w' l' r' hi
      have hlt := (List.getElem?_eq_some_iff.mp hi).1
      rw [weightAt_append _ (hl'.trans hlt), weightAt_append _ (hr'.trans hlt)]
      exact h.weightsAdd i w' l' r' hi
    · obtain ⟨rfl, rfl, rfl⟩ := Node.internal.inj hn
      rw [weightAt_append _ hxlt, weightAt_append _ hylt, hw]
  · have hcount := h.leafCount
    rw [hcard] at hcount
    rw [Finset.card_insert_of_notMem hnew]
    simp only [List.countP_append, List.countP_singleton, isLeaf_internal, Bool.not_false, if_true, Bool.false_eq_true,
      if_false]
    omega

/-- One tree with an internal root is a tree in the sense of R190. -/
theorem treeShape (h : Forest nodes q) (hone : q.card ≤ 1)
    (hlast : ∃ w l r, nodes[nodes.length - 1]? = some (.internal w l r)) : TreeShape nodes := by
  obtain ⟨w, l, r, hroot⟩ := hlast
  have hpos : nodes.length - 1 < nodes.length := (List.getElem?_eq_some_iff.mp hroot).1
  have hmem : nodes.length - 1 ∈ q := h.last_mem (List.ne_nil_of_length_pos (by omega))
  have hq : q = {nodes.length - 1} :=
    Finset.eq_singleton_iff_unique_mem.mpr ⟨hmem, fun i hi => Finset.card_le_one.mp hone i hi _ hmem⟩
  subst hq
  refine ⟨h.childrenBelow, ⟨w, l, r, hroot⟩, ?_, h.weightsAdd, h.leafCount⟩
  have hrange : Multiset.range nodes.length = (nodes.length - 1) ::ₘ Multiset.range (nodes.length - 1) := by
    rw [← Multiset.range_succ, Nat.succ_eq_add_one, Nat.sub_add_cancel (by omega)]
  have howned := h.owned
  rw [hrange, Finset.singleton_val, add_comm, Multiset.singleton_add, Multiset.cons_inj_right] at howned
  exact Multiset.coe_eq_coe.mp howned

end Forest

/-- The loop ends with one tree. -/
theorem MergeRun.forest {nodes out : List Node} {q : Finset Nat} (run : MergeRun nodes q out) (h : Forest nodes q) :
    ∃ q', Forest out q' ∧ q'.card ≤ 1 := by
  induction run with
  | stop nodes q hstop => exact ⟨q, h, hstop⟩
  | turn nodes q x y w l r out hx hy hw hl hr _ ih => exact ih (h.turn hx.1 hy.1 hw hl hr)

/-! ### The tree of a map with a key -/

theorem doubleLone_leaves_length (freq : Memory Count) (h : 1 ≤ keyCount freq) :
    (doubleLone (leaves freq)).length = max 2 (keyCount freq) := by
  rw [← leaves_length] at h ⊢
  match leaves freq, h with
  | [n], _ => rfl
  | a :: b :: rest, _ => simp [doubleLone]

theorem buildTree_length (freq : Memory Count) :
    (buildTree freq).1.length =
      (doubleLone (leaves freq)).length + ((doubleLone (leaves freq)).length - 1) := by
  have hlen : (collection (doubleLone (leaves freq))).length = (doubleLone (leaves freq)).length := by
    simp [collection]
  rw [buildTree, merge_length _ _ _ hlen.le, hlen]

/-- The nodes are the leaves of step 2 and internal ones after them. -/
theorem buildTree_eq_append (freq : Memory Count) :
    ∃ inner, (buildTree freq).1 = doubleLone (leaves freq) ++ inner ∧ ∀ n ∈ inner, n.isLeaf = false := by
  obtain ⟨inner, hinner⟩ := merge_prefix (doubleLone (leaves freq)).length (doubleLone (leaves freq))
    (collection (doubleLone (leaves freq)))
  refine ⟨inner, hinner.symm, fun n hn => ?_⟩
  obtain ⟨k, hk⟩ := List.getElem?_of_mem hn
  have hfrom := (mergeRun_buildTree freq).internalFrom (internalFrom_length _)
  refine hfrom ((doubleLone (leaves freq)).length + k) n (Nat.le_add_right _ _) ?_
  rw [buildTree, ← hinner, List.getElem?_append_right (Nat.le_add_right _ _), Nat.add_sub_cancel_left, hk]

/-- R190 (a) to (d): the builder makes a tree of any map with a key. -/
theorem treeShape_buildTree {freq : Memory Count} (h : 1 ≤ keyCount freq) : TreeShape (buildTree freq).1 := by
  have hstart : Forest (doubleLone (leaves freq)) (Finset.range (doubleLone (leaves freq)).length) :=
    forest_of_leaves fun n hn => (mem_doubleLone_leaves hn).1
  obtain ⟨q, hforest, hone⟩ := (mergeRun_buildTree freq).forest hstart
  refine hforest.treeShape hone ?_
  have hlen := buildTree_length freq
  have htwo : 2 ≤ (doubleLone (leaves freq)).length := by rw [doubleLone_leaves_length freq h]; omega
  have hget := List.getElem?_eq_getElem (l := (buildTree freq).1) (i := (buildTree freq).1.length - 1) (by omega)
  have hinner := (mergeRun_buildTree freq).internalFrom (internalFrom_length _) _ _ (by omega) hget
  cases hnode : (buildTree freq).1[(buildTree freq).1.length - 1] with
  | leaf => rw [hnode] at hinner; cases hinner
  | internal w l r => exact ⟨w, l, r, hnode ▸ hget⟩

/-- At most 256 leaves and one internal node fewer fit the node memory (R26). -/
theorem buildTree_length_le (freq : Memory Count) : (buildTree freq).1.length ≤ 511 := by
  have hlen := buildTree_length freq
  have hleaves := doubleLone_leaves_length_le freq
  have hkeys := keyCount_le freq
  omega

end Sys2Proof.Machine
end

section
/-! SUPPORT. Paths in a tree (spec/46_laws.md R190, R193, R194): every node has exactly one path from the root, it is no longer than
there are internal nodes, and nothing lies below a leaf. -/

namespace Sys2Proof.Machine

section Paths

variable {nodes : List Node} {i j : Nat} {p q : BitString}

theorem follow_append : follow nodes i (p ++ q) = (follow nodes i p).bind fun j => follow nodes j q := by
  induction p generalizing i with
  | nil => rfl
  | cons b p ih =>
    simp only [List.cons_append, follow]
    cases nodes[i]? with
    | none => rfl
    | some n =>
      cases n with
      | leaf => rfl
      | internal w l r => exact ih

/-- A path that is not empty ends with an edge from some internal node. -/
theorem follow_concat_eq_some_iff {b : Bool} : follow nodes i (p ++ [b]) = some j ↔
    ∃ k w l r, follow nodes i p = some k ∧ nodes[k]? = some (.internal w l r)
      ∧ (if b then r.toNat else l.toNat) = j := by
  rw [follow_append, Option.bind_eq_some_iff]
  refine exists_congr fun k => ?_
  cases hk : nodes[k]? with
  | none => simp [follow, hk]
  | some n => cases n <;> simp [follow, hk]

theorem leafBelow_append {sym : Symbol} (h : follow nodes i p = some j) :
    LeafBelow nodes i sym (p ++ q) ↔ LeafBelow nodes j sym q := by
  rw [LeafBelow, LeafBelow, follow_append, h]
  rfl

/-- R194: nothing lies below a leaf, so a leaf's path that begins another leaf's path is that path. -/
theorem LeafBelow.eq_of_prefix {x y : Symbol} (hx : LeafBelow nodes i x p) (hy : LeafBelow nodes i y q) (h : p <+: q) :
    x = y := by
  obtain ⟨rest, rfl⟩ := h
  obtain ⟨k, w, hk, hleaf⟩ := hx
  exact ((leafBelow_leaf hleaf).mp ((leafBelow_append hk).mp hy)).2.symm

end Paths

namespace TreeShape

variable {nodes : List Node} (h : TreeShape nodes)
include h

/-- A node below the root is the child of one node only, on one side. -/
theorem parent_unique {i i' : Nat} {w w' : Weight} {l r l' r' : NodeIdx} {b b' : Bool}
    (hi : nodes[i]? = some (.internal w l r)) (hi' : nodes[i']? = some (.internal w' l' r'))
    (hc : (if b then r.toNat else l.toNat) = if b' then r'.toNat else l'.toNat) : i = i' ∧ b = b' := by
  have hnodup : (nodes.flatMap Node.children).Nodup := h.ownedOnce.nodup_iff.mpr List.nodup_range
  obtain ⟨hsides, hnodes⟩ := List.nodup_flatMap.mp hnodup
  obtain ⟨hlt, hget⟩ := List.getElem?_eq_some_iff.mp hi
  obtain ⟨hlt', hget'⟩ := List.getElem?_eq_some_iff.mp hi'
  have hmem : (if b then r.toNat else l.toNat) ∈ nodes[i].children := by
    rw [hget]
    cases b <;> simp [Node.children]
  have hmem' : (if b then r.toNat else l.toNat) ∈ nodes[i'].children := by
    rw [hget', hc]
    cases b' <;> simp [Node.children]
  have hdisjoint := List.pairwise_iff_getElem.mp hnodes
  rcases lt_trichotomy i i' with hii | rfl | hii
  · exact absurd hmem' (hdisjoint i i' hlt hlt' hii hmem)
  · obtain ⟨-, rfl, rfl⟩ := Node.internal.inj (Option.some.inj (hi.symm.trans hi'))
    have hlr : l.toNat ≠ r.toNat := by simpa [Node.children] using hsides _ (List.mem_of_getElem? hi)
    refine ⟨rfl, ?_⟩
    cases b <;> cases b' <;> simp_all
  · exact absurd hmem (hdisjoint i' i hlt' hlt hii hmem')

/-- A child is not the root. -/
theorem child_lt_root {i : Nat} {w : Weight} {l r : NodeIdx} (hi : nodes[i]? = some (.internal w l r)) (b : Bool) :
    (if b then r.toNat else l.toNat) < nodes.length - 1 := by
  obtain ⟨hl, hr⟩ := h.childrenBelow i w l r hi
  have hlt := (List.getElem?_eq_some_iff.mp hi).1
  cases b <;> simp <;> omega

/-- From the root to a node there is one path at most. -/
theorem path_unique {p q : BitString} {j : Nat} (hp : follow nodes (nodes.length - 1) p = some j)
    (hq : follow nodes (nodes.length - 1) q = some j) : p = q := by
  have hroot : ∀ (b : Bool) (s : BitString), follow nodes (nodes.length - 1) (s ++ [b]) ≠ some (nodes.length - 1) := by
    intro b s hs
    obtain ⟨k, w, l, r, -, hk, hc⟩ := follow_concat_eq_some_iff.mp hs
    exact absurd hc (h.child_lt_root hk b).ne
  induction p using List.reverseRecOn generalizing q j with
  | nil =>
    obtain rfl : nodes.length - 1 = j := Option.some.inj hp
    cases q using List.reverseRecOn with
    | nil => rfl
    | append_singleton q b => exact absurd hq (hroot b q)
  | append_singleton p b ih =>
    cases q using List.reverseRecOn with
    | nil =>
      obtain rfl : nodes.length - 1 = j := Option.some.inj hq
      exact absurd hp (hroot b p)
    | append_singleton q b' =>
      obtain ⟨k, w, l, r, hpk, hk, rfl⟩ := follow_concat_eq_some_iff.mp hp
      obtain ⟨k', w', l', r', hqk, hk', hc⟩ := follow_concat_eq_some_iff.mp hq
      obtain ⟨rfl, rfl⟩ := h.parent_unique hk' hk hc
      rw [ih hpk hqk]

/-- Every node but the root has a parent. -/
theorem exists_parent {j : Nat} (hj : j < nodes.length - 1) :
    ∃ (i : Nat) (w : Weight) (l r : NodeIdx) (b : Bool),
      nodes[i]? = some (.internal w l r) ∧ (if b then r.toNat else l.toNat) = j := by
  have hmem : j ∈ nodes.flatMap Node.children := h.ownedOnce.mem_iff.mpr (List.mem_range.mpr hj)
  obtain ⟨n, hn, hc⟩ := List.mem_flatMap.mp hmem
  obtain ⟨i, hi⟩ := List.getElem?_of_mem hn
  cases n with
  | leaf => cases hc
  | internal w l r =>
    have hside : j = l.toNat ∨ j = r.toNat := by simpa [Node.children] using hc
    rcases hside with rfl | rfl
    · exact ⟨i, w, l, r, false, hi, rfl⟩
    · exact ⟨i, w, l, r, true, hi, rfl⟩

/-- Every node is reached from the root. -/
theorem exists_path {j : Nat} (hj : j < nodes.length) : ∃ p, follow nodes (nodes.length - 1) p = some j := by
  induction hd : nodes.length - j using Nat.strong_induction_on generalizing j with
  | _ d ih =>
    by_cases hroot : j = nodes.length - 1
    · exact ⟨[], congrArg some hroot.symm⟩
    · obtain ⟨i, w, l, r, b, hi, rfl⟩ := h.exists_parent (j := j) (by omega)
      have hlt := (List.getElem?_eq_some_iff.mp hi).1
      have hbelow := h.childrenBelow i w l r hi
      have hchild : (if b then r.toNat else l.toNat) < i := by cases b <;> simp [hbelow]
      obtain ⟨p, hp⟩ := ih (nodes.length - i) (by omega) hlt rfl
      exact ⟨p ++ [b], follow_concat_eq_some_iff.mpr ⟨i, w, l, r, hp, hi, rfl⟩⟩

/-- A way down passes internal nodes of ever smaller index. -/
theorem path_length_le {p : BitString} {i j : Nat} (hp : follow nodes i p = some j) :
    p.length ≤ (nodes.take (i + 1)).countP fun n => !n.isLeaf := by
  induction p generalizing i with
  | nil => exact Nat.zero_le _
  | cons b p ih =>
    cases hi : nodes[i]? with
    | none => simp [follow, hi] at hp
    | some n =>
      cases n with
      | leaf => simp [follow, hi] at hp
      | internal w l r =>
        simp only [follow, hi] at hp
        have hbelow := h.childrenBelow i w l r hi
        have hchild : (if b then r.toNat else l.toNat) + 1 ≤ i := by cases b <;> simp <;> omega
        have hmono := (List.take_prefix_take_left hchild (l := nodes)).sublist.countP_le (p := fun n => !n.isLeaf)
        have hlast : (nodes.take (i + 1)).countP (fun n => !n.isLeaf)
            = (nodes.take i).countP (fun n => !n.isLeaf) + 1 := by
          rw [List.take_add_one, hi, List.countP_append]
          rfl
        have := ih hp
        simp only [List.length_cons]
        omega

/-- The root is no leaf. -/
theorem leafPath_ne_nil {sym : Symbol} {p : BitString} (hp : LeafPath nodes sym p) : p ≠ [] := by
  rintro rfl
  obtain ⟨j, w, hfollow, hleaf⟩ := hp
  obtain ⟨w', l, r, hroot⟩ := h.rootInternal
  obtain rfl : nodes.length - 1 = j := Option.some.inj hfollow
  rw [hroot] at hleaf
  cases hleaf

/-- R118: in a node memory of at most 511 entries no leaf lies deeper than 255. -/
theorem leafPath_length_le (hlen : nodes.length ≤ 511) {sym : Symbol} {p : BitString} (hp : LeafPath nodes sym p) :
    p.length ≤ 255 := by
  obtain ⟨j, w, hfollow, -⟩ := hp
  have hpath := h.path_length_le hfollow
  have hmono := (List.take_sublist (nodes.length - 1 + 1) nodes).countP_le (p := fun n => !n.isLeaf)
  have htotal := List.length_eq_countP_add_countP Node.isLeaf (l := nodes)
  have hcount := h.leafCount
  simp only [Bool.not_eq_true, Bool.decide_eq_false] at htotal
  omega

end TreeShape

end Sys2Proof.Machine
end

section
/-! SUPPORT. The leaves of a built tree and the code table (spec/46_laws.md R191, R193, R194): a leaf is a key with its count, and the
code word of a symbol is the path to its leaf. -/

namespace Sys2Proof.Machine

/-! ### The leaves are the keys (R191) -/

section Leaves

variable {freq : Memory Count} {sym : Symbol} {w : Weight}

theorem leaf_mem_leaves_iff : .leaf sym w ∈ leaves freq ↔
    freqRead freq sym.toNat ≠ 0#32 ∧ w = (freqRead freq sym.toNat).setWidth 40 := by
  rw [mem_leaves]
  constructor
  · rintro ⟨s, hs, hkey, hleaf⟩
    obtain ⟨rfl, rfl⟩ := Node.leaf.inj hleaf
    rw [toNat_symbol (List.mem_range.mpr hs)]
    exact ⟨hkey, rfl⟩
  · rintro ⟨hkey, rfl⟩
    exact ⟨sym.toNat, sym.isLt, hkey, by rw [BitVec.ofNat_toNat, BitVec.setWidth_eq]⟩

/-- Different keys have different leaves. -/
theorem leaves_nodup (freq : Memory Count) : (leaves freq).Nodup := by
  rw [leaves_eq_map_filter]
  refine List.Nodup.map_on (fun x hx y hy hxy => ?_) (List.nodup_range.filter _)
  have hsym := congrArg BitVec.toNat (Node.leaf.inj hxy).1
  rwa [toNat_symbol (List.mem_of_mem_filter hx), toNat_symbol (List.mem_of_mem_filter hy)] at hsym

theorem leaf_mem_buildTree_iff : .leaf sym w ∈ (buildTree freq).1 ↔
    freqRead freq sym.toNat ≠ 0#32 ∧ w = (freqRead freq sym.toNat).setWidth 40 := by
  obtain ⟨inner, htree, hinner⟩ := buildTree_eq_append freq
  have hnot : .leaf sym w ∉ inner := fun hmem => nomatch hinner _ hmem
  rw [htree, List.mem_append, mem_doubleLone, leaf_mem_leaves_iff, or_iff_left hnot]

theorem count_leaf_buildTree (freq : Memory Count) (sym : Symbol) (w : Weight) :
    (buildTree freq).1.count (.leaf sym w) = (doubleLone (leaves freq)).count (.leaf sym w) := by
  obtain ⟨inner, htree, hinner⟩ := buildTree_eq_append freq
  have hnot : .leaf sym w ∉ inner := fun hmem => nomatch hinner _ hmem
  rw [htree, List.count_append, List.count_eq_zero_of_not_mem hnot, Nat.add_zero]

theorem count_leaf_leaves (freq : Memory Count) (sym : Symbol) (w : Weight) :
    (leaves freq).count (.leaf sym w) =
      if freqRead freq sym.toNat ≠ 0#32 ∧ w = (freqRead freq sym.toNat).setWidth 40 then 1 else 0 := by
  rw [(leaves_nodup freq).count]
  simp only [leaf_mem_leaves_iff]

theorem doubleLone_of_two_le (h : 2 ≤ keyCount freq) : doubleLone (leaves freq) = leaves freq := by
  rw [← leaves_length] at h
  match leaves freq, h with
  | _ :: _ :: _, _ => rfl

/-- A map with one key has its leaf and no other. -/
theorem exists_lone_leaf (h : keyCount freq = 1) : ∃ (key : Symbol) (w : Weight), leaves freq = [.leaf key w]
    ∧ ∀ sym : Symbol, freqRead freq sym.toNat ≠ 0#32 ↔ sym = key := by
  obtain ⟨n, hn⟩ := List.length_eq_one_iff.mp ((leaves_length freq).trans h)
  obtain ⟨s, -, -, rfl⟩ := mem_leaves.mp (hn ▸ List.mem_singleton_self n)
  refine ⟨_, _, hn, fun sym => ⟨fun hkey => ?_, ?_⟩⟩
  · have hmem := leaf_mem_leaves_iff.mpr ⟨hkey, rfl⟩
    rw [hn, List.mem_singleton] at hmem
    exact (Node.leaf.inj hmem).1
  · rintro rfl
    exact (leaf_mem_leaves_iff.mp (hn ▸ List.mem_singleton_self _)).1

/-- Settles O23: the leaves of the tree are those of step 1, where every key stands once, and the lone one is doubled. -/
theorem leavesAreTheKeys : Obligations.LeavesAreTheKeys := by
  intro freq sym w
  rw [count_leaf_buildTree]
  refine ⟨fun htwo => ?_, fun hone => ?_⟩
  · rw [doubleLone_of_two_le htwo, count_leaf_leaves]
  · have hcount := count_leaf_leaves freq sym w
    obtain ⟨key, wkey, hleaves, -⟩ := exists_lone_leaf hone
    rw [hleaves] at hcount
    have hdouble : doubleLone (leaves freq) = [.leaf key wkey] ++ [.leaf key wkey] := by rw [hleaves]; rfl
    rw [hdouble, List.count_append, hcount]
    split <;> rfl

end Leaves

/-! ### The paths of a built tree (R193) -/

section BuiltPaths

variable {freq : Memory Count} {sym : Symbol}

/-- Exactly the keys have a leaf, and every leaf is reached. -/
theorem exists_leafPath_iff (h : 1 ≤ keyCount freq) :
    (∃ p, LeafPath (buildTree freq).1 sym p) ↔ freqRead freq sym.toNat ≠ 0#32 := by
  constructor
  · rintro ⟨p, j, w, -, hleaf⟩
    exact (leaf_mem_buildTree_iff.mp (List.mem_of_getElem? hleaf)).1
  · intro hkey
    obtain ⟨j, hj⟩ := List.getElem?_of_mem (leaf_mem_buildTree_iff.mpr ⟨hkey, rfl⟩)
    obtain ⟨p, hp⟩ := (treeShape_buildTree h).exists_path (List.getElem?_eq_some_iff.mp hj).1
    exact ⟨p, j, _, hp, hj⟩

/-- With two keys or more a symbol has one leaf at most. -/
theorem leaf_index_unique (h : 2 ≤ keyCount freq) {i j : Nat} {w w' : Weight}
    (hi : (buildTree freq).1[i]? = some (.leaf sym w)) (hj : (buildTree freq).1[j]? = some (.leaf sym w')) : i = j := by
  have hw := (leaf_mem_buildTree_iff.mp (List.mem_of_getElem? hi)).2
  have hw' := (leaf_mem_buildTree_iff.mp (List.mem_of_getElem? hj)).2
  have hlt : ∀ {k : Nat} {v : Weight}, (buildTree freq).1[k]? = some (.leaf sym v) →
      (leaves freq)[k]? = some (.leaf sym v) := by
    intro k v hk
    obtain ⟨inner, htree, hinner⟩ := buildTree_eq_append freq
    rw [htree, doubleLone_of_two_le h, List.getElem?_append] at hk
    split at hk
    · exact hk
    · exact nomatch hinner _ (List.mem_of_getElem? hk)
  have hleaf := hlt hi
  refine (List.getElem?_inj (List.getElem?_eq_some_iff.mp hleaf).1 (leaves_nodup freq)).mp ?_
  rw [hleaf, hlt hj, hw, hw']

/-- With two keys or more a symbol has one leaf path at most. -/
theorem leafPath_unique (h : 2 ≤ keyCount freq) {p q : BitString} (hp : LeafPath (buildTree freq).1 sym p)
    (hq : LeafPath (buildTree freq).1 sym q) : p = q := by
  obtain ⟨i, w, hpi, hi⟩ := hp
  obtain ⟨j, w', hqj, hj⟩ := hq
  obtain rfl := leaf_index_unique h hi hj
  exact (treeShape_buildTree (by omega)).path_unique hpi hqj

theorem FirstBelow.unique {nodes : List Node} {i : Nat} {o o' : Option BitString} (h : FirstBelow nodes i sym o)
    (h' : FirstBelow nodes i sym o') : o = o' :=
  Option.ext fun _ => h.eq_some_iff.trans h'.eq_some_iff.symm

theorem FirstBelow.eq_none_iff {nodes : List Node} {i : Nat} {o : Option BitString} (h : FirstBelow nodes i sym o) :
    o = none ↔ ¬ ∃ q, LeafBelow nodes i sym q := by
  cases o with
  | none => exact ⟨fun _ ⟨q, hq⟩ => h q hq, fun _ => rfl⟩
  | some q => simpa using ⟨q, h.1⟩

/-- In the tree of R113 the first path is the left one. -/
theorem firstBelow_doubled (sym key : Symbol) (w w' : Weight) :
    FirstBelow [.leaf key w, .leaf key w, .internal w' 0#9 1#9] 2 sym (if sym = key then some [false] else none) := by
  have h : FirstBelow [.leaf key w, .leaf key w, .internal w' 0#9 1#9] 2 sym _ :=
    firstBelow_internal rfl (firstBelow_leaf rfl) (firstBelow_leaf rfl)
  by_cases hsym : sym = key
  · simpa [hsym] using h
  · simpa [hsym] using h

/-- With one key the first path to its leaf is the string 0. -/
theorem firstBelow_lone (h : keyCount freq = 1) (sym : Symbol) :
    FirstBelow (buildTree freq).1 ((buildTree freq).1.length - 1) sym
      (if freqRead freq sym.toNat = 0#32 then none else some [false]) := by
  obtain ⟨key, w, hleaves, hkey⟩ := exists_lone_leaf h
  have hentry : (if freqRead freq sym.toNat = 0#32 then none else some [false])
      = if sym = key then some [false] else none := by simp only [← hkey sym, ite_not]
  rw [hentry, buildTree_lone hleaves]
  exact firstBelow_doubled sym key w (w + w)

end BuiltPaths

/-! ### The code table (R193, R194) -/

namespace Arch.Inv

variable {a : Arch} (hinv : a.Inv) (hc : a.cvalid = true)
include hinv hc

/-- A derived table of the empty map has no entry. -/
theorem code_empty (ht : a.tstate = .empty) : a.code = [] := by
  obtain ⟨-, htable⟩ := hinv.codeDerived hc
  rw [ht] at htable
  exact (Except.ok.inj htable).symm

/-- A derived table of a tree holds the first path of every symbol. -/
theorem code_firstBelow (ht : a.tstate = .valid) (sym : Symbol) :
    FirstBelow a.node (a.node.length - 1) sym (codeRead a.code sym.toNat) := by
  obtain ⟨table, htable, hfirst⟩ := deriveTable_records_first hinv ht
  obtain ⟨-, hcode⟩ := hinv.codeDerived hc
  obtain rfl : a.code = table := Except.ok.inj (hcode.symm.trans htable)
  exact hfirst sym

/-- A code word leads from the root to a leaf of its symbol. -/
theorem leafPath_of_codeRead {sym : Symbol} {p : BitString} (hp : codeRead a.code sym.toNat = some p) :
    LeafPath a.node sym p := by
  obtain ⟨hne, -⟩ := hinv.codeDerived hc
  cases ht : a.tstate with
  | none => exact absurd ht hne
  | empty => rw [hinv.code_empty hc ht] at hp; cases hp
  | valid => exact ((hinv.code_firstBelow hc ht sym).eq_some_iff.mp hp).1

/-- A derived table with a leaf count belongs to the tree that `BUILD` made of the map. -/
theorem tree_of_nleaf (hbuilt : a.Built) (hn : 1 ≤ a.nleaf.toNat) :
    a.tstate = .valid ∧ a.node = (buildTree a.freq).1 ∧ a.nleaf.toNat = keyCount a.freq := by
  obtain ⟨hne, -⟩ := hinv.codeDerived hc
  obtain ⟨hnode, hleaf⟩ := hbuilt hne
  refine ⟨?_, hnode, hleaf.trans (buildTree_keyCount a.freq)⟩
  cases ht : a.tstate with
  | none => exact absurd ht hne
  | empty =>
    obtain ⟨-, hzero, -⟩ := hinv.emptyClear ht
    rw [hzero] at hn
    exact absurd hn (by decide)
  | valid => rfl

end Arch.Inv

/-- Settles O31: two code words are paths to leaves, and nothing lies below a leaf. -/
theorem codeIsPrefixFree : Obligations.CodeIsPrefixFree :=
  fun _ hinv hc _ _ _ _ hne hp hq hpq =>
    hne (LeafBelow.eq_of_prefix (hinv.leafPath_of_codeRead hc hp) (hinv.leafPath_of_codeRead hc hq) hpq)

/-- Settles O30: the table holds first paths; with two keys or more a key has one path and no other symbol has any, with one key
the tree is that of R113. -/
theorem codeWordIsTheLeafsPath : Obligations.CodeWordIsTheLeafsPath := by
  intro a hinv hbuilt hc sym
  refine ⟨fun htwo p => ?_, fun htwo => ?_, fun hone => ?_, fun hempty => ?_⟩
  · obtain ⟨ht, hnode, hcount⟩ := hinv.tree_of_nleaf hc hbuilt (by omega)
    refine (hinv.code_firstBelow hc ht sym).eq_some_iff.trans ⟨And.left, fun hp => ⟨hp, fun q hq => ?_⟩⟩
    rw [hcount] at htwo
    rw [hnode] at hp hq
    exact (leafPath_unique htwo hp hq).le
  · obtain ⟨ht, hnode, hcount⟩ := hinv.tree_of_nleaf hc hbuilt (by omega)
    have hpath := exists_leafPath_iff (freq := a.freq) (sym := sym) (by omega)
    rw [(hinv.code_firstBelow hc ht sym).eq_none_iff, hnode, ← not_ne_iff, not_congr hpath.symm]
    rfl
  · obtain ⟨ht, hnode, hcount⟩ := hinv.tree_of_nleaf hc hbuilt hone.ge
    have hfirst := hinv.code_firstBelow hc ht sym
    rw [hnode] at hfirst
    exact hfirst.unique (firstBelow_lone (hcount.symm.trans hone) sym)
  · rw [hinv.code_empty hc hempty]
    rfl

end Sys2Proof.Machine
end

section
/-! SUPPORT. Runs of commands that all succeed (spec/10_state.md R51, R69): what such a run leaves and emits, and how runs are put one
after another. Statements about whole sessions are chains of these. -/

namespace Sys2Proof.Machine

/-- The state once `n` commands have been answered `OK` without data, leaving `a` and emitting `ob` and `os` in all. -/
def State.ran (s : State) (n : Nat) (a : Arch) (ob : List Byte) (os : List Symbol) : State where
  arch := a
  ports :=
    { s.ports with
      rsp := s.ports.rsp ++ List.replicate n 0#64
      ob := s.ports.ob ++ ob
      os := s.ports.os ++ os }

section Ran

variable (s : State) (n : Nat) (a : Arch) (ob : List Byte) (os : List Symbol)

@[simp] theorem ran_arch : (s.ran n a ob os).arch = a := rfl
@[simp] theorem ran_ob : (s.ran n a ob os).ports.ob = s.ports.ob ++ ob := rfl
@[simp] theorem ran_os : (s.ran n a ob os).ports.os = s.ports.os ++ os := rfl

theorem allOk_ran : allOk s (s.ran n a ob os) := allOk_of_rsp rfl

theorem ran_ran (m : Nat) (b : Arch) (ob' : List Byte) (os' : List Symbol) :
    (s.ran n a ob os).ran m b ob' os' = s.ran (n + m) b (ob ++ ob') (os ++ os') := by
  simp [State.ran]

theorem encoded_eq_ran (p : BitString) : s.encoded p n =
    s.ran n { (pushBits p s.arch).1 with esym := s.arch.esym + BitVec.ofNat 48 n } (pushBits p s.arch).2 [] := by
  simp [State.encoded, State.ran]

end Ran

/-- From `s` the commands are all answered `OK` without data; they leave `a` and emit `ob` and `os`. -/
def Completes (is : List Instr) (s : State) (a : Arch) (ob : List Byte) (os : List Symbol) : Prop :=
  execAll is s = .next (s.ran is.length a ob os)

section Runs

variable {is js : List Instr} {i : Instr} {s : State} {a b : Arch} {ob ob' : List Byte} {os os' : List Symbol}

theorem completes_nil (s : State) : Completes [] s s.arch [] [] := by
  simp [Completes, execAll, State.ran]

theorem Completes.append (h : Completes is s a ob os) (h' : Completes js (s.ran is.length a ob os) b ob' os') :
    Completes (is ++ js) s b (ob ++ ob') (os ++ os') := by
  rw [Completes, execAll_append_next h, List.length_append, ← ran_ran]
  exact h'

/-- What a host sees of such a run. -/
theorem Completes.exists_next (h : Completes is s a ob os) : ∃ t, execAll is s = .next t ∧ allOk s t ∧ t.arch = a
    ∧ t.ports.ob = s.ports.ob ++ ob ∧ t.ports.os = s.ports.os ++ os :=
  ⟨_, h, allOk_ran s is.length a ob os, rfl, rfl, rfl⟩

theorem completes_of_answered (h : exec i s = .next ⟨a, s.ports.answered 0x00#8 0#56 ob os⟩) :
    Completes [i] s a ob os :=
  execAll_cons_next h

theorem completes_of_done (h : exec i s = .next (s.done a)) : Completes [i] s a [] [] :=
  completes_of_answered h

theorem Completes.cons (h : Completes [i] s a ob os) (h' : Completes is (s.ran 1 a ob os) b ob' os') :
    Completes (i :: is) s b (ob ++ ob') (os ++ os') :=
  h.append h'

end Runs

end Sys2Proof.Machine
end

section
/-! SUPPORT. Loading a map and preparing the block for it (spec/30_encoding.md R89, spec/40_control_and_load.md R103): what `LDMAP`
leaves in `FREQ`, and the registers after `BUILD` and `DERIVE`. -/

namespace Sys2Proof.Machine

/-! ### `LDMAP` (R89) -/

/-- The map once the pairs are written one after another. -/
def loadMap (pairs : List (Symbol × Count)) (m : Memory Count) : Memory Count :=
  pairs.foldl (fun m e => freqWrite m e.1.toNat e.2) m

section Load

variable {pairs : List (Symbol × Count)} {m : Memory Count} {c : Symbol} {n : Count}

theorem freqRead_loadMap_of_notMem (h : c ∉ pairs.map Prod.fst) :
    freqRead (loadMap pairs m) c.toNat = freqRead m c.toNat := by
  induction pairs generalizing m with
  | nil => rfl
  | cons e pairs ih =>
    obtain ⟨hne, hrest⟩ := not_or.mp (mt List.mem_cons.mpr h)
    rw [loadMap, List.foldl_cons]
    exact (ih hrest).trans (by rw [freqRead_freqWrite, if_neg (mt BitVec.eq_of_toNat_eq hne)])

/-- With no symbol twice, a map reads what was loaded. -/
theorem freqRead_loadMap_of_mem (hnodup : (pairs.map Prod.fst).Nodup) (h : (c, n) ∈ pairs) :
    freqRead (loadMap pairs m) c.toNat = n := by
  induction pairs generalizing m with
  | nil => cases h
  | cons e pairs ih =>
    obtain ⟨hnew, hrest⟩ := List.nodup_cons.mp hnodup
    rw [loadMap, List.foldl_cons]
    rcases List.mem_cons.mp h with rfl | h
    · exact (freqRead_loadMap_of_notMem hnew).trans (by rw [freqRead_freqWrite, if_pos rfl])
    · exact ih hrest h

/-- Counts of 0 leave the empty map empty. -/
theorem loadMap_zeros (syms : List Symbol) : loadMap (syms.map fun c => (c, 0#32)) [] = [] := by
  induction syms with
  | nil => rfl
  | cons c syms ih => exact ih

theorem completes_ldmap (pairs : List (Symbol × Count)) {s : State} (hm : s.arch.mode = .run)
    (ht : s.arch.tstate = .none) :
    Completes (ldmap pairs) s { s.arch with freq := loadMap pairs s.arch.freq } [] [] := by
  induction pairs generalizing s with
  | nil => exact completes_nil s
  | cons e pairs ih => exact (completes_of_done (exec_ldf_accepted e.1 e.2 hm ht)).cons (ih hm ht)

end Load

theorem exists_key_of_freqRead {freq : Memory Count} {sym : Symbol} (h : freqRead freq sym.toNat ≠ 0#32) :
    1 ≤ keyCount freq :=
  List.countP_pos_iff.mpr ⟨sym.toNat, List.mem_range.mpr sym.isLt, by simpa using h⟩

/-! ### `BUILD` and `DERIVE` after a reset -/

/-- The registers after a reset, the loading of the map and `BUILD`. -/
def Arch.builtFrom (freq : Memory Count) : Arch :=
  { Arch.reset with
    freq := freq
    node := (buildTree freq).1
    nleaf := BitVec.ofNat 9 (buildTree freq).2
    nnodes := BitVec.ofNat 9 (buildTree freq).1.length
    tstate := if (buildTree freq).1 = [] then .empty else .valid
    root := BitVec.ofNat 9 ((buildTree freq).1.length - 1)
    dcur := BitVec.ofNat 9 ((buildTree freq).1.length - 1) }

theorem writeTree_buildTree (freq : Memory Count) :
    writeTree (buildTree freq).1 (buildTree freq).2 { Arch.reset with freq := freq } = Arch.builtFrom freq :=
  writeTree_eq _ _ _

@[simp] theorem builtFrom_node (freq : Memory Count) : (Arch.builtFrom freq).node = (buildTree freq).1 := rfl
@[simp] theorem builtFrom_mode (freq : Memory Count) : (Arch.builtFrom freq).mode = .run := rfl

/-- The table holds, for every symbol, the first path of the map's tree that leads to a leaf of it (R132). -/
def RecordsFirstPaths (freq : Memory Count) (table : Memory BitString) : Prop :=
  ∀ sym : Symbol, FirstBelow (buildTree freq).1 ((buildTree freq).1.length - 1) sym (codeRead table sym.toNat)

/-- The registers once `DERIVE` has written its table. -/
def Arch.derivedFrom (freq : Memory Count) (table : Memory BitString) : Arch :=
  { Arch.builtFrom freq with code := table, cvalid := true }

section BuiltFrom

variable {freq : Memory Count} (h : 1 ≤ keyCount freq)
include h

theorem builtFrom_tstate : (Arch.builtFrom freq).tstate = .valid := by
  obtain ⟨w, l, r, hroot⟩ := (treeShape_buildTree h).rootInternal
  have hne : (buildTree freq).1 ≠ [] := by
    intro hnil
    rw [hnil] at hroot
    cases hroot
  exact if_neg hne

theorem canDecode_builtFrom : (Arch.builtFrom freq).CanDecode := by
  have hlen := buildTree_length_le freq
  have hroot : (BitVec.ofNat 9 ((buildTree freq).1.length - 1)).toNat = (buildTree freq).1.length - 1 := by
    rw [BitVec.toNat_ofNat]
    omega
  refine ⟨treeShape_buildTree h, hroot, ?_⟩
  simpa only [Arch.builtFrom, hroot] using (treeShape_buildTree h).rootInternal

/-- `DERIVE` then records every symbol's first path. -/
theorem completes_derive_builtFrom {s : State} (hs : s.arch = Arch.builtFrom freq) : ∃ table,
    Completes [.derive] s (Arch.derivedFrom freq table) [] []
      ∧ RecordsFirstPaths freq table := by
  have hdec := canDecode_builtFrom h
  have ht := builtFrom_tstate h
  have hroot := hdec.root
  obtain ⟨table, hwalk, hfirst⟩ := walk_root_records_first hdec.shape hroot
  have htable : deriveTable s.arch.node s.arch.root s.arch.tstate = .ok table := by
    rw [hs, ht]
    exact hwalk
  have hexec := exec_derive_accepted (s := s) (by rw [hs]; rfl) (by simp [hs, ht]) htable
  rw [hs] at hexec
  rw [hroot, builtFrom_node] at hfirst
  exact ⟨table, completes_of_done hexec, hfirst⟩

end BuiltFrom

/-- `LDMAP` and `BUILD` after a reset. -/
theorem completes_ldmap_build (pairs : List (Symbol × Count)) :
    Completes (ldmap pairs ++ [.build]) State.reset (Arch.builtFrom (loadMap pairs [])) [] [] := by
  rw [← writeTree_buildTree]
  exact (completes_ldmap pairs (s := State.reset) rfl rfl).append (completes_of_done (exec_build_accepted rfl rfl))

/-- `LDMAP`, `BUILD` and `DERIVE` after a reset. -/
theorem completes_ldmap_prep {pairs : List (Symbol × Count)} (h : 1 ≤ keyCount (loadMap pairs [])) : ∃ table,
    Completes (ldmap pairs ++ prep) State.reset (Arch.derivedFrom (loadMap pairs []) table) [] []
      ∧ RecordsFirstPaths (loadMap pairs []) table := by
  have hbuild := completes_ldmap_build pairs
  obtain ⟨table, hderive, hfirst⟩ := completes_derive_builtFrom h
    (s := State.reset.ran (ldmap pairs ++ [Instr.build]).length (Arch.builtFrom (loadMap pairs [])) [] []) rfl
  have hprep := hbuild.append hderive
  rw [List.append_assoc] at hprep
  exact ⟨table, hprep, hfirst⟩

/-! ### The empty input (R198) -/

theorem exec_drst {s : State} (hm : s.arch.mode = .run) : exec .drst s =
    .next (s.done { s.arch with dcur := s.arch.root, dbits := 0#48, dsym := 0#48, frame := false }) :=
  exec_done (firstError_run hm rfl rfl) rfl

theorem builtFrom_nil : Arch.builtFrom [] = { Arch.reset with tstate := .empty } := by
  have hnone : keyCount [] = 0 := List.countP_eq_zero.mpr fun s _ => by simp [freqRead, Memory.find]
  rw [Arch.builtFrom, buildTree_no_key hnone]
  rfl

/-- With the empty map built, the rest of a session finds nothing to do. -/
theorem completes_after_empty_build {s : State} (hs : s.arch = Arch.builtFrom []) :
    Completes [.derive, .flush, .drst, .dend] s { Arch.reset with tstate := .empty, cvalid := true } [] [] := by
  obtain ⟨a, p⟩ := s
  obtain rfl : a = { Arch.reset with tstate := .empty } := hs.trans builtFrom_nil
  have hne : TState.empty ≠ .none := nofun
  exact (completes_of_done (exec_derive_accepted rfl hne rfl)).cons <|
    (completes_of_done (exec_flush_idle rfl rfl)).cons <|
    (completes_of_done (exec_drst rfl)).cons (completes_of_done (exec_dend_atRoot rfl hne rfl))

/-- Settles O58: counts of 0 load nothing, and from the empty map on every command leaves its part as it is. -/
theorem emptyInputIsNoError : Obligations.EmptyInputIsNoError := by
  intro syms
  have hbuild := completes_ldmap_build (syms.map fun c => (c, 0#32))
  rw [loadMap_zeros] at hbuild
  have hrun : Completes (ldmap (syms.map fun c => (c, 0#32)) ++ prep ++ [.flush, .drst, .dend]) State.reset
      { Arch.reset with tstate := .empty, cvalid := true } [] [] := by
    simpa [prep] using hbuild.append (completes_after_empty_build rfl)
  obtain ⟨t, hnext, hok, harch, hob, hos⟩ := hrun.exists_next
  refine ⟨t, hnext, hok, ?_⟩
  rw [harch]
  exact ⟨rfl, rfl, fun _ => rfl, hob, hos, rfl, rfl, rfl⟩

end Sys2Proof.Machine
end

section
/-! SUPPORT. Round trips (spec/46_laws.md R196, R197): the path to a leaf decodes to its symbol and brings the cursor back to the root,
so what the encoder packed is what the decoder reads. -/

namespace Sys2Proof.Machine

/-! ### Decoding paths (R161) -/

/-- A path with an edge starts at an internal node and goes on from the child. -/
theorem exists_internal_of_leafBelow_cons {nodes : List Node} {i : Nat} {sym : Symbol} {b : Bool} {p : BitString}
    (h : LeafBelow nodes i sym (b :: p)) : ∃ (w : Weight) (l r : NodeIdx),
    nodes[i]? = some (.internal w l r) ∧ LeafBelow nodes (if b then r else l).toNat sym p := by
  cases hi : nodes[i]? with
  | none => simp [LeafBelow, follow, hi] at h
  | some n =>
    cases n with
    | leaf => simp [LeafBelow, follow, hi] at h
    | internal w l r => exact ⟨w, l, r, rfl, by cases b <;> exact (leafBelow_internal_cons hi _).mp h⟩

/-- The bits of a path from the cursor to a leaf decode to its symbol. -/
theorem decodeBits_of_leafBelow {a : Arch} {sym : Symbol} {p : BitString} (hne : p ≠ [])
    (h : LeafBelow a.node a.dcur.toNat sym p) : decodeBits a p =
      .ok ({ a with dbits := a.dbits + BitVec.ofNat 48 p.length, dsym := a.dsym + 1#48, dcur := a.root }, [sym]) := by
  induction p generalizing a with
  | nil => exact absurd rfl hne
  | cons b p ih =>
    obtain ⟨w, l, r, hcur, hbelow⟩ := exists_internal_of_leafBelow_cons h
    cases p with
    | nil =>
      obtain ⟨j, w', hj, hleaf⟩ := hbelow
      obtain rfl := Option.some.inj hj
      exact decodeBits_singleton (decodeBit_leaf hcur hleaf)
    | cons b' p =>
      obtain ⟨w', l', r', hchild, -⟩ := exists_internal_of_leafBelow_cons hbelow
      have hrest := ih (a := { a with dbits := a.dbits + 1#48, dcur := if b then r else l }) (by simp) hbelow
      rw [decodeBits_cons_eq_ok_iff]
      refine ⟨_, [], [sym], decodeBit_internal hcur hchild, ?_, rfl⟩
      rw [hrest, List.length_cons (a := b), Nat.add_comm, BitVec.ofNat_add, BitVec.add_assoc]

/-- From the root, the paths to leaves one after another decode to their symbols. -/
theorem decodeBits_flatMap {a : Arch} (input : List Symbol) {word : Symbol → BitString} (hshape : TreeShape a.node)
    (hroot : a.root.toNat = a.node.length - 1) (hcur : a.dcur = a.root)
    (hword : ∀ c ∈ input, LeafPath a.node c (word c)) : decodeBits a (input.flatMap word) =
      .ok ({ a with
        dbits := a.dbits + BitVec.ofNat 48 (input.flatMap word).length
        dsym := a.dsym + BitVec.ofNat 48 input.length }, input) := by
  induction input generalizing a with
  | nil => simp [decodeBits]
  | cons c input ih =>
    obtain ⟨hhead, htail⟩ := List.forall_mem_cons.mp hword
    have hbelow : LeafBelow a.node a.dcur.toNat c (word c) := by rw [hcur, hroot]; exact hhead
    have hc := decodeBits_of_leafBelow (hshape.leafPath_ne_nil hhead) hbelow
    have hrest := ih (a := { a with
      dbits := a.dbits + BitVec.ofNat 48 (word c).length, dsym := a.dsym + 1#48, dcur := a.root }) hshape hroot rfl htail
    rw [List.flatMap_cons, decodeBits_append hc hrest, List.length_append, List.length_cons, BitVec.ofNat_add,
      Nat.add_comm, BitVec.ofNat_add, BitVec.add_assoc, BitVec.add_assoc, hcur]
    rfl

/-! ### Decoding packed bytes (R164, R167) -/

/-- The bytes are as many as the bits need, and hold the bits and zeros after them (R63, R145). -/
structure HoldsBits (bytes : List Byte) (bits : BitString) : Prop where
  length : bytes.length = (bits.length + 7) / 8
  layout : ∀ k, streamBit bytes k = bits.getD k false

theorem decodeBits_append_eq_ok_iff {a a'' : Arch} {p q : List Bool} {out : List Symbol} :
    decodeBits a (p ++ q) = .ok (a'', out) ↔ ∃ a' out₁ out₂,
      decodeBits a p = .ok (a', out₁) ∧ decodeBits a' q = .ok (a'', out₂) ∧ out₁ ++ out₂ = out := by
  refine ⟨fun h => ?_, fun ⟨a', out₁, out₂, hp, hq, hout⟩ => hout ▸ decodeBits_append hp hq⟩
  induction p generalizing a out with
  | nil => exact ⟨a, [], out, rfl, h, rfl⟩
  | cons b p ih =>
    obtain ⟨a₁, o₁, o₂, hb, hrest, rfl⟩ := decodeBits_cons_eq_ok_iff.mp h
    obtain ⟨a', out₁, out₂, hp, hq, rfl⟩ := ih hrest
    exact ⟨a', o₁ ++ out₁, out₂, decodeBits_cons_eq_ok_iff.mpr ⟨a₁, o₁, out₁, hb, hp, rfl⟩, hq, List.append_assoc ..⟩

/-- The bits that `DBYTE` looks at are the first of the stream that the byte begins. -/
theorem streamBits_eq_take {byte : Byte} {rest : List Byte} {bits : BitString} {nbits : BitVec 4}
    (hn : nbits.toNat = min 8 bits.length) (h : ∀ k, streamBit (byte :: rest) k = bits.getD k false) :
    streamBits byte nbits = bits.take 8 := by
  refine List.ext_getElem (by rw [length_streamBits, List.length_take, hn]) fun k hk hk' => ?_
  rw [List.length_take] at hk'
  have hbyte : streamBit (byte :: rest) k = streamBit [byte] k :=
    streamBit_append_left (bytes := [byte]) rest (by simp; omega)
  have hbit := h k
  rw [hbyte, streamBit_singleton byte (by omega), List.getD_eq_getElem _ _ (by omega)] at hbit
  simpa [streamBits] using hbit

/-- Decoding whole bytes, the last one cut to what is left of the payload, is decoding the bits packed in them. -/
theorem completes_decs {bytes : List Byte} {bits : BitString} {s : State} {a : Arch} {out : List Symbol}
    (hm : s.arch.mode = .run) (ht : s.arch.tstate = .valid) (hbytes : HoldsBits bytes bits)
    (hd : decodeBits s.arch bits = .ok (a, out)) : Completes (decs bytes bits.length) s a [] out := by
  obtain ⟨hlen, hbits⟩ := hbytes
  induction bytes generalizing bits s out with
  | nil =>
    obtain rfl : bits = [] := List.eq_nil_of_length_eq_zero (by rw [List.length_nil] at hlen; omega)
    cases hd
    exact completes_nil s
  | cons byte bytes ih =>
    rw [List.length_cons] at hlen
    have hn : (BitVec.ofNat 4 (min 8 bits.length)).toNat = min 8 bits.length := by rw [BitVec.toNat_ofNat]; omega
    obtain ⟨a₁, out₁, out₂, hbyte, hrest, rfl⟩ :=
      decodeBits_append_eq_ok_iff.mp ((List.take_append_drop 8 bits).symm ▸ hd)
    have hframe := decodeBits_frame hbyte
    rw [← streamBits_eq_take hn hbits] at hbyte
    have hexec := exec_dbyte_accepted byte _ hm ht (by omega) hbyte
    have hdrop : (bits.drop 8).length = bits.length - 8 := List.length_drop
    have htail : ∀ k, streamBit bytes k = (bits.drop 8).getD k false := by
      intro k
      have happend := streamBit_append_right [byte] bytes k
      rw [List.singleton_append, hbits] at happend
      rw [← happend]
      simp [List.getD_eq_getElem?_getD]
    have hdecs := ih (s := s.ran 1 a₁ [] out₁) (bits := bits.drop 8) (by rw [ran_arch, hframe]; exact hm)
      (by rw [ran_arch, hframe]; exact ht) hrest (by omega) htail
    rw [hdrop] at hdecs
    exact (completes_of_answered hexec).cons hdecs

/-- The registers once a stream of `bits` bits is decoded to `n` symbols, from `DRST` on, with the cursor back at the root. -/
def Arch.decodedStream (a : Arch) (bits n : Nat) : Arch :=
  { a with dcur := a.root, dbits := BitVec.ofNat 48 bits, dsym := BitVec.ofNat 48 n, frame := false }

/-- A tree, a cursor restarted, the packed paths of the input and the end of the stream: the input comes out. -/
theorem completes_drst_decs_dend {s : State} {input : List Symbol} {word : Symbol → BitString} {bytes : List Byte}
    (hm : s.arch.mode = .run) (ht : s.arch.tstate = .valid) (hdec : s.arch.CanDecode)
    (hword : ∀ c ∈ input, LeafPath s.arch.node c (word c))
    (hbytes : HoldsBits bytes (input.flatMap word)) :
    Completes (.drst :: decs bytes (input.flatMap word).length ++ [.dend]) s
      (s.arch.decodedStream (input.flatMap word).length input.length) [] input := by
  have hdrst := completes_of_done (exec_drst hm)
  have hbits := decodeBits_flatMap (a := { s.arch with dcur := s.arch.root, dbits := 0#48, dsym := 0#48, frame := false })
    input hdec.shape hdec.root rfl hword
  have hdecs := hdrst.cons (completes_decs hm ht hbytes hbits)
  have hdend := hdecs.append (completes_of_done (exec_dend_atRoot hm (by simp [ht]) (atRoot_eq_true_iff.mpr (.inr rfl))))
  simpa [Arch.decodedStream] using hdend

/-! ### Encoding (R145) -/

/-- `FLUSH` at the end of a run completes what is packed to whole bytes. -/
theorem Completes.flush {is : List Instr} {s : State} {a : Arch} {ob : List Byte} {os : List Symbol} {bits : BitString}
    (h : Completes is s a ob os) (hm : a.mode = .run) (hp : Packs (a, ob) bits) : ∃ bytes,
    Completes (is ++ [.flush]) s { a with acc := 0#8, nacc := 0#3 } bytes os ∧ HoldsBits bytes bits := by
  obtain ⟨tail, hflush, hlen, hlayout⟩ := exec_flush_of_packs (s := s.ran is.length a ob os) hm hp
  have hrun := h.append (completes_of_answered hflush)
  rw [List.append_nil] at hrun
  exact ⟨ob ++ tail, hrun, ⟨hlen, hlayout⟩⟩

section Encode

variable {s : State} {input : List Symbol} {word : Symbol → BitString} (hm : s.arch.mode = .run)
  (hc : s.arch.cvalid = true) (hword : ∀ c ∈ input, codeRead s.arch.code c.toNat = some (word c))
include hm hc hword

theorem completes_encs : Completes (encs input) s
    { s.arch with
      acc := (pushBits (input.flatMap word) s.arch).1.acc
      nacc := (pushBits (input.flatMap word) s.arch).1.nacc
      ebits := s.arch.ebits + BitVec.ofNat 48 (input.flatMap word).length
      esym := s.arch.esym + BitVec.ofNat 48 input.length } (pushBits (input.flatMap word) s.arch).2 [] := by
  rw [Completes, execAll_encs input hm hc hword, encoded_eq_ran, pushBits_frame_esym, encs, List.length_map]

/-- From a clear encoder, `ENC` of the input and `FLUSH` emit the packed code words. -/
theorem completes_encs_flush (hacc : s.arch.acc = 0#8) (hnacc : s.arch.nacc = 0#3) (hebits : s.arch.ebits = 0#48)
    (hesym : s.arch.esym = 0#48) : ∃ bytes,
    Completes (encs input ++ [.flush]) s
        { s.arch with
          ebits := BitVec.ofNat 48 (input.flatMap word).length
          esym := BitVec.ofNat 48 input.length } bytes []
      ∧ HoldsBits bytes (input.flatMap word) := by
  have hpushed : Packs (pushBits (input.flatMap word) s.arch) (input.flatMap word) := (packs_nil hacc hnacc).append _
  obtain ⟨bytes, hrun, hbytes⟩ := (completes_encs hm hc hword).flush hm ⟨hpushed.count, hpushed.layout⟩
  rw [hebits, hesym, BitVec.zero_add, BitVec.zero_add, ← hacc, ← hnacc] at hrun
  exact ⟨bytes, hrun, hbytes⟩

end Encode

/-! ### The whole session of an input (R196) -/

/-- The registers after a reset, `BUILD` and `DERIVE` of the map and the encoding of `n` symbols into `bits` bits. -/
def Arch.encodedFrom (freq : Memory Count) (table : Memory BitString) (bits n : Nat) : Arch :=
  { Arch.derivedFrom freq table with ebits := BitVec.ofNat 48 bits, esym := BitVec.ofNat 48 n }

/-- After a reset the input is encoded under the map that is loaded: the table holds the first paths of the map's tree, each
symbol of the input has its code word there, and the bytes emitted hold the code words one after another. -/
structure Encoding (pairs : List (Symbol × Count)) (input : List Symbol) (table : Memory BitString)
    (word : Symbol → BitString) (bytes : List Byte) : Prop where
  oneKey : 1 ≤ keyCount (loadMap pairs [])
  firstPaths : RecordsFirstPaths (loadMap pairs []) table
  codeWord : ∀ c ∈ input, codeRead table c.toNat = some (word c)
  run : Completes (ldmap pairs ++ prep ++ encs input ++ [.flush]) State.reset
    (Arch.encodedFrom (loadMap pairs []) table (input.flatMap word).length input.length) bytes []
  packed : HoldsBits bytes (input.flatMap word)

/-- A table of first paths has a code word for every key. -/
theorem RecordsFirstPaths.exists_codeWord {freq : Memory Count} {table : Memory BitString}
    (h : RecordsFirstPaths freq table) {c : Symbol} (hc : freqRead freq c.toNat ≠ 0#32) :
    ∃ p, codeRead table c.toNat = some p :=
  Option.ne_none_iff_exists'.mp fun hnone =>
    (h c).eq_none_iff.mp hnone ((exists_leafPath_iff (exists_key_of_freqRead hc)).mpr hc)

theorem exists_encoding {pairs : List (Symbol × Count)} {input : List Symbol} (hone : 1 ≤ keyCount (loadMap pairs []))
    (hkey : ∀ c ∈ input, freqRead (loadMap pairs []) c.toNat ≠ 0#32) :
    ∃ table word bytes, Encoding pairs input table word bytes := by
  obtain ⟨table, hprep, hfirst⟩ := completes_ldmap_prep hone
  have hword : ∀ c ∈ input, codeRead table c.toNat = some ((codeRead table c.toNat).getD []) := by
    intro c hc
    obtain ⟨p, hp⟩ := hfirst.exists_codeWord (hkey c hc)
    rw [hp, Option.getD_some]
  obtain ⟨bytes, hencs, hbytes⟩ := completes_encs_flush
    (s := State.reset.ran (ldmap pairs ++ prep).length (Arch.derivedFrom (loadMap pairs []) table) [] [])
    rfl rfl hword rfl rfl rfl rfl
  have hrun := hprep.append hencs
  rw [← List.append_assoc] at hrun
  exact ⟨table, _, bytes, hone, hfirst, hword, hrun, hbytes⟩

namespace Encoding

variable {pairs : List (Symbol × Count)} {input : List Symbol} {table : Memory BitString} {word : Symbol → BitString}
  {bytes : List Byte} (h : Encoding pairs input table word bytes)
include h

theorem leafPath : ∀ c ∈ input, LeafPath (buildTree (loadMap pairs [])).1 c (word c) :=
  fun c hc => ((h.firstPaths c).eq_some_iff.mp (h.codeWord c hc)).1

theorem bits_le : (input.flatMap word).length ≤ input.length * 255 :=
  length_flatMap_le fun c hc =>
    (treeShape_buildTree h.oneKey).leafPath_length_le (buildTree_length_le _) (h.leafPath c hc)

/-- On the block that encoded it, the stream decodes to the input. -/
theorem decode_same_block {s : State}
    (hs : s.arch = Arch.encodedFrom (loadMap pairs []) table (input.flatMap word).length input.length) :
    Completes (.drst :: decs bytes (input.flatMap word).length ++ [.dend]) s
      (s.arch.decodedStream (input.flatMap word).length input.length) [] input := by
  have hdec := canDecode_builtFrom h.oneKey
  refine completes_drst_decs_dend ?_ ?_ ?_ ?_ h.packed <;> rw [hs]
  · rfl
  · exact builtFrom_tstate h.oneKey
  · exact ⟨hdec.shape, hdec.root, hdec.cursor⟩
  · exact (builtFrom_node (loadMap pairs [])).symm ▸ h.leafPath

/-- A block that got the same map and a `BUILD`, and never a `DERIVE`, decodes it too. -/
theorem decode_second_block :
    Completes (ldmap pairs ++ .build :: .drst :: decs bytes (input.flatMap word).length ++ [.dend]) State.reset
      ((Arch.builtFrom (loadMap pairs [])).decodedStream (input.flatMap word).length input.length) [] input := by
  have hdecode := completes_drst_decs_dend
    (s := State.reset.ran (ldmap pairs ++ [Instr.build]).length (Arch.builtFrom (loadMap pairs [])) [] [])
    rfl (builtFrom_tstate h.oneKey) (canDecode_builtFrom h.oneKey)
    ((builtFrom_node (loadMap pairs [])).symm ▸ h.leafPath) h.packed
  simpa using (completes_ldmap_build pairs).append hdecode

end Encoding

/-! ### `FreqOf` of an input (R6) -/

section FreqPairs

variable {input : List Symbol} {c : Symbol} {n : Count}

theorem freqPairs_eq_map_filter (input : List Symbol) :
    freqPairs input = ((List.range 256).filter fun x => freqOf input (BitVec.ofNat 8 x) != 0).map
      fun x => (BitVec.ofNat 8 x, BitVec.ofNat 32 (freqOf input (BitVec.ofNat 8 x))) := by
  rw [← List.filterMap_eq_map, List.filterMap_filter]
  refine List.filterMap_congr fun x _ => ?_
  by_cases h : freqOf input (BitVec.ofNat 8 x) = 0 <;> simp [h]

theorem mem_freqPairs : (c, n) ∈ freqPairs input ↔ freqOf input c ≠ 0 ∧ n = BitVec.ofNat 32 (freqOf input c) := by
  simp only [freqPairs_eq_map_filter, List.mem_map, List.mem_filter, bne_iff_ne, Prod.mk.injEq]
  constructor
  · rintro ⟨x, ⟨-, hx⟩, rfl, rfl⟩
    exact ⟨hx, rfl⟩
  · rintro ⟨hc, rfl⟩
    have hback : BitVec.ofNat 8 c.toNat = c := by rw [BitVec.ofNat_toNat, BitVec.setWidth_eq]
    exact ⟨c.toNat, ⟨List.mem_range.mpr c.isLt, by rwa [hback]⟩, hback, by rw [hback]⟩

theorem freqPairs_keys_nodup (input : List Symbol) : ((freqPairs input).map Prod.fst).Nodup := by
  rw [freqPairs_eq_map_filter, List.map_map]
  refine List.Nodup.map_on (fun x hx y hy hxy => ?_) (List.nodup_range.filter _)
  have hsym := congrArg BitVec.toNat hxy
  simp only [Function.comp_apply] at hsym
  rwa [toNat_symbol (List.mem_of_mem_filter hx), toNat_symbol (List.mem_of_mem_filter hy)] at hsym

/-- Every symbol of an input has its count among the pairs. -/
theorem exists_mem_freqPairs (hbound : freqOf input c < 2 ^ 32) (hc : c ∈ input) :
    ∃ n, (c, n) ∈ freqPairs input ∧ n ≠ 0#32 ∧ n.toNat = freqOf input c := by
  have hpos : freqOf input c ≠ 0 := (List.count_pos_iff.mpr hc).ne'
  have hcount : (BitVec.ofNat 32 (freqOf input c)).toNat = freqOf input c := by
    rw [BitVec.toNat_ofNat, Nat.mod_eq_of_lt hbound]
  refine ⟨_, mem_freqPairs.mpr ⟨hpos, rfl⟩, fun hzero => hpos ?_, hcount⟩
  rw [← hcount, hzero]
  rfl

end FreqPairs

/-- Settles O56: every symbol of the input is a key of the map that is loaded, so the input has an encoding, which both blocks
decode; no counter wraps below `2 ^ 48`. -/
theorem roundTripFromReset : Obligations.RoundTripFromReset := by
  refine ⟨fun pairs input hnodup hne hkeys hbound => ?_, fun input hbound =>
    ⟨freqPairs_keys_nodup input, fun c hc => exists_mem_freqPairs (hbound c) hc⟩⟩
  have hkey : ∀ c ∈ input, freqRead (loadMap pairs []) c.toNat ≠ 0#32 := by
    intro c hc
    obtain ⟨n, hmem, hn⟩ := hkeys c hc
    rwa [freqRead_loadMap_of_mem hnodup hmem]
  obtain ⟨c, hc⟩ := List.exists_mem_of_ne_nil input hne
  obtain ⟨table, word, bytes, henc⟩ := exists_encoding (exists_key_of_freqRead (hkey c hc)) hkey
  obtain ⟨t, hrun, hok, ht, hob, htos⟩ := henc.run.exists_next
  obtain ⟨u, hsame, hok₁, hu, -, hos₁⟩ := (henc.decode_same_block ht).exists_next
  obtain ⟨v, hsecond, hok₂, hv, -, hos₂⟩ := henc.decode_second_block.exists_next
  have hbits := henc.bits_le
  have hebits : t.arch.ebits = BitVec.ofNat 48 (input.flatMap word).length := by rw [ht]; rfl
  have hcount : t.arch.ebits.toNat = (input.flatMap word).length := by
    rw [hebits, BitVec.toNat_ofNat]
    omega
  have hdsym : (BitVec.ofNat 48 input.length).toNat = input.length := by
    rw [BitVec.toNat_ofNat]
    omega
  rw [htos] at hos₁
  refine ⟨t, u, v, bytes, hrun, hok, hob, ?_⟩
  rw [hcount, hebits, hu, hv]
  exact ⟨henc.packed.length, hsame, hok₁, hos₁, rfl, hdsym, rfl, hsecond, hok₂, hos₂, rfl, hdsym, rfl⟩

/-! ### One repeated symbol (R197) -/

/-- Bytes that hold no 1 are zero bytes. -/
theorem eq_replicate_zero_of_streamBit {bytes : List Byte} (h : ∀ k, streamBit bytes k = false) :
    bytes = List.replicate bytes.length 0#8 := by
  refine List.eq_replicate_iff.mpr ⟨rfl, fun byte hbyte => ?_⟩
  obtain ⟨k, hk⟩ := List.getElem?_of_mem hbyte
  apply BitVec.eq_of_getLsbD_eq
  intro i hi
  have hdiv : (8 * k + (7 - i)) / 8 = k := by omega
  have hmod : 7 - (8 * k + (7 - i)) % 8 = i := by omega
  have hbit := h (8 * k + (7 - i))
  rw [streamBit, hdiv, hmod, List.getD_eq_getElem?_getD, hk] at hbit
  simpa using hbit

theorem keyCount_of_lone {freq : Memory Count} {sym : Symbol}
    (h : ∀ x : Symbol, freqRead freq x.toNat ≠ 0#32 ↔ x = sym) : keyCount freq = 1 := by
  rw [← leaves_length, leaves_lone ((h sym).mpr rfl) fun x hx => not_not.mp (mt (h x).mp hx)]
  rfl

/-- The map of `n` copies of one symbol has that key and no other. -/
theorem freqRead_repeated_ne_zero_iff {sym x : Symbol} {n : Nat} (h1 : 1 ≤ n) (hn : n < 2 ^ 32) :
    freqRead (loadMap (freqPairs (List.replicate n sym)) []) x.toNat ≠ 0#32 ↔ x = sym := by
  constructor
  · intro hx
    by_contra hne
    refine hx (freqRead_loadMap_of_notMem fun hmem => ?_)
    obtain ⟨⟨y, m⟩, hpair, rfl⟩ := List.mem_map.mp hmem
    obtain ⟨hcount, -⟩ := mem_freqPairs.mp hpair
    exact hne (List.eq_of_mem_replicate (List.count_pos_iff.mp (Nat.pos_of_ne_zero hcount)))
  · rintro rfl
    have hmem : x ∈ List.replicate n x := List.mem_replicate.mpr ⟨by omega, rfl⟩
    obtain ⟨m, hpair, hm, -⟩ := exists_mem_freqPairs (by rwa [freqOf, List.count_replicate_self]) hmem
    rwa [freqRead_loadMap_of_mem (freqPairs_keys_nodup _) hpair]

/-- Settles O57: the map has one key, whose code word is the string 0, so the stream is `n` zeros. -/
theorem oneRepeatedSymbolRoundTrips : Obligations.OneRepeatedSymbolRoundTrips := by
  intro sym n h1 hn
  have hkey : ∀ x : Symbol, freqRead (loadMap (freqPairs (List.replicate n sym)) []) x.toNat ≠ 0#32 ↔ x = sym :=
    fun x => freqRead_repeated_ne_zero_iff h1 hn
  have hone := keyCount_of_lone hkey
  obtain ⟨table, word, bytes, henc⟩ :=
    exists_encoding (input := List.replicate n sym) hone.ge fun c hc => (hkey c).mpr (List.eq_of_mem_replicate hc)
  have hentry : ∀ x : Symbol, codeRead table x.toNat = if x = sym then some [false] else none := by
    intro x
    rw [(henc.firstPaths x).unique (firstBelow_lone hone x)]
    simp only [← hkey x, ite_not]
  have hword : word sym = [false] := by
    have hsome := henc.codeWord sym (List.mem_replicate.mpr ⟨by omega, rfl⟩)
    rw [hentry sym, if_pos rfl] at hsome
    exact (Option.some.inj hsome).symm
  have hflat : (List.replicate n sym).flatMap word = List.replicate n false := by
    rw [List.flatMap_replicate, hword, List.flatten_replicate_singleton]
  obtain ⟨t, hrun, hok, ht, hob, htos⟩ := henc.run.exists_next
  obtain ⟨u, hdecode, hok₁, -, -, hos⟩ := (henc.decode_same_block ht).exists_next
  have hlen := henc.packed.length
  have hzeros : bytes = List.replicate bytes.length 0#8 :=
    eq_replicate_zero_of_streamBit fun k => by
      rw [henc.packed.layout, hflat, List.getD_eq_getElem?_getD, List.getElem?_getD_replicate_default_eq]
  have hebits : t.arch.ebits.toNat = n := by
    rw [ht, Arch.encodedFrom, hflat, List.length_replicate, BitVec.toNat_ofNat]
    omega
  have hob : t.ports.ob = bytes := hob
  rw [hflat, List.length_replicate] at hlen hdecode
  rw [hlen] at hzeros
  rw [htos] at hos
  refine ⟨t, u, hrun, hok, fun x => ?_, hebits, ?_, ?_, hok₁, hos⟩
  · rw [ht]
    exact hentry x
  · exact hob.trans hzeros
  · rwa [hob]

end Sys2Proof.Machine
end

section
/-! SUPPORT. Errors (spec/60_exceptions.md R220 to R228): the guards are the spec's tables, a command that passes them fails in
two ways only, and every error is one `raise`. -/

namespace Sys2Proof.Machine

/-! ### The guards (R222, R227, spec/20_memory.md R65) -/

theorem servedInFault_eq_false_iff {i : Instr} : servedInFault i = false ↔ i.mnemonic ∉ faultServed := by
  cases i <;> simp [servedInFault, Instr.mnemonic, faultServed]

theorem seqGuard_eq_false_iff {i : Instr} {a : Arch} : seqGuard i a = false ↔ SeqFails i a := by
  cases i <;> simp [seqGuard, SeqFails, Instr.mnemonic]

theorem rangeGuard_dbyte_eq_false_iff (byte : Byte) (nbits : BitVec 4) (a : Arch) :
    rangeGuard (.dbyte byte nbits) a = false ↔ nbits.toNat = 0 ∨ 9 ≤ nbits.toNat := by
  rw [← Bool.not_eq_true, rangeGuard_dbyte]
  omega

theorem rangeGuard_rds_eq_false_iff (n : BitVec 8) (a : Arch) : rangeGuard (.rds n) a = false ↔ 13 ≤ n.toNat :=
  decide_eq_false_iff_not.trans Nat.not_le

theorem rangeGuard_eq_false_iff {i : Instr} {a : Arch} : rangeGuard i a = false ↔ RangeFails i a := by
  cases i
  case rdnl | rdnw => simp [rangeGuard, RangeFails]
  case dbyte byte nbits => simp [rangeGuard_dbyte_eq_false_iff, RangeFails]
  case rds n => simp [rangeGuard_rds_eq_false_iff, RangeFails]
  all_goals simp [rangeGuard, RangeFails]

/-- A command that `E_FAULTED` does not stop. -/
theorem run_or_served {i : Instr} {a : Arch} (h : ¬ (a.mode = .fault ∧ servedInFault i = false)) :
    a.mode = .run ∨ servedInFault i = true := by
  cases hm : a.mode with
  | run => exact .inl rfl
  | fault => exact .inr (by simpa [hm] using h)

/-! ### What a command that passes its guards answers (R228) -/

theorem encodeSymbol_ok_or_nocode (sym : Symbol) (a : Arch) :
    (encodeSymbol sym a).status = .ok ∨ encodeSymbol sym a = raise .nocode (encode (.enc sym)) a := by
  unfold encodeSymbol
  split
  · exact .inr rfl
  · exact .inl rfl

theorem endOfStream_ok_or_frame (a : Arch) :
    (endOfStream a).status = .ok ∨ endOfStream a = raise .frame (encode .dend) { a with frame := true } := by
  unfold endOfStream
  split
  · exact .inl rfl
  · exact .inr rfl

theorem flushByte_status (a : Arch) : (flushByte a).status = .ok := by
  unfold flushByte
  split <;> rfl

theorem decodeReply_status {bits : List Bool} {a : Arch} {r : Reply} (h : decodeReply bits a = .ok r) : r.status = .ok := by
  unfold decodeReply at h
  split at h <;> cases h
  rfl

theorem nodeReply_status {idx : NodeIdx} {view : Node → RspData} {a : Arch} {r : Reply} (h : nodeReply idx view a = .ok r) :
    r.status = .ok := by
  unfold nodeReply at h
  split at h <;> cases h
  rfl

/-- Past the guards only `ENC` and `DEND` can fail, each in its own way. -/
theorem commandBody_ok_or_raises {i : Instr} {a : Arch} {r : Reply} (hrange : rangeGuard i a = true)
    (h : commandBody i a = .ok r) :
    r.status = .ok
      ∨ (i.mnemonic = "ENC" ∧ r = raise .nocode (encode i) a)
      ∨ (i.mnemonic = "DEND" ∧ r = raise .frame (encode i) { a with frame := true }) := by
  cases i
  case enc sym =>
    cases h
    exact (encodeSymbol_ok_or_nocode sym a).imp_right fun hr => .inl ⟨rfl, hr⟩
  case dend =>
    cases h
    exact (endOfStream_ok_or_frame a).imp_right fun hr => .inr ⟨rfl, hr⟩
  case derive =>
    simp only [commandBody] at h
    split at h <;> cases h
    exact .inl rfl
  case rds n =>
    obtain ⟨data, hdata⟩ := exists_csr a (of_decide_eq_true hrange)
    simp only [commandBody, hdata] at h
    cases h
    exact .inl rfl
  case dbit | dbyte => exact .inl (decodeReply_status h)
  case rdnl | rdnw => exact .inl (nodeReply_status h)
  case flush =>
    cases h
    exact .inl (flushByte_status a)
  all_goals
    cases h
    exact .inl rfl

/-! ### Words that are no command (R225) -/

/-- R225: a word that is no command. -/
theorem runWord_of_not_command {w : CmdWord} (s : State) (h : ∀ i, decode w ≠ .ok i) :
    runWord w s = .next (s.answerRefused w 0x01#8) := by
  cases hd : decode w with
  | ok i => exact absurd hd (h i)
  | error e => exact runWord_illegal s hd

theorem answerRefused_run {s : State} {w : CmdWord} {st : BitVec 8} (hm : s.arch.mode = .run) :
    s.answerRefused w st = ⟨{ s.arch with ecause := st, ecmd := w }, s.ports.answered st 0#56 [] []⟩ := by
  simp [State.answerRefused, hm]

theorem answerRefused_fault {s : State} {w : CmdWord} {st : BitVec 8} (hm : s.arch.mode = .fault) :
    s.answerRefused w st = ⟨s.arch, s.ports.answered st 0#56 [] []⟩ := by
  simp [State.answerRefused, hm]

/-- Settles O6: a word that no row selects is no command, so the step answers it with `E_ILLEGAL`. -/
theorem illegalWordIsAnswered : Obligations.IllegalWordIsAnswered := by
  intro s w rest hp hrows
  have hnot : ∀ i, decode w ≠ .ok i := fun i hd =>
    have ⟨r, hr, hsel⟩ := (exists_selects_iff_decode w).mpr ⟨i, hd⟩
    hrows r hr hsel
  have hstep : step s = .next ((s.withPending rest).answerRefused w 0x01#8) :=
    (step_of_command_pending hp).trans (runWord_of_not_command _ hnot)
  refine ⟨fun hm => ?_, fun hm => ?_⟩
  · rw [hstep, answerRefused_run (s := s.withPending rest) hm]
    simp [Ports.answered]
  · rw [hstep, answerRefused_fault (s := s.withPending rest) hm]
    simp [Ports.answered]

/-! ### The order of the errors (R222) -/

/-- Settles O12: the guards are the tables of the spec in the order of `firstError`, and past them only `ENC` and `DEND` can
fail. -/
theorem firstErrorIsAnswered : Obligations.FirstErrorIsAnswered := by
  intro w s
  refine ⟨runWord_of_not_command s, fun i hd => ?_⟩
  obtain rfl := decode_eq_ok_iff.mp hd
  rw [runWord_command s hd, ← servedInFault_eq_false_iff, ← seqGuard_eq_false_iff, ← rangeGuard_eq_false_iff]
  refine ⟨fun ⟨hm, hi⟩ => exec_refused (firstError_faulted hm hi), fun hserved => ?_⟩
  refine ⟨fun hseq => exec_refused (firstError_seq (run_or_served hserved) hseq), fun hseq => ?_⟩
  rw [Bool.not_eq_false] at hseq
  refine ⟨fun hrange => exec_refused (firstError_range (run_or_served hserved) hseq hrange), fun hrange t ht => ?_⟩
  rw [Bool.not_eq_false] at hrange
  have hnone := firstError_none.mpr ⟨hserved, hseq, hrange⟩
  obtain ⟨e, he, -⟩ | ⟨r, -, hr, rfl⟩ := exec_cases ht
  · cases hnone.symm.trans he
  · refine ⟨r.status.code, r.data, r.ob, r.os, rfl, ?_⟩
    rcases commandBody_ok_or_raises hrange hr with hok | ⟨henc, rfl⟩ | ⟨hdend, rfl⟩
    · exact .inl (congrArg Status.code hok)
    · exact .inr (.inl ⟨rfl, henc⟩)
    · exact .inr (.inr ⟨rfl, hdend⟩)

/-! ### The state after an error (R224) -/

/-- R224: every answer is `OK` or raises one error for the word sent, on the state as it was but for `FRAME` on `E_FRAME`. -/
theorem runWord_reply {w : CmdWord} {s t : State} (h : runWord w s = .next t) :
    ∃ r, t = s.deliver r
      ∧ (r.status = .ok
        ∨ (∃ e, e ≠ .frame ∧ r = raise e w s.arch)
        ∨ (s.arch.mode = .run ∧ r = raise .frame w { s.arch with frame := true })) := by
  cases hd : decode w with
  | error e =>
    simp only [runWord, hd, illegalWord] at h
    cases h
    exact ⟨_, rfl, .inr (.inl ⟨.illegal, by decide, rfl⟩)⟩
  | ok i =>
    obtain rfl := decode_eq_ok_iff.mp hd
    rw [runWord_command s hd] at h
    obtain ⟨e, he, rfl⟩ | ⟨r, hnone, hr, rfl⟩ := exec_cases h
    · have hcode : e ≠ .nocode ∧ e ≠ .frame := by
        rcases firstError_cases he with ⟨rfl, -⟩ | ⟨rfl, -⟩ | ⟨rfl, -⟩ <;> decide
      exact ⟨_, (deliver_raise_eq s e _ hcode.1).symm, .inr (.inl ⟨e, hcode.2, rfl⟩)⟩
    · obtain ⟨hserved, -, hrange⟩ := firstError_none.mp hnone
      refine ⟨r, rfl, ?_⟩
      rcases commandBody_ok_or_raises hrange hr with hok | ⟨-, hr⟩ | ⟨hi, hr⟩
      · exact .inl hok
      · exact .inr (.inl ⟨.nocode, by decide, hr⟩)
      · have hnot : servedInFault i = false := servedInFault_eq_false_iff.mpr (by rw [hi]; decide)
        exact .inr (.inr ⟨(run_or_served hserved).resolve_right (by simp [hnot]), hr⟩)

/-- The state an error with code `st` leaves in `RUN` mode (R224). -/
def Arch.erred (a : Arch) (st : BitVec 8) (w : CmdWord) : Arch :=
  { a with ecause := st, ecmd := w, mode := if st = 0x05#8 then .fault else .run, frame := a.frame || st == 0x04#8 }

theorem raise_run_eq_erred {e : Status} {w : CmdWord} {a : Arch} (hm : a.mode = .run) (he : e ≠ .frame) :
    (raise e w a).arch = a.erred e.code w := by
  rw [raise_run hm, Arch.erred]
  cases e <;> simp [Status.code] at he ⊢

theorem raise_frame_eq_erred {w : CmdWord} {a : Arch} (hm : a.mode = .run) :
    (raise .frame w { a with frame := true }).arch = a.erred Status.frame.code w := by
  rw [raise_run (a := { a with frame := true }) hm, Arch.erred]
  simp [Status.code]

/-- Settles O13: an answer that is not `OK` is one `raise`, and what `raise` writes is known in either mode. -/
theorem errorsArePrecise : Obligations.ErrorsArePrecise := by
  intro w s t st data ob os h hports hst
  obtain ⟨r, rfl, hr⟩ := runWord_reply h
  obtain ⟨rfl, rfl, rfl, rfl⟩ := answered_inj hports
  rcases hr with hok | ⟨e, he, rfl⟩ | ⟨hm, rfl⟩
  · exact absurd (congrArg Status.code hok) hst
  · exact ⟨rfl, rfl, rfl, raise_fault, fun hm => raise_run_eq_erred hm he⟩
  · refine ⟨rfl, rfl, rfl, fun hfault => ?_, raise_frame_eq_erred⟩
    cases hm.symm.trans hfault

end Sys2Proof.Machine
end

section
/-! SUPPORT. The two codecs on one tree (spec/70_reset_and_hazards.md R267): what the encoder's commands can write, and what the
decoder's can. -/

namespace Sys2Proof.Machine

/-! ### What an error writes (R224) -/

/-- Raising an error writes the error registers and `MODE` at most. -/
theorem raise_frame (e : Status) (w : CmdWord) (a : Arch) :
    (raise e w a).arch = { a with
      mode := (raise e w a).arch.mode, ecause := (raise e w a).arch.ecause, ecmd := (raise e w a).arch.ecmd } := by
  cases hm : a.mode with
  | run => rw [raise_run hm]
  | fault => rw [raise_fault hm]

/-- Only the fatal error writes `MODE`. -/
theorem raise_mode {e : Status} (h : e ≠ .nocode) (w : CmdWord) (a : Arch) : (raise e w a).arch.mode = a.mode := by
  cases hm : a.mode with
  | run => simp [raise_run hm, h]
  | fault => rw [raise_fault hm, hm]

/-- The refusal of a guard writes the error registers at most. -/
theorem answerRefused_frame (s : State) (w : CmdWord) (st : BitVec 8) :
    (s.answerRefused w st).arch = { s.arch with
      ecause := (s.answerRefused w st).arch.ecause, ecmd := (s.answerRefused w st).arch.ecmd } := by
  cases hm : s.arch.mode with
  | run => rw [answerRefused_run hm]
  | fault => rw [answerRefused_fault hm]

@[simp] theorem answerRefused_ob (s : State) (w : CmdWord) (st : BitVec 8) :
    (s.answerRefused w st).ports.ob = s.ports.ob := List.append_nil _

@[simp] theorem answerRefused_os (s : State) (w : CmdWord) (st : BitVec 8) :
    (s.answerRefused w st).ports.os = s.ports.os := List.append_nil _

/-! ### The encoder's commands -/

/-- From `a` to `b` only the encoder's registers, the error registers and `MODE` are written. -/
def Arch.OnlyEncoder (a b : Arch) : Prop :=
  b = { a with
    acc := b.acc, nacc := b.nacc, ebits := b.ebits, esym := b.esym, mode := b.mode, ecause := b.ecause, ecmd := b.ecmd }

theorem onlyEncoder_encodeSymbol (sym : Symbol) (a : Arch) :
    a.OnlyEncoder (encodeSymbol sym a).arch ∧ (encodeSymbol sym a).os = [] := by
  unfold encodeSymbol
  split
  · exact ⟨by rw [raise_frame]; rfl, rfl⟩
  · next p _ => exact ⟨by rw [pushBits_frame_esym]; rfl, rfl⟩

theorem onlyEncoder_flushByte (a : Arch) : a.OnlyEncoder (flushByte a).arch ∧ (flushByte a).os = [] := by
  unfold flushByte
  split <;> exact ⟨rfl, rfl⟩

theorem encoder_mnemonic_cases {i : Instr} (h : i.mnemonic ∈ ["ENC", "FLUSH", "ERST"]) :
    (∃ sym, i = .enc sym) ∨ i = .flush ∨ i = .erst := by
  cases i <;> simp [Instr.mnemonic] at h ⊢

/-- An encoder's command leaves what is not the encoder's, and emits no symbol, whether it is refused or not. -/
theorem exec_onlyEncoder {i : Instr} {s t : State} (hi : i.mnemonic ∈ ["ENC", "FLUSH", "ERST"]) (h : exec i s = .next t) :
    s.arch.OnlyEncoder t.arch ∧ t.ports.os = s.ports.os := by
  obtain ⟨e, -, rfl⟩ | ⟨r, -, hr, rfl⟩ := exec_cases h
  · exact ⟨by rw [answerRefused_frame]; rfl, answerRefused_os ..⟩
  · suffices hbody : s.arch.OnlyEncoder r.arch ∧ r.os = [] from ⟨hbody.1, by simp [hbody.2]⟩
    obtain ⟨sym, rfl⟩ | rfl | rfl := encoder_mnemonic_cases hi <;> cases hr
    · exact onlyEncoder_encodeSymbol sym s.arch
    · exact onlyEncoder_flushByte s.arch
    · exact ⟨rfl, rfl⟩

/-! ### The decoder's commands -/

/-- From `a` to `b` only the decoder's registers and the error registers are written. -/
def Arch.OnlyDecoder (a b : Arch) : Prop :=
  b = { a with
    dcur := b.dcur, dbits := b.dbits, dsym := b.dsym, frame := b.frame, ecause := b.ecause, ecmd := b.ecmd }

theorem onlyDecoder_decodeReply {bits : List Bool} {a : Arch} {r : Reply} (h : decodeReply bits a = .ok r) :
    a.OnlyDecoder r.arch ∧ r.ob = [] := by
  unfold decodeReply at h
  split at h <;> cases h
  next a' out hbits => exact ⟨by rw [respond_arch, decodeBits_frame hbits]; rfl, rfl⟩

theorem onlyDecoder_endOfStream (a : Arch) : a.OnlyDecoder (endOfStream a).arch ∧ (endOfStream a).ob = [] := by
  unfold endOfStream
  split
  · exact ⟨rfl, rfl⟩
  · exact ⟨by rw [raise_frame, raise_mode (by decide)]; rfl, rfl⟩

theorem decoder_mnemonic_cases {i : Instr} (h : i.mnemonic ∈ ["DBIT", "DBYTE", "DRST", "DEND"]) :
    (∃ bit, i = .dbit bit) ∨ (∃ byte nbits, i = .dbyte byte nbits) ∨ i = .drst ∨ i = .dend := by
  cases i <;> simp [Instr.mnemonic] at h ⊢

/-- A decoder's command leaves what is not the decoder's, and emits no byte, whether it is refused or not. -/
theorem exec_onlyDecoder {i : Instr} {s t : State} (hi : i.mnemonic ∈ ["DBIT", "DBYTE", "DRST", "DEND"])
    (h : exec i s = .next t) : s.arch.OnlyDecoder t.arch ∧ t.ports.ob = s.ports.ob := by
  obtain ⟨e, -, rfl⟩ | ⟨r, -, hr, rfl⟩ := exec_cases h
  · exact ⟨by rw [answerRefused_frame]; rfl, answerRefused_ob ..⟩
  · suffices hbody : s.arch.OnlyDecoder r.arch ∧ r.ob = [] from ⟨hbody.1, by simp [hbody.2]⟩
    obtain ⟨bit, rfl⟩ | ⟨byte, nbits, rfl⟩ | rfl | rfl := decoder_mnemonic_cases hi
    · exact onlyDecoder_decodeReply hr
    · exact onlyDecoder_decodeReply hr
    · cases hr
      exact ⟨rfl, rfl⟩
    · cases hr
      exact onlyDecoder_endOfStream s.arch

/-! ### Side by side (R267) -/

/-- The map, the tree and the table are the same in `a` and `b`. -/
def Arch.SameTables (a b : Arch) : Prop :=
  b.freq = a.freq ∧ b.node = a.node ∧ b.code = a.code ∧ b.tstate = a.tstate ∧ b.root = a.root ∧ b.cvalid = a.cvalid

theorem Arch.OnlyEncoder.sameTables {a b : Arch} (h : a.OnlyEncoder b) : a.SameTables b := by
  rw [h]
  exact ⟨rfl, rfl, rfl, rfl, rfl, rfl⟩

theorem Arch.OnlyDecoder.sameTables {a b : Arch} (h : a.OnlyDecoder b) : a.SameTables b := by
  rw [h]
  exact ⟨rfl, rfl, rfl, rfl, rfl, rfl⟩

/-- Settles O54: the registers the encoder's commands write and those the decoder's write are disjoint, and neither are the map,
the tree or the table. -/
theorem encoderAndDecoderDoNotDisturbEachOther : Obligations.EncoderAndDecoderDoNotDisturbEachOther := by
  intro i s t h
  refine ⟨fun hi => ?_, fun hi => ?_, fun hi => ?_⟩
  · obtain ⟨harch, hos⟩ := exec_onlyEncoder hi h
    rw [harch]
    exact ⟨rfl, rfl, rfl, rfl, hos⟩
  · obtain ⟨harch, hob⟩ := exec_onlyDecoder hi h
    rw [harch]
    exact ⟨rfl, rfl, rfl, rfl, hob, rfl⟩
  · obtain henc | hdec := (List.mem_append (s := ["ENC", "FLUSH", "ERST"])).mp hi
    · exact (exec_onlyEncoder henc h).1.sameTables
    · exact (exec_onlyDecoder hdec h).1.sameTables

end Sys2Proof.Machine
end

section
/-! SUPPORT. Sums over a built tree (spec/46_laws.md R190, R192): what the nodes of a tree add up to is told by what an
internal node's two children add up to. -/

namespace Sys2Proof.Machine

/-! ### The size of a built tree (R190) -/

theorem countP_isLeaf_buildTree (freq : Memory Count) :
    (buildTree freq).1.countP Node.isLeaf = (doubleLone (leaves freq)).length := by
  obtain ⟨inner, htree, hinner⟩ := buildTree_eq_append freq
  have hleaves : (doubleLone (leaves freq)).countP Node.isLeaf = (doubleLone (leaves freq)).length :=
    List.countP_eq_length.mpr fun n hn => (mem_doubleLone_leaves hn).1
  have hnone : inner.countP Node.isLeaf = 0 := List.countP_eq_zero.mpr fun n hn => by simp [hinner n hn]
  rw [htree, List.countP_append, hleaves, hnone, Nat.add_zero]

/-- Settles O22: the loop ends with one tree, which has one internal node fewer than leaves; no way down is longer than
there are internal nodes. -/
theorem builtTreeHasTheShape : Obligations.BuiltTreeHasTheShape := by
  intro freq h
  have hshape := treeShape_buildTree h
  have hlen := buildTree_length freq
  have hleaves := doubleLone_leaves_length freq h
  refine ⟨hshape, by omega, (countP_isLeaf_buildTree freq).trans hleaves, fun sym p hp => ⟨?_, ?_⟩⟩
  · exact List.length_pos_of_ne_nil (hshape.leafPath_ne_nil hp)
  · exact hshape.leafPath_length_le (buildTree_length_le freq) hp

/-! ### Sums over the nodes of a tree -/

theorem weightAt_of_getElem? {nodes : List Node} {i : Nat} {n : Node} (h : nodes[i]? = some n) :
    weightAt nodes i = n.weight.toNat := by
  simp [weightAt, h]

/-- Every index but the root is counted once by the nodes' children. -/
theorem TreeShape.sum_range {nodes : List Node} (h : TreeShape nodes) (f : Nat → Nat) :
    ((List.range nodes.length).map f).sum
      = f (nodes.length - 1) + (nodes.map fun n => (n.children.map f).sum).sum := by
  obtain ⟨w, l, r, hroot⟩ := h.rootInternal
  have hlt := (List.getElem?_eq_some_iff.mp hroot).1
  have hlast : List.range nodes.length = List.range (nodes.length - 1) ++ [nodes.length - 1] := by
    rw [← List.range_succ, Nat.succ_eq_add_one, Nat.sub_add_cancel (by omega)]
  have howned := (h.ownedOnce.map f).sum_eq
  rw [hlast, List.map_append, List.sum_append, ← howned, List.map_flatMap, List.flatMap_def,
    List.sum_flatten, List.map_map, List.map_singleton, List.sum_singleton, Nat.add_comm]
  rfl

theorem sum_map_eq_zipIdx (nodes : List Node) (φ : Node → Nat) :
    (nodes.map φ).sum = (nodes.zipIdx.map fun e => φ e.1).sum := by
  conv_lhs => rw [← List.zipIdx_map_fst 0 nodes, List.map_map]
  rfl

theorem sum_range_eq_zipIdx (nodes : List Node) (f : Nat → Nat) :
    ((List.range nodes.length).map f).sum = (nodes.zipIdx.map fun e => f e.2).sum := by
  rw [List.range_eq_range', ← List.zipIdx_map_snd, List.map_map]
  rfl

/-- The sum over the leaves of a node table. -/
def sumLeaves (φ : Node → Nat) (nodes : List Node) : Nat := (nodes.map fun n => if n.isLeaf then φ n else 0).sum

/-- The sum over the internal nodes of a node table. -/
def sumInternals (φ : Node → Nat) (nodes : List Node) : Nat := (nodes.map fun n => if n.isLeaf then 0 else φ n).sum

@[simp] theorem sumInternals_zero (nodes : List Node) : sumInternals (fun _ => 0) nodes = 0 := by
  simp [sumInternals]

/-- Give every node a number. If the two children of an internal node have together what it has and a surplus, then the leaves
have together what the root has and all the surpluses. -/
theorem TreeShape.sumLeaves_eq {nodes : List Node} (h : TreeShape nodes) (f : Nat → Nat) {φ surplus : Node → Nat}
    (hleaf : ∀ i sym w, nodes[i]? = some (.leaf sym w) → f i = φ (.leaf sym w))
    (hinternal : ∀ i w l r, nodes[i]? = some (.internal w l r) →
      f l.toNat + f r.toNat = f i + surplus (.internal w l r)) :
    sumLeaves φ nodes = f (nodes.length - 1) + sumInternals surplus nodes := by
  have hnode : ∀ e ∈ nodes.zipIdx, (e.1.children.map f).sum + (if e.1.isLeaf then φ e.1 else 0)
      = f e.2 + if e.1.isLeaf then 0 else surplus e.1 := by
    rintro ⟨n, i⟩ he
    have hi : nodes[i]? = some n := List.mem_zipIdx_iff_getElem?.mp he
    cases n with
    | leaf sym w => simpa [Node.children, Node.isLeaf] using (hleaf i sym w hi).symm
    | internal w l r => simpa [Node.children, Node.isLeaf] using hinternal i w l r hi
  have hsum := congrArg List.sum (List.map_congr_left hnode)
  rw [List.sum_map_add, List.sum_map_add, ← sum_range_eq_zipIdx, h.sum_range, sum_map_eq_zipIdx] at hsum
  rw [sumLeaves, sumInternals, sum_map_eq_zipIdx, sum_map_eq_zipIdx nodes]
  omega

/-! ### The leaves of the map (R111, R192) -/

/-- A sum over the leaves of step 1 is one over the symbols that are keys. -/
theorem sum_leaves (freq : Memory Count) (φ : Node → Nat) : ((leaves freq).map φ).sum =
    ((List.range 256).map fun x => if freqRead freq x = 0#32 then 0
      else φ (.leaf (BitVec.ofNat 8 x) ((freqRead freq x).setWidth 40))).sum := by
  rw [leaves_eq_map_filter, List.map_map]
  induction List.range 256 with
  | nil => rfl
  | cons x xs ih => by_cases hx : freqRead freq x = 0#32 <;> simp [hx, ih]

theorem sumLeaves_buildTree (freq : Memory Count) (φ : Node → Nat) :
    sumLeaves φ (buildTree freq).1 = ((doubleLone (leaves freq)).map φ).sum := by
  obtain ⟨inner, htree, hinner⟩ := buildTree_eq_append freq
  have hstart : (doubleLone (leaves freq)).map (fun n => if n.isLeaf then φ n else 0) = (doubleLone (leaves freq)).map φ :=
    List.map_congr_left fun n hn => if_pos (mem_doubleLone_leaves hn).1
  have hzero : (inner.map fun n => if n.isLeaf then φ n else 0).sum = 0 :=
    List.sum_eq_zero fun x hx => by
      obtain ⟨n, hn, rfl⟩ := List.mem_map.mp hx
      simp [hinner n hn]
  rw [sumLeaves, htree, List.map_append, List.sum_append, hstart, hzero, Nat.add_zero]

/-- R190 (c) all the way down: the root weighs what the leaves weigh together. -/
theorem TreeShape.weightAt_root {nodes : List Node} (h : TreeShape nodes) :
    weightAt nodes (nodes.length - 1) = sumLeaves (fun n => n.weight.toNat) nodes := by
  rw [h.sumLeaves_eq (weightAt nodes) (surplus := fun _ => 0) (fun i sym w hi => weightAt_of_getElem? hi)
    (fun i w l r hi => by rw [← h.weightsAdd i w l r hi, weightAt_of_getElem? hi]; rfl), sumInternals_zero, Nat.add_zero]

theorem weightAt_root_buildTree {freq : Memory Count} (h : 1 ≤ keyCount freq) :
    weightAt (buildTree freq).1 ((buildTree freq).1.length - 1)
      = ((doubleLone (leaves freq)).map fun n => n.weight.toNat).sum := by
  rw [(treeShape_buildTree h).weightAt_root, sumLeaves_buildTree]

/-- The leaves of step 1 weigh together the sum of all counts. -/
theorem sum_weight_leaves (freq : Memory Count) : ((leaves freq).map fun n => n.weight.toNat).sum =
    ((List.range 256).map fun x => (freqRead freq x).toNat).sum := by
  rw [sum_leaves]
  refine congrArg List.sum (List.map_congr_left fun x _ => ?_)
  split
  · next hx => rw [hx]; rfl
  · exact BitVec.toNat_setWidth_of_le (by decide)

/-- Settles O24: the root weighs what the leaves weigh, which are the keys with their counts, the lone one twice. -/
theorem rootWeighsTheSumOfCounts : Obligations.RootWeighsTheSumOfCounts := by
  intro freq
  refine ⟨fun htwo => ?_, fun hone => ?_⟩
  · rw [weightAt_root_buildTree (by omega), doubleLone_of_two_le htwo, sum_weight_leaves]
  · obtain ⟨key, w, hleaves, -⟩ := exists_lone_leaf hone
    rw [weightAt_root_buildTree hone.ge, ← sum_weight_leaves, hleaves]
    simp [doubleLone, Nat.two_mul]

end Sys2Proof.Machine
end

section
/-! SUPPORT. The order of the merges (spec/41_tree_builder.md R112, R122, spec/46_laws.md R203): whatever is merged later
was of a greater priority when something was merged before it, so a heavier node never lies deeper than a lighter one. -/

namespace Sys2Proof.Machine

/-! ### The order in which the nodes are merged (R112) -/

theorem Before.trans {nodes : List Node} {i j k : Nat} (h : Before nodes i j) (h' : Before nodes j k) : Before nodes i k := by
  unfold Before at *
  omega

theorem Before.asymm {nodes : List Node} {i j : Nat} (h : Before nodes i j) : ¬ Before nodes j i := by
  unfold Before at *
  omega

theorem Before.weightAt_le {nodes : List Node} {i j : Nat} (h : Before nodes i j) : weightAt nodes i ≤ weightAt nodes j := by
  unfold Before at h
  omega

/-- The children of an internal node go before the children of every later one, and before what is not merged yet. -/
structure MergedInOrder (nodes : List Node) (q : Finset Nat) : Prop where
  children : ∀ (i j : Nat) (n m : Node), i < j → nodes[i]? = some n → nodes[j]? = some m →
    ∀ c ∈ n.children, ∀ d ∈ m.children, Before nodes c d
  waiting : ∀ n ∈ nodes, ∀ c ∈ n.children, ∀ d ∈ q, Before nodes c d

theorem mergedInOrder_of_leaves {nodes : List Node} (h : ∀ n ∈ nodes, n.isLeaf = true) (q : Finset Nat) :
    MergedInOrder nodes q where
  children i _ n _ _ hi _ c hc := by
    rw [children_of_isLeaf (h n (List.mem_of_getElem? hi))] at hc
    cases hc
  waiting n hn c hc := by
    rw [children_of_isLeaf (h n hn)] at hc
    cases hc

theorem Forest.mem_child_lt {nodes : List Node} {q : Finset Nat} (h : Forest nodes q) {n : Node} (hn : n ∈ nodes) {c : Nat}
    (hc : c ∈ n.children) : c < nodes.length := by
  have := h.child_lt (List.mem_flatMap.mpr ⟨n, hn, hc⟩)
  omega

/-- The new node goes after everything that weighs no more. -/
theorem before_new {nodes : List Node} {c : Nat} {w : Weight} (l r : NodeIdx) (hc : c < nodes.length)
    (hw : weightAt nodes c ≤ w.toNat) : Before (nodes ++ [.internal w l r]) c nodes.length := by
  have hnew : weightAt (nodes ++ [.internal w l r]) nodes.length = w.toNat :=
    weightAt_of_getElem? (n := .internal w l r) (by simp)
  rw [Before, weightAt_append _ hc, hnew]
  omega

/-- What goes before all the others and weighs no more than the new node goes before all that wait after the turn. -/
theorem before_waiting_new {nodes : List Node} {rest : Finset Nat} {c : Nat} {w : Weight} (l r : NodeIdx)
    (hrest : ∀ d ∈ rest, d < nodes.length) (hc : c < nodes.length) (hw : weightAt nodes c ≤ w.toNat)
    (h : ∀ d ∈ rest, Before nodes c d) : ∀ d ∈ insert nodes.length rest, Before (nodes ++ [.internal w l r]) c d := by
  intro d hd
  rcases Finset.mem_insert.mp hd with rfl | hd
  · exact before_new l r hc hw
  · exact (before_append_iff _ hc (hrest d hd)).mpr (h d hd)

/-- One turn merges the two that go before all the others, and the new node goes after both. -/
theorem MergedInOrder.turn {nodes : List Node} {q : Finset Nat} (h : MergedInOrder nodes q) (hforest : Forest nodes q)
    {x y : Nat} {w : Weight} {l r : NodeIdx} (hx : IsLeast nodes q x) (hy : IsLeast nodes (q.erase x) y)
    (hw : w.toNat = weightAt nodes x + weightAt nodes y) (hl : l.toNat = x) (hr : r.toNat = y) :
    MergedInOrder (nodes ++ [.internal w l r]) (insert nodes.length ((q.erase x).erase y)) := by
  obtain ⟨hxq, hxleast⟩ := hx
  obtain ⟨hyq, hyleast⟩ := hy
  obtain ⟨hyx, hyq'⟩ := Finset.mem_erase.mp hyq
  subst hl hr
  have hllt := hforest.root_lt hxq
  have hrlt := hforest.root_lt hyq'
  have hq : ∀ {d}, d ∈ (q.erase l.toNat).erase r.toNat → d ∈ q := fun hd =>
    Finset.mem_of_mem_erase (Finset.mem_of_mem_erase hd)
  have hrest : ∀ d ∈ (q.erase l.toNat).erase r.toNat, d < nodes.length := fun d hd => hforest.root_lt (hq hd)
  have hnew : ∀ {c}, c ∈ (Node.internal w l r).children → c = l.toNat ∨ c = r.toNat := by
    simp [Node.children]
  refine ⟨fun i j n m hij hi hj c hc d hd => ?_, fun n hn c hc d hd => ?_⟩
  · rcases getElem?_append_singleton_cases hi with hi | ⟨rfl, -⟩
    · have hn := List.mem_of_getElem? hi
      have hclt := hforest.mem_child_lt hn hc
      rcases getElem?_append_singleton_cases hj with hj | ⟨-, rfl⟩
      · exact (before_append_iff _ hclt (hforest.mem_child_lt (List.mem_of_getElem? hj) hd)).mpr
          (h.children i j n m hij hi hj c hc d hd)
      · rcases hnew hd with rfl | rfl
        · exact (before_append_iff _ hclt hllt).mpr (h.waiting n hn c hc _ hxq)
        · exact (before_append_iff _ hclt hrlt).mpr (h.waiting n hn c hc _ hyq')
    · have hlt := (List.getElem?_eq_some_iff.mp hj).1
      rw [List.length_append, List.length_singleton] at hlt
      omega
  · rcases List.mem_append.mp hn with hn | hn
    · have hle := (h.waiting n hn c hc _ hxq).weightAt_le
      exact before_waiting_new l r hrest (hforest.mem_child_lt hn hc) (by omega)
        (fun d hd => h.waiting n hn c hc d (hq hd)) d hd
    · obtain rfl := List.mem_singleton.mp hn
      rcases hnew hc with rfl | rfl
      · refine before_waiting_new l r hrest hllt (by omega) (fun d hd => ?_) d hd
        exact hxleast d (hq hd) (Finset.ne_of_mem_erase (Finset.mem_of_mem_erase hd))
      · refine before_waiting_new l r hrest hrlt (by omega) (fun d hd => ?_) d hd
        exact hyleast d (Finset.mem_of_mem_erase hd) (Finset.ne_of_mem_erase hd)

theorem MergeRun.mergedInOrder {nodes out : List Node} {q : Finset Nat} (run : MergeRun nodes q out)
    (hforest : Forest nodes q) (h : MergedInOrder nodes q) : ∃ q', Forest out q' ∧ MergedInOrder out q' := by
  induction run with
  | stop nodes q _ => exact ⟨q, hforest, h⟩
  | turn nodes q x y w l r out hx hy hw hl hr _ ih =>
    exact ih (hforest.turn hx.1 hy.1 hw hl hr) (h.turn hforest hx hy hw hl hr)

theorem forest_doubleLone_leaves (freq : Memory Count) :
    Forest (doubleLone (leaves freq)) (Finset.range (doubleLone (leaves freq)).length) :=
  forest_of_leaves fun _ hn => (mem_doubleLone_leaves hn).1

/-- The children of a node of a built tree go before the children of every later node. -/
theorem before_children_buildTree {freq : Memory Count} {i j : Nat} {n m : Node} (hij : i < j)
    (hi : (buildTree freq).1[i]? = some n) (hj : (buildTree freq).1[j]? = some m) {c d : Nat} (hc : c ∈ n.children)
    (hd : d ∈ m.children) : Before (buildTree freq).1 c d := by
  obtain ⟨q, -, hordered⟩ := (mergeRun_buildTree freq).mergedInOrder (forest_doubleLone_leaves freq)
    (mergedInOrder_of_leaves (fun _ hn => (mem_doubleLone_leaves hn).1) _)
  exact hordered.children i j n m hij hi hj c hc d hd

theorem one_le_keyCount_of_getElem? {freq : Memory Count} {i : Nat} {n : Node} (h : (buildTree freq).1[i]? = some n) :
    1 ≤ keyCount freq := by
  by_contra hnone
  rw [buildTree_no_key (by omega)] at h
  cases h

/-- The child that a bit selects. -/
theorem child_mem_children {w : Weight} {l r : NodeIdx} (b : Bool) :
    (if b then r.toNat else l.toNat) ∈ (Node.internal w l r).children := by
  cases b <;> simp [Node.children]

/-- Settles O26: the children of the later node go after those of the earlier one, and weights are exact sums. -/
theorem internalWeightsDoNotDecrease : Obligations.InternalWeightsDoNotDecrease := by
  intro freq i j w w' l r l' r' hij hi hj
  have hshape := treeShape_buildTree (one_le_keyCount_of_getElem? hi)
  rcases hij.lt_or_eq with hij | rfl
  · have hl := (before_children_buildTree hij hi hj (child_mem_children false) (child_mem_children false)).weightAt_le
    have hr := (before_children_buildTree hij hi hj (child_mem_children true) (child_mem_children true)).weightAt_le
    simp only [Bool.false_eq_true, if_false, if_true] at hl hr
    rw [hshape.weightsAdd i w l r hi, hshape.weightsAdd j w' l' r' hj]
    omega
  · obtain ⟨rfl, -, -⟩ := Node.internal.inj (Option.some.inj (hi.symm.trans hj))
    exact le_rfl

/-! ### Heavier nodes do not lie deeper (R203) -/

section Depth

variable {freq : Memory Count}

/-- Internal nodes go in the order in which they were made. -/
theorem before_internal_buildTree {i j : Nat} {w w' : Weight} {l r l' r' : NodeIdx} (hij : i < j)
    (hi : (buildTree freq).1[i]? = some (.internal w l r)) (hj : (buildTree freq).1[j]? = some (.internal w' l' r')) :
    Before (buildTree freq).1 i j := by
  have hle := internalWeightsDoNotDecrease freq i j w w' l r l' r' hij.le hi hj
  rw [Before, weightAt_of_getElem? hi, weightAt_of_getElem? hj, Node.weight, Node.weight]
  omega

/-- Every child goes before the root. -/
theorem child_before_root {i : Nat} {w : Weight} {l r : NodeIdx} (hi : (buildTree freq).1[i]? = some (.internal w l r))
    (b : Bool) : Before (buildTree freq).1 (if b then r.toNat else l.toNat) ((buildTree freq).1.length - 1) := by
  have hshape := treeShape_buildTree (one_le_keyCount_of_getElem? hi)
  obtain ⟨w', l', r', hroot⟩ := hshape.rootInternal
  have hlast : i ≤ (buildTree freq).1.length - 1 := by
    have := (List.getElem?_eq_some_iff.mp hi).1
    omega
  have hroots := internalWeightsDoNotDecrease freq i _ w w' l r l' r' hlast hi hroot
  have hsum := hshape.weightsAdd i w l r hi
  have hchild := hshape.child_lt_root hi b
  rw [Before, weightAt_of_getElem? hroot, Node.weight]
  cases b <;> simp at hchild ⊢ <;> omega

/-- Of two nodes of a built tree the one that goes before the other lies at least as deep: its parent goes before the
other's, or is the other's. -/
theorem path_length_le_of_before (hshape : TreeShape (buildTree freq).1) {p q : BitString} {c d : Nat}
    (hp : follow (buildTree freq).1 ((buildTree freq).1.length - 1) p = some c)
    (hq : follow (buildTree freq).1 ((buildTree freq).1.length - 1) q = some d) (hcd : Before (buildTree freq).1 c d) :
    q.length ≤ p.length := by
  induction q using List.reverseRecOn generalizing p c d with
  | nil => exact Nat.zero_le _
  | append_singleton q b' ih =>
    obtain ⟨j, w', l', r', hqj, hj, rfl⟩ := follow_concat_eq_some_iff.mp hq
    cases p using List.reverseRecOn with
    | nil =>
      obtain rfl : (buildTree freq).1.length - 1 = c := Option.some.inj hp
      exact absurd hcd (child_before_root hj b').asymm
    | append_singleton p b =>
      obtain ⟨i, w, l, r, hpi, hi, rfl⟩ := follow_concat_eq_some_iff.mp hp
      simp only [List.length_append, List.length_singleton, Nat.add_le_add_iff_right]
      rcases lt_trichotomy i j with hij | rfl | hij
      · exact ih hpi hqj (before_internal_buildTree hij hi hj)
      · rw [hshape.path_unique hpi hqj]
      · exact absurd hcd (before_children_buildTree hij hj hi (child_mem_children b') (child_mem_children b)).asymm

end Depth

/-- A derived table of a map that is not empty belongs to a tree. -/
theorem Arch.Inv.valid_of_ne_empty {a : Arch} (hinv : a.Inv) (hc : a.cvalid = true) (h : a.tstate ≠ .empty) :
    a.tstate = .valid := by
  obtain ⟨hne, -⟩ := hinv.codeDerived hc
  cases ht : a.tstate with
  | none => exact absurd ht hne
  | empty => exact absurd ht h
  | valid => rfl

/-- A derived table of a map with a key belongs to the tree that `BUILD` made of the map. -/
theorem Arch.Inv.tree_of_key {a : Arch} (hinv : a.Inv) (hbuilt : a.Built) (hc : a.cvalid = true) {x : Symbol}
    (hx : freqRead a.freq x.toNat ≠ 0#32) : a.tstate = .valid ∧ a.node = (buildTree a.freq).1 :=
  ⟨hinv.valid_of_ne_empty hc fun he => hx ((hinv.emptyClear he).1 x.toNat), (hbuilt (hinv.codeDerived hc).1).1⟩

/-- The code word of a key is the path to a leaf that weighs its count. -/
theorem Arch.Inv.exists_codeWord {a : Arch} (hinv : a.Inv) (hbuilt : a.Built) (hc : a.cvalid = true) {x : Symbol}
    (hx : freqRead a.freq x.toNat ≠ 0#32) : ∃ p j, codeRead a.code x.toNat = some p
      ∧ follow (buildTree a.freq).1 ((buildTree a.freq).1.length - 1) p = some j
      ∧ weightAt (buildTree a.freq).1 j = (freqRead a.freq x.toNat).toNat := by
  obtain ⟨ht, hnode⟩ := hinv.tree_of_key hbuilt hc hx
  have hfirst := hinv.code_firstBelow hc ht x
  rw [hnode] at hfirst
  cases hread : codeRead a.code x.toNat with
  | none =>
    exact absurd ((exists_leafPath_iff (exists_key_of_freqRead hx)).mpr hx) (hfirst.eq_none_iff.mp hread)
  | some p =>
    obtain ⟨⟨j, w, hj, hleaf⟩, -⟩ := hfirst.eq_some_iff.mp hread
    refine ⟨p, j, rfl, hj, ?_⟩
    rw [weightAt_of_getElem? hleaf, (leaf_mem_buildTree_iff.mp (List.mem_of_getElem? hleaf)).2]
    exact BitVec.toNat_setWidth_of_le (by decide)

/-- Settles O33: the leaf of the smaller count goes before the other one, so it lies at least as deep. -/
theorem moreFrequentIsNotLonger : Obligations.MoreFrequentIsNotLonger := by
  intro a hinv hbuilt hc x y hlt hy
  have hx : freqRead a.freq x.toNat ≠ 0#32 := by
    intro hzero
    rw [hzero] at hlt
    exact Nat.not_lt_zero _ hlt
  obtain ⟨p, i, hp, hpi, hwi⟩ := hinv.exists_codeWord hbuilt hc hx
  obtain ⟨q, j, hq, hqj, hwj⟩ := hinv.exists_codeWord hbuilt hc hy
  have hbefore : Before (buildTree a.freq).1 j i := .inl (by rw [hwi, hwj]; exact hlt)
  exact ⟨p, q, hp, hq, path_length_le_of_before (treeShape_buildTree (exists_key_of_freqRead hx)) hqj hpi hbefore⟩

end Sys2Proof.Machine
end

section
/-! SUPPORT. How deep the nodes of a tree lie, and what the code words add up to (spec/46_laws.md R195, R199): a number that
depends on a leaf's weight and depth adds up along the tree. -/

namespace Sys2Proof.Machine

namespace TreeShape

variable {nodes : List Node} (h : TreeShape nodes)
include h

/-! ### Paths do not go on for ever (R118) -/

/-- In a node memory of at most 511 entries no way down is longer than 255. -/
theorem follow_length_le (hlen : nodes.length ≤ 511) {p : BitString} {i j : Nat} (hp : follow nodes i p = some j) :
    p.length ≤ 255 := by
  have hpath := h.path_length_le hp
  have hmono := (List.take_sublist (i + 1) nodes).countP_le (p := fun n => !n.isLeaf)
  have htotal := List.length_eq_countP_add_countP Node.isLeaf (l := nodes)
  have hcount := h.leafCount
  simp only [Bool.not_eq_true, Bool.decide_eq_false] at htotal
  omega

/-- Bits lead down to a leaf, or all of them are edges of the tree. -/
theorem leaf_prefix_or_follow (bits : BitString) {i : Nat} (hi : i < nodes.length) :
    (∃ sym p, p <+: bits ∧ LeafBelow nodes i sym p) ∨ ∃ j, j < nodes.length ∧ follow nodes i bits = some j := by
  induction bits generalizing i with
  | nil => exact .inr ⟨i, hi, rfl⟩
  | cons b bits ih =>
    have hget : nodes[i]? = some nodes[i] := List.getElem?_eq_getElem hi
    cases hn : nodes[i] with
    | leaf sym w => exact .inl ⟨sym, [], List.nil_prefix, (leafBelow_leaf (hn ▸ hget)).mpr ⟨rfl, rfl⟩⟩
    | internal w l r =>
      rw [hn] at hget
      have hchild := h.child_lt_root hget b
      rcases ih (i := if b then r.toNat else l.toNat) (by omega) with ⟨sym, p, hp, hbelow⟩ | ⟨j, hj, hfollow⟩
      · exact .inl ⟨sym, b :: p, (List.prefix_cons_inj b).mpr hp, (leafBelow_internal_cons hget b).mpr hbelow⟩
      · exact .inr ⟨j, hj, by simpa [follow, hget] using hfollow⟩

/-- R195: 255 bits do not stay among the internal nodes. -/
theorem exists_leaf_prefix (hlen : nodes.length ≤ 511) {bits : BitString} (hbits : 255 ≤ bits.length) {i : Nat}
    (hi : i < nodes.length) : ∃ sym p, p <+: bits ∧ LeafBelow nodes i sym p := by
  rcases h.leaf_prefix_or_follow (bits ++ [false]) hi with ⟨sym, p, hp, hbelow⟩ | ⟨j, -, hfollow⟩
  · have hpath : p.length ≤ 255 := by
      obtain ⟨j, w, hj, -⟩ := hbelow
      exact h.follow_length_le hlen hj
    exact ⟨sym, p, List.prefix_of_prefix_length_le hp (List.prefix_append _ _) (by omega), hbelow⟩
  · have hpath := h.follow_length_le hlen hfollow
    rw [List.length_append, List.length_singleton] at hpath
    omega

end TreeShape

/-! ### The depth of a node -/

/-- `depth` gives the length of the path from the root to every node. -/
def IsDepth (nodes : List Node) (depth : Nat → Nat) : Prop :=
  ∀ p j, follow nodes (nodes.length - 1) p = some j → depth j = p.length

theorem TreeShape.exists_depth {nodes : List Node} (h : TreeShape nodes) : ∃ depth, IsDepth nodes depth := by
  classical
  refine ⟨fun j => if hj : ∃ p, follow nodes (nodes.length - 1) p = some j then hj.choose.length else 0, fun p j hp => ?_⟩
  have hj : ∃ p, follow nodes (nodes.length - 1) p = some j := ⟨p, hp⟩
  exact (dif_pos hj).trans (congrArg List.length (h.path_unique hj.choose_spec hp))

namespace IsDepth

variable {nodes : List Node} {depth : Nat → Nat} (hd : IsDepth nodes depth)
include hd

theorem root : depth (nodes.length - 1) = 0 := hd [] _ rfl

theorem child (h : TreeShape nodes) {i : Nat} {w : Weight} {l r : NodeIdx} (hi : nodes[i]? = some (.internal w l r))
    (b : Bool) : depth (if b then r.toNat else l.toNat) = depth i + 1 := by
  obtain ⟨p, hp⟩ := h.exists_path (List.getElem?_eq_some_iff.mp hi).1
  rw [hd p i hp, hd (p ++ [b]) _ (follow_concat_eq_some_iff.mpr ⟨i, w, l, r, hp, hi, rfl⟩), List.length_append,
    List.length_singleton]

theorem lt_of_internal (h : TreeShape nodes) (hlen : nodes.length ≤ 511) {i : Nat} {w : Weight} {l r : NodeIdx}
    (hi : nodes[i]? = some (.internal w l r)) : depth i < 255 := by
  obtain ⟨p, hp⟩ := h.exists_path (List.getElem?_eq_some_iff.mp hi).1
  have hpath := h.follow_length_le hlen ((follow_concat_eq_some_iff (b := false)).mpr ⟨i, w, l, r, hp, hi, rfl⟩)
  rw [List.length_append, List.length_singleton] at hpath
  rw [hd p i hp]
  omega

end IsDepth

/-! ### Sums over the code words (R195, R199) -/

section CodeSums

variable {freq : Memory Count} {table : Memory BitString}

/-- With two keys or more a symbol's entry is the path to its leaf. -/
theorem RecordsFirstPaths.codeRead_eq_some_iff (h : RecordsFirstPaths freq table) (htwo : 2 ≤ keyCount freq) {sym : Symbol}
    {p : BitString} : codeRead table sym.toNat = some p ↔ LeafPath (buildTree freq).1 sym p :=
  (h sym).eq_some_iff.trans ⟨And.left, fun hp => ⟨hp, fun _ hq => (leafPath_unique htwo hp hq).le⟩⟩

/-- What a symbol of the given count and code word adds to a sum; nothing without a code word. -/
def entryValue (value : Nat → Nat → Nat) (count : Nat) (entry : Option BitString) : Nat :=
  (entry.map fun p => value count p.length).getD 0

/-- The same at a leaf of the symbol. -/
def leafValue (value : Nat → Nat → Nat) (table : Memory BitString) : Node → Nat
  | .leaf sym w => entryValue value w.toNat (codeRead table sym.toNat)
  | .internal _ _ _ => 0

/-- A symbol that is no key has no code word, so the sum over all symbols is the one over the leaves. -/
theorem RecordsFirstPaths.sum_entryValue (h : RecordsFirstPaths freq table) (htwo : 2 ≤ keyCount freq)
    (value : Nat → Nat → Nat) :
    ((List.range 256).map fun x => entryValue value (freqRead freq x).toNat (codeRead table x)).sum
      = sumLeaves (leafValue value table) (buildTree freq).1 := by
  rw [sumLeaves_buildTree, doubleLone_of_two_le htwo, sum_leaves]
  refine congrArg List.sum (List.map_congr_left fun x hx => ?_)
  have hsym := toNat_symbol hx
  split
  · next hzero =>
    have hnone : codeRead table x = none := by
      rw [← hsym, (h _).eq_none_iff]
      exact fun hp => (exists_leafPath_iff (by omega)).mp hp (by rw [hsym]; exact hzero)
    rw [hnone]
    rfl
  · rw [leafValue, hsym, BitVec.toNat_setWidth_of_le (by decide)]

/-- If two siblings add what their parent would have added, were it a leaf, and a surplus, then all code words add what the
root would have added and the surpluses of the internal nodes. -/
theorem RecordsFirstPaths.sum_entryValue_eq (h : RecordsFirstPaths freq table) (htwo : 2 ≤ keyCount freq)
    {value : Nat → Nat → Nat} {surplus : Nat → Nat}
    (hsiblings : ∀ u v n, n < 255 → value u (n + 1) + value v (n + 1) = value (u + v) n + surplus (u + v)) :
    ((List.range 256).map fun x => entryValue value (freqRead freq x).toNat (codeRead table x)).sum
      = value (weightAt (buildTree freq).1 ((buildTree freq).1.length - 1)) 0
        + sumInternals (fun n => surplus n.weight.toNat) (buildTree freq).1 := by
  have hshape : TreeShape (buildTree freq).1 := treeShape_buildTree (by omega)
  obtain ⟨depth, hdepth⟩ := hshape.exists_depth
  rw [h.sum_entryValue htwo, ← hdepth.root]
  refine hshape.sumLeaves_eq (fun i => value (weightAt (buildTree freq).1 i) (depth i)) (fun i sym w hi => ?_)
    fun i w l r hi => ?_
  · obtain ⟨p, hp⟩ := hshape.exists_path (List.getElem?_eq_some_iff.mp hi).1
    rw [leafValue, (h.codeRead_eq_some_iff htwo).mpr ⟨i, w, hp, hi⟩, hdepth p i hp, weightAt_of_getElem? hi]
    rfl
  · have hl := hdepth.child hshape hi false
    have hr := hdepth.child hshape hi true
    simp only [Bool.false_eq_true, if_false, if_true] at hl hr
    have hsum := hshape.weightsAdd i w l r hi
    rw [hl, hr, hsiblings _ _ _ (hdepth.lt_of_internal hshape (buildTree_length_le freq) hi), ← hsum,
      weightAt_of_getElem? hi]
    rfl

/-- R195: with two keys or more the code is complete. -/
theorem RecordsFirstPaths.kraft_sum (h : RecordsFirstPaths freq table) (htwo : 2 ≤ keyCount freq) :
    ((List.range 256).map fun x => ((codeRead table x).map fun p => 2 ^ (255 - p.length)).getD 0).sum = 2 ^ 255 := by
  have hsiblings : ∀ n, n < 255 → 2 ^ (255 - (n + 1)) + 2 ^ (255 - (n + 1)) = 2 ^ (255 - n) + 0 := by
    intro n hn
    rw [← Nat.two_mul, ← Nat.pow_succ', Nat.add_zero]
    congr 1
    omega
  have hsum := h.sum_entryValue_eq htwo (value := fun _ n => 2 ^ (255 - n)) (surplus := fun _ => 0)
    fun _ _ n hn => hsiblings n hn
  rwa [sumInternals_zero, Nat.add_zero] at hsum

/-- R199: with two keys or more the sum of count times length is the sum of the internal nodes' weights. -/
theorem RecordsFirstPaths.sum_count_mul_length (h : RecordsFirstPaths freq table) (htwo : 2 ≤ keyCount freq) :
    ((List.range 256).map fun x => (freqRead freq x).toNat * ((codeRead table x).map List.length).getD 0).sum
      = sumInternals (fun n => n.weight.toNat) (buildTree freq).1 := by
  have hsum := h.sum_entryValue_eq htwo (value := fun count n => count * n) (surplus := fun weight => weight)
    fun u v n _ => by ring
  rw [Nat.mul_zero, Nat.zero_add] at hsum
  rw [← hsum]
  refine congrArg List.sum (List.map_congr_left fun x _ => ?_)
  cases codeRead table x <;> rfl

end CodeSums

/-! ### The code is complete (R195) -/

theorem Arch.Inv.node_length_le {a : Arch} (hinv : a.Inv) : a.node.length ≤ 511 := by
  have := a.nnodes.isLt
  rw [hinv.nodesHeld]
  omega

/-- Where there is a code word there is a tree. -/
theorem Arch.Inv.valid_of_codeRead {a : Arch} (hinv : a.Inv) (hc : a.cvalid = true) {x : Nat} {p : BitString}
    (hp : codeRead a.code x = some p) : a.tstate = .valid :=
  hinv.valid_of_ne_empty hc fun he => by
    rw [hinv.code_empty hc he] at hp
    cases hp

/-- A derived table of a built tree holds the first paths of the map's tree. -/
theorem Arch.Inv.recordsFirstPaths {a : Arch} (hinv : a.Inv) (hbuilt : a.Built) (hc : a.cvalid = true)
    (hn : 1 ≤ a.nleaf.toNat) : RecordsFirstPaths a.freq a.code := by
  obtain ⟨ht, hnode, -⟩ := hinv.tree_of_nleaf hc hbuilt hn
  intro sym
  rw [← hnode]
  exact hinv.code_firstBelow hc ht sym

/-- Settles O32: code words are paths to leaves, siblings share what their parent would have in the sum, and no 255 bits
stay among the internal nodes. -/
theorem codeIsComplete : Obligations.CodeIsComplete := by
  intro a hinv hc
  refine ⟨fun sym p hp => ?_, fun hbuilt htwo => ?_, fun ht bits hbits => ?_⟩
  · have hpath := hinv.leafPath_of_codeRead hc hp
    have hshape := hinv.validTree (hinv.valid_of_codeRead hc hp)
    exact ⟨List.length_pos_of_ne_nil (hshape.leafPath_ne_nil hpath), hshape.leafPath_length_le hinv.node_length_le hpath⟩
  · obtain ⟨-, -, hcount⟩ := hinv.tree_of_nleaf hc hbuilt (by omega)
    exact (hinv.recordsFirstPaths hbuilt hc (by omega)).kraft_sum (by omega)
  · have hshape := hinv.validTree ht
    obtain ⟨w, l, r, hroot⟩ := hshape.rootInternal
    exact hshape.exists_leaf_prefix hinv.node_length_le hbits (List.getElem?_eq_some_iff.mp hroot).1

end Sys2Proof.Machine
end

section
/-! SUPPORT. Progress of the decoder (spec/46_laws.md R201, spec/70_reset_and_hazards.md R266): as long as no symbol comes
out, the cursor goes down one way in the tree. -/

namespace Sys2Proof.Machine

/-- Bits that emit nothing lead the cursor along its way down. -/
theorem follow_of_decodeBits_silent {a a' : Arch} {p : BitString} (h : decodeBits a p = .ok (a', [])) :
    follow a.node a.dcur.toNat p = some a'.dcur.toNat := by
  induction p generalizing a with
  | nil =>
    cases h
    rfl
  | cons b p ih =>
    obtain ⟨a₁, out₁, out₂, hb, hp, hout⟩ := decodeBits_cons_eq_ok_iff.mp h
    obtain ⟨rfl, rfl⟩ := List.append_eq_nil_iff.mp hout
    obtain ⟨w, l, r, hcur, ⟨sym, w', -, hsym, -⟩ | ⟨w', l', r', -, -, rfl⟩⟩ := decodeBit_cases hb
    · cases hsym
    · have hrest := ih hp
      simp only [follow, hcur]
      rw [← hrest]
      cases b <;> rfl

/-- Settles O42: bits without a symbol are a way down from the cursor to an internal node, and no way down has 255 edges and
one more. -/
theorem decoderAlwaysEmitsWithin255Bits : Obligations.DecoderAlwaysEmitsWithin255Bits := by
  intro s bits hinv hm ht
  obtain ⟨a, out, hd, hcan, hlen⟩ := (hinv.canDecode ht).exists_decodeBits bits
  refine ⟨_, out, execAll_decb hm ht hd, rfl, hlen, fun hbits hout => ?_⟩
  subst hout
  have hframe := decodeBits_frame hd
  obtain ⟨w, l, r, hcur⟩ := hcan.cursor
  have hnode : a.node = s.arch.node := by rw [hframe]
  rw [hnode] at hcur
  have hpath := (hinv.validTree ht).follow_length_le hinv.node_length_le
    (follow_concat_eq_some_iff (b := false) |>.mpr ⟨_, w, l, r, follow_of_decodeBits_silent hd, hcur, rfl⟩)
  rw [List.length_append, List.length_singleton] at hpath
  omega

/-- The bits of a path to a leaf, but for the last ones, emit nothing. -/
theorem exists_decodeBits_silent {a : Arch} {sym : Symbol} {p q : BitString} (hq : q ≠ [])
    (h : LeafBelow a.node a.dcur.toNat sym (p ++ q)) : ∃ a', decodeBits a p = .ok (a', []) := by
  induction p generalizing a with
  | nil => exact ⟨a, rfl⟩
  | cons b p ih =>
    obtain ⟨w, l, r, hcur, hbelow⟩ := exists_internal_of_leafBelow_cons h
    obtain ⟨w', l', r', hchild⟩ : ∃ w' l' r', a.node[(if b then r else l).toNat]? = some (.internal w' l' r') := by
      obtain ⟨b', rest, hrest⟩ := List.exists_cons_of_ne_nil (List.append_ne_nil_of_right_ne_nil p hq)
      have hbelow : LeafBelow a.node (if b then r else l).toNat sym (p ++ q) := hbelow
      rw [hrest] at hbelow
      obtain ⟨w', l', r', hchild, -⟩ := exists_internal_of_leafBelow_cons hbelow
      exact ⟨w', l', r', hchild⟩
    obtain ⟨a', ha'⟩ := ih (a := { a with dbits := a.dbits + 1#48, dcur := if b then r else l }) hbelow
    exact ⟨a', decodeBits_cons_eq_ok_iff.mpr ⟨_, [], [], decodeBit_internal hcur hchild, ha', rfl⟩⟩

/-- Zero bits from the root: as many symbols as whole paths, and what is left over leads away from the root. -/
theorem exists_decodeBits_zeros {a : Arch} (hdec : a.CanDecode) (hroot : a.dcur = a.root) {sym : Symbol} {z : Nat}
    (hz : LeafPath a.node sym (List.replicate z false)) (k : Nat) :
    ∃ a', decodeBits a (List.replicate k false) = .ok (a', List.replicate (k / z) sym)
      ∧ (a'.dcur = a'.root ↔ k % z = 0) := by
  have hpos : 0 < z := by simpa using List.length_pos_of_ne_nil (hdec.shape.leafPath_ne_nil hz)
  have hmod : k % z < z := Nat.mod_lt k hpos
  have hsplit : List.replicate k false = (List.replicate (k / z) sym).flatMap (fun _ => List.replicate z false)
      ++ List.replicate (k % z) false := by
    rw [List.flatMap_replicate, List.flatten_replicate_replicate, List.replicate_append_replicate, Nat.div_add_mod']
  have hpath : List.replicate z false = List.replicate (k % z) false ++ List.replicate (z - k % z) false := by
    rw [List.replicate_append_replicate, Nat.add_sub_cancel' hmod.le]
  have hword : ∀ c ∈ List.replicate (k / z) sym, LeafPath a.node c (List.replicate z false) := by
    intro c hc
    rwa [List.eq_of_mem_replicate hc]
  obtain ⟨a₁, hwhole, hnode₁, hdcur₁, hroot₁⟩ :
      ∃ a₁, decodeBits a ((List.replicate (k / z) sym).flatMap fun _ => List.replicate z false)
        = .ok (a₁, List.replicate (k / z) sym) ∧ a₁.node = a.node ∧ a₁.dcur = a.root ∧ a₁.root = a.root :=
    ⟨_, decodeBits_flatMap _ hdec.shape hdec.root hroot hword, rfl, hroot, rfl⟩
  have hbelow : LeafBelow a₁.node a₁.dcur.toNat sym
      (List.replicate (k % z) false ++ List.replicate (z - k % z) false) := by
    rw [← hpath, hnode₁, hdcur₁, hdec.root]
    exact hz
  obtain ⟨a', hrest⟩ := exists_decodeBits_silent (by simpa using Nat.sub_ne_zero_of_lt hmod) hbelow
  have hall := decodeBits_append hwhole hrest
  rw [← hsplit, List.append_nil] at hall
  have hfollow := follow_of_decodeBits_silent hrest
  rw [hnode₁, hdcur₁, hdec.root] at hfollow
  have hroot' : a'.root = a.root := by rw [decodeBits_frame hrest, hroot₁]
  refine ⟨a', hall, fun hback => ?_, fun hzero => ?_⟩
  · rw [hback, hroot', hdec.root] at hfollow
    simpa using hdec.shape.path_unique hfollow (q := []) rfl
  · rw [hzero] at hfollow
    apply BitVec.eq_of_toNat_eq
    rw [hroot', hdec.root]
    exact (Option.some.inj hfollow).symm

/-- Settles O43: the all-zero path decodes to the leftmost symbol and brings the cursor back to the root, and what is left
over is shorter than the path. -/
theorem padBitsDecodeToTheLeftmostSymbol : Obligations.PadBitsDecodeToTheLeftmostSymbol := by
  intro s k z sym hinv hm ht hroot hz
  obtain ⟨a, hd, hback⟩ := exists_decodeBits_zeros (hinv.canDecode ht) hroot hz k
  exact ⟨_, execAll_decb hm ht hd, allOk_of_rsp rfl, rfl, hback⟩

end Sys2Proof.Machine
end

section
/-! SUPPORT. What every command writes, emits and answers (spec/10_state.md R20, R35, R53, spec/30_encoding.md R86,
spec/45_readback.md R180): one frame for the commands that succeed, and errors are one `raise`. -/

namespace Sys2Proof.Machine

/-! ### The answer of a command (R223, R228) -/

theorem Status.code_eq_zero_iff {e : Status} : e.code = 0x00#8 ↔ e = .ok := by
  cases e <;> decide

theorem Status.code_le (e : Status) : e.code.toNat ≤ 6 := by
  cases e <;> decide

/-- How a command is answered: by its pseudocode with `OK`, or by one error, raised on the state as it was but for `FRAME` on
`E_FRAME`. -/
inductive Answers (i : Instr) (a : Arch) (r : Reply) : Prop where
  | ok (status : r.status = .ok) (body : commandBody i a = .ok r)
  | error (e : Status) (notOk : e ≠ .ok) (raised : r = raise e (encode i) a)
  | frame (dend : i = .dend) (run : a.mode = .run) (raised : r = raise .frame (encode i) { a with frame := true })

theorem eq_dend_of_mnemonic {i : Instr} (h : i.mnemonic = "DEND") : i = .dend := by
  cases i <;> simp [Instr.mnemonic] at h ⊢

theorem exec_answers {i : Instr} {s t : State} (h : exec i s = .next t) :
    ∃ r, t = s.deliver r ∧ Answers i s.arch r := by
  obtain ⟨e, he, rfl⟩ | ⟨r, hnone, hr, rfl⟩ := exec_cases h
  · have hcode : e ≠ .nocode ∧ e ≠ .ok := by
      rcases firstError_cases he with ⟨rfl, -⟩ | ⟨rfl, -⟩ | ⟨rfl, -⟩ <;> decide
    exact ⟨_, (deliver_raise_eq s e _ hcode.1).symm, .error e hcode.2 rfl⟩
  · obtain ⟨hserved, -, hrange⟩ := firstError_none.mp hnone
    refine ⟨r, rfl, ?_⟩
    rcases commandBody_ok_or_raises hrange hr with hok | ⟨-, hraise⟩ | ⟨hi, hraise⟩
    · exact .ok hok hr
    · exact .error .nocode (by decide) hraise
    · obtain rfl := eq_dend_of_mnemonic hi
      exact .frame rfl ((run_or_served hserved).resolve_right nofun) hraise

/-- A word is answered like its command; one that is no command is `E_ILLEGAL`. -/
theorem runWord_answers {w : CmdWord} {s t : State} (h : runWord w s = .next t) :
    ∃ r, t = s.deliver r ∧ ((∃ i, decode w = .ok i ∧ Answers i s.arch r) ∨
      ((∀ i, decode w ≠ .ok i) ∧ r = raise .illegal w s.arch)) := by
  cases hd : decode w with
  | error e =>
    simp only [runWord, hd, illegalWord] at h
    cases h
    exact ⟨_, rfl, .inr ⟨nofun, rfl⟩⟩
  | ok i =>
    rw [runWord_command s hd] at h
    obtain ⟨r, ht, hr⟩ := exec_answers h
    exact ⟨r, ht, .inl ⟨i, rfl, hr⟩⟩

/-! ### What a successful command writes (R20) -/

/-- The registers and tables that the spec's table lists with a command as in `b`, all others as in `a` (R20). -/
def Arch.written (i : Instr) (a b : Arch) : Arch :=
  match i with
  | .clr => b
  | .ldf _ _ => { a with freq := b.freq }
  | .build => { a with
      node := b.node, tstate := b.tstate, nleaf := b.nleaf, nnodes := b.nnodes, root := b.root, dcur := b.dcur }
  | .derive => { a with code := b.code, cvalid := b.cvalid }
  | .enc _ | .erst => { a with acc := b.acc, nacc := b.nacc, ebits := b.ebits, esym := b.esym }
  | .flush => { a with acc := b.acc, nacc := b.nacc }
  | .drst => { a with dcur := b.dcur, dbits := b.dbits, dsym := b.dsym, frame := b.frame }
  | .dbit _ | .dbyte _ _ => { a with dcur := b.dcur, dbits := b.dbits, dsym := b.dsym }
  | .dend => { a with frame := b.frame }
  | .nop | .rdf _ | .rdnl _ | .rdnw _ | .rdc _ _ | .rds _ => a

theorem nodeReply_eq_ok {idx : NodeIdx} {view : Node → RspData} {a : Arch} {r : Reply} (h : nodeReply idx view a = .ok r) :
    ∃ n, r = respond a (view n) := by
  unfold nodeReply at h
  split at h <;> cases h
  exact ⟨_, rfl⟩

theorem decodeReply_eq_ok {bits : List Bool} {a : Arch} {r : Reply} (h : decodeReply bits a = .ok r) :
    ∃ a' out, decodeBits a bits = .ok (a', out) ∧ r = { respond a' 0#56 with os := out } := by
  unfold decodeReply at h
  split at h <;> cases h
  next a' out hbits => exact ⟨a', out, hbits, rfl⟩

theorem csrReply_eq_ok {n : BitVec 8} {a : Arch} {r : Reply} (h : commandBody (.rds n) a = .ok r) (hok : r.status = .ok) :
    ∃ data, r = respond a data := by
  simp only [commandBody] at h
  split at h <;> cases h
  · exact ⟨_, rfl⟩
  · cases hok

theorem deriveReply_eq_ok {a : Arch} {r : Reply} (h : commandBody .derive a = .ok r) :
    ∃ table, deriveTable a.node a.root a.tstate = .ok table ∧ r = respond { a with code := table, cvalid := true } 0#56 := by
  simp only [commandBody] at h
  split at h <;> cases h
  next table htable => exact ⟨table, htable, rfl⟩

theorem encodeSymbol_eq_ok {sym : Symbol} {a : Arch} (hok : (encodeSymbol sym a).status = .ok) : ∃ p,
    codeRead a.code sym.toNat = some p ∧ encodeSymbol sym a =
      { arch := { (pushBits p a).1 with esym := a.esym + 1#48 }
        status := .ok
        data := 0#56
        ob := (pushBits p a).2
        os := [] } := by
  unfold encodeSymbol at hok ⊢
  split at hok
  · cases hok
  · next p hp => exact ⟨p, hp, rfl⟩

theorem endOfStream_eq_ok {a : Arch} (hok : (endOfStream a).status = .ok) : endOfStream a = respond a 0#56 := by
  unfold endOfStream at hok ⊢
  split at hok
  · next h => rw [if_pos h]
  · cases hok

/-- The frame of a successful command. -/
theorem commandBody_written {i : Instr} {a : Arch} {r : Reply} (h : commandBody i a = .ok r) (hok : r.status = .ok) :
    r.arch = a.written i r.arch := by
  cases i
  case build =>
    cases h
    rw [respond_arch, writeTree_eq]
    rfl
  case derive =>
    obtain ⟨table, -, rfl⟩ := deriveReply_eq_ok h
    rfl
  case enc sym =>
    cases h
    obtain ⟨p, -, hreply⟩ := encodeSymbol_eq_ok hok
    rw [hreply, pushBits_frame_esym]
    rfl
  case flush =>
    cases h
    unfold flushByte
    split <;> rfl
  case dbit | dbyte =>
    obtain ⟨a', out, hbits, rfl⟩ := decodeReply_eq_ok h
    rw [respond_arch, decodeBits_frame hbits]
    rfl
  case dend =>
    cases h
    rw [endOfStream_eq_ok hok]
    rfl
  case rdnl | rdnw =>
    obtain ⟨n, rfl⟩ := nodeReply_eq_ok h
    rfl
  case rds =>
    obtain ⟨data, rfl⟩ := csrReply_eq_ok h hok
    rfl
  all_goals
    cases h
    rfl

/-- The frame of every command: what is not listed with it is left as it was, but for the error registers and `MODE`. -/
theorem exec_written {i : Instr} {s t : State} (h : exec i s = .next t) :
    t.arch = { s.arch.written i t.arch with mode := t.arch.mode, ecause := t.arch.ecause, ecmd := t.arch.ecmd } := by
  obtain ⟨r, rfl, ⟨hok, hbody⟩ | ⟨e, -, rfl⟩ | ⟨rfl, -, rfl⟩⟩ := exec_answers h
  · rw [deliver_arch, ← commandBody_written hbody hok]
  · rw [deliver_arch, raise_frame]
    cases i <;> rfl
  · rw [deliver_arch, raise_frame]
    rfl

/-- A successful command other than `CLR` leaves the error registers and `MODE` (R39). -/
theorem commandBody_keeps_errors {i : Instr} {a : Arch} {r : Reply} (h : commandBody i a = .ok r) (hok : r.status = .ok)
    (hi : i ≠ .clr) : r.arch.ecause = a.ecause ∧ r.arch.ecmd = a.ecmd ∧ r.arch.mode = a.mode := by
  rw [commandBody_written h hok]
  cases i
  case clr => exact absurd rfl hi
  all_goals exact ⟨rfl, rfl, rfl⟩

theorem statusOf_word (r : Reply) : statusOf r.word = r.status.code := BitVec.extractLsb'_append_eq_left

/-- The status that the host reads off the response. -/
theorem lastStatus_deliver (s : State) (r : Reply) :
    (s.deliver r).ports.rsp.getLast?.map statusOf = some r.status.code := by
  rw [deliver_rsp, List.getLast?_concat, Option.map_some, statusOf_word]

/-- Settles O16: the frame of every command is `Arch.written`, and what raises an error does not answer `OK`. -/
theorem registersAreWrittenOnlyByTheirCommands : Obligations.RegistersAreWrittenOnlyByTheirCommands := by
  intro i s t h
  have hlast : i ≠ .clr →
      t.arch.ecause ≠ s.arch.ecause ∨ t.arch.ecmd ≠ s.arch.ecmd ∨ t.arch.mode ≠ s.arch.mode →
        t.ports.rsp.getLast?.map statusOf ≠ some 0x00#8 := by
    intro hi hchange hstatus
    obtain ⟨r, rfl, hr⟩ := exec_answers h
    rw [lastStatus_deliver, Option.some_inj, Status.code_eq_zero_iff] at hstatus
    obtain ⟨-, hbody⟩ | ⟨e, he, rfl⟩ | ⟨-, -, rfl⟩ := hr
    · obtain ⟨hcause, hcmd, hmode⟩ := commandBody_keeps_errors hbody hstatus hi
      rcases hchange with hne | hne | hne <;> exact hne (by assumption)
    · exact he hstatus
    · cases hstatus
  have hframe := exec_written h
  generalize t.arch = b at hframe hlast
  refine ⟨?_, ?_, ?_, ?_, ?_, ?_, ?_, ?_, ?_, ?_, ?_, ?_, ?_, ?_, ?_, ?_, hlast⟩
  -- The frame keeps the register, or the command is one of those listed with it.
  all_goals
    rw [hframe]
    cases i <;> simp [Arch.written, Instr.mnemonic]

/-! ### Who emits what (R53, R86) -/

/-- Only what the spec lists with a command is in its answer: data for a read, bytes for `ENC` and `FLUSH`, symbols for
`DBIT` and `DBYTE`. -/
structure Emits (i : Instr) (r : Reply) : Prop where
  data : r.data ≠ 0#56 → i.mnemonic ∈ ["RDF", "RDNL", "RDNW", "RDC", "RDS"]
  bytes : r.ob ≠ [] → i.mnemonic ∈ ["ENC", "FLUSH"]
  symbols : r.os ≠ [] → i.mnemonic ∈ ["DBIT", "DBYTE"]

theorem emits_raise (i : Instr) (e : Status) (w : CmdWord) (a : Arch) : Emits i (raise e w a) :=
  ⟨fun h => absurd rfl h, fun h => absurd rfl h, fun h => absurd rfl h⟩

theorem emits_respond_zero (i : Instr) (a : Arch) : Emits i (respond a 0#56) :=
  ⟨fun h => absurd rfl h, fun h => absurd rfl h, fun h => absurd rfl h⟩

theorem emits_respond_read {i : Instr} (hi : i.mnemonic ∈ ["RDF", "RDNL", "RDNW", "RDC", "RDS"]) (a : Arch) (data : RspData) :
    Emits i (respond a data) :=
  ⟨fun _ => hi, fun h => absurd rfl h, fun h => absurd rfl h⟩

theorem commandBody_emits {i : Instr} {a : Arch} {r : Reply} (h : commandBody i a = .ok r) (hok : r.status = .ok) :
    Emits i r := by
  cases i
  case derive =>
    obtain ⟨table, -, rfl⟩ := deriveReply_eq_ok h
    exact emits_respond_zero _ _
  case enc sym =>
    cases h
    obtain ⟨p, -, hreply⟩ := encodeSymbol_eq_ok hok
    rw [hreply]
    exact ⟨fun h => absurd rfl h, fun _ => by simp [Instr.mnemonic], fun h => absurd rfl h⟩
  case flush =>
    cases h
    refine ⟨?_, fun _ => by simp [Instr.mnemonic], ?_⟩ <;> (unfold flushByte; split <;> simp)
  case dbit | dbyte =>
    obtain ⟨a', out, -, rfl⟩ := decodeReply_eq_ok h
    exact ⟨fun h => absurd rfl h, fun h => absurd rfl h, fun _ => by simp [Instr.mnemonic]⟩
  case dend =>
    cases h
    rw [endOfStream_eq_ok hok]
    exact emits_respond_zero _ _
  case rdf | rdc =>
    cases h
    exact emits_respond_read (by simp [Instr.mnemonic]) _ _
  case rdnl | rdnw =>
    obtain ⟨n, rfl⟩ := nodeReply_eq_ok h
    exact emits_respond_read (by simp [Instr.mnemonic]) _ _
  case rds =>
    obtain ⟨data, rfl⟩ := csrReply_eq_ok h hok
    exact emits_respond_read (by simp [Instr.mnemonic]) _ _
  all_goals
    cases h
    exact emits_respond_zero _ _

theorem Answers.emits {i : Instr} {a : Arch} {r : Reply} (h : Answers i a r) : Emits i r := by
  obtain ⟨hok, hbody⟩ | ⟨e, -, rfl⟩ | ⟨-, -, rfl⟩ := h
  · exact commandBody_emits hbody hok
  · exact emits_raise ..
  · exact emits_raise ..

/-- An error answers no data. -/
theorem Answers.data_eq_zero {i : Instr} {a : Arch} {r : Reply} (h : Answers i a r) (hok : r.status ≠ .ok) :
    r.data = 0#56 := by
  obtain ⟨h, -⟩ | ⟨e, -, rfl⟩ | ⟨-, -, rfl⟩ := h
  · exact absurd h hok
  · rfl
  · rfl

/-- Settles O14: a word's one answer is its command's or `E_ILLEGAL`, and an error answers nothing but its code. -/
theorem oneResponsePerWord : Obligations.OneResponsePerWord := by
  intro w s t h
  obtain ⟨r, rfl, ⟨i, hi, hr⟩ | ⟨-, rfl⟩⟩ := runWord_answers h
  · obtain ⟨hdata, hbytes, hsymbols⟩ := hr.emits
    refine ⟨r.status.code, r.data, r.ob, r.os, rfl, r.status.code_le, fun hd => ⟨?_, i, hi, hdata hd⟩,
      fun hb => ⟨i, hi, hbytes hb⟩, fun hs => ⟨i, hi, hsymbols hs⟩⟩
    rw [Status.code_eq_zero_iff]
    exact not_not.mp fun hok => hd (hr.data_eq_zero hok)
  · exact ⟨_, _, _, _, rfl, Status.code_le _, fun h => absurd rfl h, fun h => absurd rfl h, fun h => absurd rfl h⟩

/-- Reads are not among the commands that emit, and are listed with no register. -/
theorem read_rules {i : Instr} (hi : i.mnemonic ∈ ["RDF", "RDNL", "RDNW", "RDC", "RDS"]) :
    i.mnemonic ∉ ["ENC", "FLUSH"] ∧ i.mnemonic ∉ ["DBIT", "DBYTE"] ∧ ∀ a b : Arch, a.written i b = a := by
  cases i
  case rdf | rdnl | rdnw | rdc | rds => exact ⟨by simp [Instr.mnemonic], by simp [Instr.mnemonic], fun _ _ => rfl⟩
  all_goals exact absurd hi (by simp [Instr.mnemonic])

/-- Settles O44: a read is listed with no register, and emits neither bytes nor symbols. -/
theorem readsChangeNothing : Obligations.ReadsChangeNothing := by
  intro i s t hi h
  obtain ⟨r, rfl, hr⟩ := exec_answers h
  obtain ⟨hbytes, hsymbols, hkeeps⟩ := read_rules hi
  have hob : r.ob = [] := not_not.mp (mt hr.emits.bytes hbytes)
  have hos : r.os = [] := not_not.mp (mt hr.emits.symbols hsymbols)
  refine ⟨r.status.code, r.data, by rw [deliver_eq_answered, hob, hos], fun hst => ?_, fun hst => ?_⟩
  · have hok := Status.code_eq_zero_iff.mp hst
    obtain ⟨-, hbody⟩ | ⟨e, he, rfl⟩ | ⟨-, -, rfl⟩ := hr
    · exact (commandBody_written hbody hok).trans (hkeeps s.arch r.arch)
    · exact absurd hok he
    · cases hok
  · exact hr.data_eq_zero (mt Status.code_eq_zero_iff.mpr hst)

/-! ### `MODE` (R35) -/

/-- No answer but that of `CLR` writes `MODE`, unless it is the fatal error. -/
theorem Answers.mode_or_nocode {i : Instr} {a : Arch} {r : Reply} (h : Answers i a r) (hi : i ≠ .clr) :
    (r.status ≠ .nocode ∧ r.arch.mode = a.mode) ∨ ∃ w, r = raise .nocode w a := by
  obtain ⟨hok, hbody⟩ | ⟨e, -, rfl⟩ | ⟨-, -, rfl⟩ := h
  · exact .inl ⟨by simp [hok], (commandBody_keeps_errors hbody hok hi).2.2⟩
  · by_cases he : e = .nocode
    · exact .inr ⟨_, by rw [he]⟩
    · exact .inl ⟨he, raise_mode he _ _⟩
  · exact .inl ⟨nofun, raise_mode (e := .frame) nofun _ _⟩

theorem runWord_mode_or_nocode {w : CmdWord} {s t : State} (h : runWord w s = .next t) (hw : decode w ≠ .ok .clr) :
    ∃ r, t = s.deliver r
      ∧ ((r.status ≠ .nocode ∧ r.arch.mode = s.arch.mode) ∨ ∃ w', r = raise .nocode w' s.arch) := by
  obtain ⟨r, ht, ⟨i, hi, hr⟩ | ⟨-, rfl⟩⟩ := runWord_answers h
  · exact ⟨r, ht, hr.mode_or_nocode fun hclr => hw (hclr ▸ hi)⟩
  · exact ⟨_, ht, .inl ⟨nofun, raise_mode (e := .illegal) nofun _ _⟩⟩

theorem Status.code_eq_five_iff {e : Status} : e.code = 0x05#8 ↔ e = .nocode := by
  cases e <;> decide

/-- Settles O15: a success leaves `MODE` but for `CLR`, and of the errors only `E_NOCODE` writes it, in `RUN` mode. -/
theorem modeChangesOnlyByNocodeAndClr : Obligations.ModeChangesOnlyByNocodeAndClr := by
  intro w s t h
  by_cases hw : decode w = .ok .clr
  · rw [runWord_command s hw, exec_ok (firstError_served rfl rfl rfl) rfl] at h
    cases h
    rw [lastStatus_deliver]
    exact ⟨fun _ => ⟨nofun, nofun⟩, fun _ => ⟨fun _ => hw, fun _ => rfl⟩⟩
  · obtain ⟨r, rfl, ⟨hst, hmode⟩ | ⟨w', rfl⟩⟩ := runWord_mode_or_nocode h hw <;>
      rw [lastStatus_deliver, Option.some_inj, Status.code_eq_five_iff, deliver_arch]
    · rw [hmode]
      refine ⟨fun hm => ⟨fun hf => ?_, fun he => absurd he hst⟩, fun hm => ⟨fun hr => ?_, fun hclr => absurd hclr hw⟩⟩
      · cases hm.symm.trans hf
      · cases hm.symm.trans hr
    · refine ⟨fun hm => ⟨fun _ => rfl, fun _ => by rw [raise_run hm]; rfl⟩,
        fun hm => ⟨fun hr => ?_, fun hclr => absurd hclr hw⟩⟩
      rw [raise_fault hm] at hr
      cases hm.symm.trans hr

/-! ### The empty map (R114) and the reset event (R250) -/

/-- Settles O21: a map without a key gives no node. -/
theorem emptyMapIsNoError : Obligations.EmptyMapIsNoError := by
  intro s hm ht hzero
  have hnone : keyCount s.arch.freq = 0 := List.countP_eq_zero.mpr fun x hx => by
    have hread := hzero (BitVec.ofNat 8 x)
    rw [toNat_symbol hx] at hread
    simp [hread]
  rw [exec_build_accepted hm ht, buildTree_no_key hnone]
  rfl

/-- Settles O8: the reset event writes the reset state; what a command had emitted when it was cut short is told by what it
would have emitted in all. -/
theorem resetEventGivesTheResetState : Obligations.ResetEventGivesTheResetState := by
  refine ⟨fun s rest hp => ?_, fun s t w k rest st data ob os hp hrun hports => ?_⟩
  · simp only [step, takeEvent, hp]
    rfl
  · have hrun : runWord w (s.withPending rest) = .next t := hrun
    simp only [step, takeEvent, hp, runWordCutShort, hrun]
    simp [cutShort, hports, State.reset]

end Sys2Proof.Machine
end

section
/-! SUPPORT. The invariants of every reachable state (spec/10_state.md R42, spec/20_memory.md R72): they hold at reset,
every command keeps them, and while they hold no command stops the model (spec/70_reset_and_hazards.md R271). -/

namespace Sys2Proof.Machine

/-! ### After reset (R251) -/

theorem accClean_zero {a : Arch} (h : a.acc = 0#8) : AccClean a := fun j _ _ => by simp [h]

theorem inv_reset : Arch.reset.Inv where
  nodesHeld := rfl
  freqCanonical := rfl
  codeCanonical := rfl
  noneClear _ := ⟨rfl, rfl, rfl, rfl, rfl⟩
  emptyClear := nofun
  validCounts := nofun
  validTree := nofun
  cursorInternal := nofun
  codeDerived := nofun
  accClean := accClean_zero rfl
  waitingNeedsCode h := absurd rfl h
  faultCause := nofun
  frameNeedsTree := nofun
  decoderIdle _ := ⟨rfl, rfl⟩
  encoderIdle _ := ⟨rfl, rfl, rfl⟩

theorem built_of_none {a : Arch} (h : a.tstate = .none) : a.Built := fun hne => absurd h hne

/-- Settles O50: after reset there is no tree and no table, and both codecs are idle. -/
theorem invariantsHoldAtReset : Obligations.InvariantsHoldAtReset := ⟨inv_reset, built_of_none rfl⟩

/-! ### Errors (R224) -/

/-- An error keeps the invariants, the fatal one if there is a table. -/
theorem Arch.Inv.after_raise {a : Arch} (h : a.Inv) {e : Status} (w : CmdWord) (he : e = .nocode → a.cvalid = true) :
    (raise e w a).arch.Inv := by
  cases hm : a.mode with
  | fault => rwa [raise_fault hm]
  | run =>
    have hcause : (if e = .nocode then Mode.fault else .run) = .fault → e.code = 0x05#8 ∧ a.cvalid = true := by
      intro hfault
      by_cases hno : e = .nocode
      · exact ⟨by rw [hno]; rfl, he hno⟩
      · rw [if_neg hno] at hfault
        cases hfault
    rw [raise_run hm]
    exact { h with faultCause := hcause }

theorem Arch.Inv.after_answerRefused {s : State} {i : Instr} {e : Status} (h : s.arch.Inv) (he : firstError i s.arch = some e) :
    (s.answerRefused (encode i) e.code).arch.Inv := by
  have hno : e ≠ .nocode := by rcases firstError_cases he with h | h | h <;> simp [h.1]
  rw [← deliver_raise_eq s e _ hno]
  exact h.after_raise _ fun hn => absurd hn hno

/-! ### The commands that write the map, the tree and the table -/

theorem freqRead_eq_zero_of_keyCount {freq : Memory Count} (hwf : freqWf freq = true) (h : keyCount freq = 0) (x : Nat) :
    freqRead freq x = 0#32 := by
  by_cases hx : x < 256
  · simpa using List.countP_eq_zero.mp h x (List.mem_range.mpr hx)
  · exact freqRead_outside freq x hwf (not_lt.mp hx)

theorem buildTree_eq_nil_iff {freq : Memory Count} : (buildTree freq).1 = [] ↔ keyCount freq = 0 := by
  refine ⟨fun hnil => ?_, fun h => by rw [buildTree_no_key h]⟩
  by_contra hne
  obtain ⟨w, l, r, hroot⟩ := (treeShape_buildTree (Nat.one_le_iff_ne_zero.mpr hne)).rootInternal
  rw [hnil] at hroot
  cases hroot

theorem codeWf_deriveTable {nodes : List Node} {root : NodeIdx} {tstate : TState} {table : Memory BitString}
    (h : deriveTable nodes root tstate = .ok table) : codeWf table = true := by
  cases tstate with
  | valid => exact codeWf_walk h rfl
  | none | empty =>
    cases h
    rfl

section Tables

variable {a : Arch} (h : a.Inv)
include h

theorem Arch.Inv.after_ldf (ht : a.tstate = .none) (sym : Symbol) (count : Count) :
    Arch.Inv { a with freq := freqWrite a.freq sym.toNat count } where
  __ := h
  freqCanonical := freqWf_freqWrite _ _ _ h.freqCanonical sym.isLt
  emptyClear he := absurd (ht.symm.trans he) nofun
  validCounts hv := absurd (ht.symm.trans hv) nofun

/-- `BUILD` on a map without a key (R114). -/
theorem Arch.Inv.after_build_empty (ht : a.tstate = .none) (hkeys : keyCount a.freq = 0) :
    (writeTree [] 0 a).Inv := by
  have hv : a.tstate ≠ .valid := by simp [ht]
  obtain ⟨-, -, -, -, hc⟩ := h.noneClear ht
  exact { h with
    nodesHeld := rfl
    noneClear := nofun
    emptyClear := fun _ => ⟨freqRead_eq_zero_of_keyCount h.freqCanonical hkeys, rfl, rfl, rfl, rfl⟩
    validCounts := nofun
    validTree := nofun
    cursorInternal := nofun
    codeDerived := fun hc' => absurd (hc.symm.trans hc') nofun
    frameNeedsTree := fun hf => absurd (h.frameNeedsTree hf) hv
    decoderIdle := fun _ => h.decoderIdle hv }

/-- `BUILD` on a map with a key. -/
theorem Arch.Inv.after_build_tree (ht : a.tstate = .none) (hkeys : 1 ≤ keyCount a.freq) :
    (writeTree (buildTree a.freq).1 (buildTree a.freq).2 a).Inv := by
  have hv : a.tstate ≠ .valid := by simp [ht]
  obtain ⟨-, -, -, -, hc⟩ := h.noneClear ht
  have hshape := treeShape_buildTree hkeys
  have hne : (buildTree a.freq).1 ≠ [] := mt buildTree_eq_nil_iff.mp (by omega)
  have hlen := buildTree_length a.freq
  have hleaves := doubleLone_leaves_length a.freq hkeys
  have hmax := keyCount_le a.freq
  have hnnodes : (BitVec.ofNat 9 (buildTree a.freq).1.length).toNat = (buildTree a.freq).1.length := by
    rw [BitVec.toNat_ofNat]
    omega
  have hroot : (BitVec.ofNat 9 ((buildTree a.freq).1.length - 1)).toNat = (buildTree a.freq).1.length - 1 := by
    rw [BitVec.toNat_ofNat]
    omega
  have hnleaf : (BitVec.ofNat 9 (keyCount a.freq)).toNat = keyCount a.freq := by
    rw [BitVec.toNat_ofNat]
    omega
  rw [writeTree_eq, if_neg hne, buildTree_keyCount]
  exact { h with
    nodesHeld := hnnodes.symm
    noneClear := nofun
    emptyClear := nofun
    validCounts := fun _ => by
      simp only [hnnodes, hroot, hnleaf]
      exact ⟨hkeys, trivial, by omega, trivial⟩
    validTree := fun _ => hshape
    cursorInternal := fun _ => by
      simp only [hnnodes, hroot]
      exact ⟨by omega, hshape.rootInternal⟩
    codeDerived := fun hc' => absurd (hc.symm.trans hc') nofun
    frameNeedsTree := fun hf => absurd (h.frameNeedsTree hf) hv
    decoderIdle := fun _ => h.decoderIdle hv }

theorem Arch.Inv.after_build (ht : a.tstate = .none) : (writeTree (buildTree a.freq).1 (buildTree a.freq).2 a).Inv := by
  by_cases hkeys : keyCount a.freq = 0
  · rw [buildTree_no_key hkeys]
    exact h.after_build_empty ht hkeys
  · exact h.after_build_tree ht (Nat.one_le_iff_ne_zero.mpr hkeys)

theorem Arch.Inv.after_derive (ht : a.tstate ≠ .none) {table : Memory BitString}
    (htable : deriveTable a.node a.root a.tstate = .ok table) : Arch.Inv { a with code := table, cvalid := true } where
  __ := h
  codeCanonical := codeWf_deriveTable htable
  noneClear hn := absurd hn ht
  codeDerived _ := ⟨ht, htable⟩
  waitingNeedsCode _ := rfl
  faultCause hm := ⟨(h.faultCause hm).1, rfl⟩
  encoderIdle := nofun

end Tables

/-! ### The encoder's commands -/

/-- After the bits that wait there are only zeros in `ACC`. -/
theorem Packs.accClean {x : Arch × List Byte} {bits : BitString} (h : Packs x bits) : AccClean x.1 := by
  intro j hj hj8
  have hcount := h.count
  rw [h.acc_bit hj8, List.getD_eq_default _ _ (by omega)]

section Encoder

variable {a : Arch} (h : a.Inv)
include h

theorem Arch.Inv.after_encodeSymbol (hc : a.cvalid = true) (sym : Symbol) : (encodeSymbol sym a).arch.Inv := by
  unfold encodeSymbol
  split
  · exact h.after_raise _ fun _ => hc
  · next p _ =>
    have hclean := ((packs_waitingBits h.accClean).append p).accClean
    simp only [pushBits_frame_esym]
    exact { h with
      accClean := hclean
      waitingNeedsCode := fun _ => hc
      encoderIdle := fun hc' => absurd (hc.symm.trans hc') nofun }

/-- The encoder with no bit waiting. -/
theorem Arch.Inv.with_clear_acc : Arch.Inv { a with acc := 0#8, nacc := 0#3 } where
  __ := h
  accClean := accClean_zero rfl
  waitingNeedsCode hn := absurd rfl hn
  encoderIdle hc := by
    obtain ⟨hbits, hsym, -⟩ := h.encoderIdle hc
    exact ⟨hbits, hsym, rfl⟩

theorem Arch.Inv.after_flushByte : (flushByte a).arch.Inv := by
  unfold flushByte
  split
  · exact h
  · exact h.with_clear_acc

theorem Arch.Inv.after_erst : Arch.Inv { a with acc := 0#8, nacc := 0#3, ebits := 0#48, esym := 0#48 } where
  __ := h.with_clear_acc
  encoderIdle _ := ⟨rfl, rfl, rfl⟩

end Encoder

/-! ### The decoder's commands -/

section Decoder

variable {a : Arch} (h : a.Inv)
include h

theorem Arch.Inv.after_drst : Arch.Inv { a with dcur := a.root, dbits := 0#48, dsym := 0#48, frame := false } where
  __ := h
  noneClear hn := by
    obtain ⟨hleaf, hnodes, hroot, -, hc⟩ := h.noneClear hn
    exact ⟨hleaf, hnodes, hroot, hroot, hc⟩
  emptyClear he := by
    obtain ⟨hzero, hleaf, hnodes, hroot, -⟩ := h.emptyClear he
    exact ⟨hzero, hleaf, hnodes, hroot, hroot⟩
  cursorInternal hv := by
    obtain ⟨w, l, r, hlast⟩ := (h.validTree hv).rootInternal
    have hlt := (List.getElem?_eq_some_iff.mp hlast).1
    rw [← (h.canDecode hv).root] at hlast hlt
    exact ⟨h.nodesHeld ▸ hlt, w, l, r, hlast⟩
  frameNeedsTree := nofun
  decoderIdle _ := ⟨rfl, rfl⟩

theorem Arch.Inv.after_decodeBits (hv : a.tstate = .valid) {a' : Arch} {bits : List Bool} {out : List Symbol}
    (hd : decodeBits a bits = .ok (a', out)) : a'.Inv := by
  obtain ⟨a₁, out₁, hd₁, hcan, -⟩ := (h.canDecode hv).exists_decodeBits bits
  obtain ⟨rfl, rfl⟩ := Prod.mk.inj (Except.ok.inj (hd.symm.trans hd₁))
  obtain ⟨w, l, r, hcur⟩ := hcan.cursor
  have hframe := decodeBits_frame hd
  generalize a'.dcur = dcur at hframe hcur
  generalize a'.dsym = dsym at hframe
  subst hframe
  have hlt := (List.getElem?_eq_some_iff.mp hcur).1
  exact { h with
    noneClear := fun hn => absurd (hv.symm.trans hn) nofun
    emptyClear := fun he => absurd (hv.symm.trans he) nofun
    cursorInternal := fun _ => ⟨h.nodesHeld ▸ hlt, w, l, r, hcur⟩
    decoderIdle := fun hne => absurd hv hne }

theorem Arch.Inv.after_endOfStream : (endOfStream a).arch.Inv := by
  unfold endOfStream
  split
  · exact h
  · next hroot =>
    have hv : a.tstate = .valid := not_not.mp fun hne => hroot (atRoot_eq_true_iff.mpr (.inl hne))
    have hframe : Arch.Inv { a with frame := true } := { h with frameNeedsTree := fun _ => hv }
    exact hframe.after_raise _ nofun

end Decoder

/-! ### Every step (R42) -/

/-- Every command that passes its guards keeps the invariants. -/
theorem Arch.Inv.after_commandBody {i : Instr} {a : Arch} {r : Reply} (h : a.Inv) (hguard : firstError i a = none)
    (hr : commandBody i a = .ok r) : r.arch.Inv := by
  obtain ⟨-, hseq, hrange⟩ := firstError_none.mp hguard
  cases i
  case clr =>
    cases hr
    exact inv_reset
  case ldf sym count =>
    cases hr
    exact h.after_ldf (by simpa [seqGuard] using hseq) sym count
  case build =>
    cases hr
    exact h.after_build (by simpa [seqGuard] using hseq)
  case derive =>
    obtain ⟨table, htable, rfl⟩ := deriveReply_eq_ok hr
    exact h.after_derive (by simpa [seqGuard] using hseq) htable
  case enc sym =>
    cases hr
    exact h.after_encodeSymbol hseq sym
  case flush =>
    cases hr
    exact h.after_flushByte
  case erst =>
    cases hr
    exact h.after_erst
  case drst =>
    cases hr
    exact h.after_drst
  case dbit | dbyte =>
    obtain ⟨a', out, hbits, rfl⟩ := decodeReply_eq_ok hr
    exact h.after_decodeBits (by simpa [seqGuard] using hseq) hbits
  case dend =>
    cases hr
    exact h.after_endOfStream
  case rdnl | rdnw =>
    obtain ⟨n, rfl⟩ := nodeReply_eq_ok hr
    exact h
  case rds n =>
    obtain ⟨data, hdata⟩ := exists_csr a (of_decide_eq_true hrange)
    simp only [commandBody, hdata] at hr
    cases hr
    exact h
  case nop | rdf | rdc =>
    cases hr
    exact h

theorem Arch.Inv.after_exec {i : Instr} {s t : State} (h : s.arch.Inv) (hexec : exec i s = .next t) : t.arch.Inv := by
  obtain ⟨e, he, rfl⟩ | ⟨r, hguard, hr, rfl⟩ := exec_cases hexec
  · exact h.after_answerRefused he
  · exact h.after_commandBody hguard hr

theorem Arch.Inv.after_runWord {w : CmdWord} {s t : State} (h : s.arch.Inv) (hrun : runWord w s = .next t) : t.arch.Inv := by
  cases hd : decode w with
  | ok i => exact h.after_exec (runWord_command s hd ▸ hrun)
  | error e =>
    rw [runWord_illegal s hd] at hrun
    cases hrun
    have hill := deliver_raise_eq s .illegal w nofun
    rw [Status.code] at hill
    rw [← hill]
    exact h.after_raise (e := .illegal) w nofun

/-- Settles O51: a step leaves the state as it is, resets it, or runs one word, and the invariants are kept by every command
and every error. -/
theorem everyStepKeepsTheInvariants : Obligations.EveryStepKeepsTheInvariants := by
  intro s t h hstep
  rcases step_arch hstep with heq | heq | ⟨w, rest, -, hrun⟩
  · rwa [heq]
  · rw [heq]
    exact inv_reset
  · exact Arch.Inv.after_runWord (s := s.withPending rest) h hrun

/-! ### No command stops the model (R271) -/

/-- In a state that meets the invariants a command that passes its guards answers. -/
theorem Arch.Inv.exists_reply {i : Instr} {a : Arch} (h : a.Inv) (hguard : firstError i a = none) :
    ∃ r, commandBody i a = .ok r := by
  obtain ⟨-, hseq, hrange⟩ := firstError_none.mp hguard
  cases i
  case derive =>
    obtain ⟨table, htable⟩ : ∃ table, deriveTable a.node a.root a.tstate = .ok table := by
      cases ht : a.tstate with
      | valid =>
        obtain ⟨table, htable, -⟩ := deriveTable_records_first h ht
        exact ⟨table, ht ▸ htable⟩
      | none | empty => exact ⟨[], rfl⟩
    exact ⟨_, by simp only [commandBody, htable]; rfl⟩
  case dbit bit =>
    obtain ⟨a', out, hbits, -⟩ := (h.canDecode (by simpa [seqGuard] using hseq)).exists_decodeBits [bit]
    exact ⟨_, by rw [commandBody, decodeReply, hbits]⟩
  case dbyte byte nbits =>
    obtain ⟨a', out, hbits, -⟩ := (h.canDecode (by simpa [seqGuard] using hseq)).exists_decodeBits (streamBits byte nbits)
    exact ⟨_, by rw [commandBody, decodeReply, hbits]⟩
  case rdnl idx | rdnw idx =>
    obtain ⟨n, hn⟩ := h.exists_node (of_decide_eq_true hrange)
    exact ⟨_, by rw [commandBody, nodeReply, nodeRead_ok.mpr hn]⟩
  case rds n =>
    obtain ⟨data, hdata⟩ := exists_csr a (of_decide_eq_true hrange)
    exact ⟨_, by simp only [commandBody, hdata]; rfl⟩
  all_goals exact ⟨_, rfl⟩

theorem Arch.Inv.exists_runWord {s : State} (h : s.arch.Inv) (w : CmdWord) : ∃ t, runWord w s = .next t := by
  cases hd : decode w with
  | error e => exact ⟨_, runWord_illegal s hd⟩
  | ok i =>
    rw [runWord_command s hd]
    cases hguard : firstError i s.arch with
    | some e => exact ⟨_, exec_refused hguard⟩
    | none =>
      obtain ⟨r, hr⟩ := h.exists_reply hguard
      exact ⟨_, exec_ok hguard hr⟩

/-- Settles O53: the invariants rule out every access that would stop the model. -/
theorem everyCommandEnds : Obligations.EveryCommandEnds := by
  intro s h
  unfold step takeEvent
  split
  · exact ⟨_, rfl⟩
  · next w rest _ => exact Arch.Inv.exists_runWord (s := s.withPending rest) h w
  · exact ⟨_, rfl⟩
  · next w k rest _ =>
    obtain ⟨t, ht⟩ := Arch.Inv.exists_runWord (s := s.withPending rest) h w
    exact ⟨cutShort k (s.withPending rest) t, by rw [runWordCutShort, ht]⟩

/-! ### The tree is the map's (R72) -/

theorem built_writeTree (a : Arch) : (writeTree (buildTree a.freq).1 (buildTree a.freq).2 a).Built := by
  have hkeys := keyCount_le a.freq
  have hnleaf : (BitVec.ofNat 9 (buildTree a.freq).2).toNat = (buildTree a.freq).2 := by
    rw [buildTree_keyCount, BitVec.toNat_ofNat]
    omega
  rw [writeTree_eq]
  exact fun _ => ⟨rfl, hnleaf⟩

/-- A `BUILD` that is accepted makes the tree of the map in place; `LDF` is refused once there is a tree. -/
theorem built_of_exec {i : Instr} {s t : State} (h : s.arch.Built) (hexec : exec i s = .next t) : t.arch.Built := by
  obtain ⟨e, -, rfl⟩ | ⟨r, hguard, hr, rfl⟩ := exec_cases hexec
  · rw [answerRefused_frame]
    exact h
  · obtain ⟨-, hseq, -⟩ := firstError_none.mp hguard
    cases i
    case clr =>
      cases hr
      exact built_of_none rfl
    case ldf =>
      cases hr
      exact built_of_none (by simpa [seqGuard] using hseq)
    case build =>
      cases hr
      exact built_writeTree s.arch
    all_goals
      rw [exec_written hexec]
      exact h

/-- Settles O52: a step leaves the state as it is, resets it, or runs one word, and every command keeps the tree the map's. -/
theorem treeNeverDisagreesWithTheMap : Obligations.TreeNeverDisagreesWithTheMap := by
  intro s t h hstep
  rcases step_arch hstep with heq | heq | ⟨w, rest, -, hrun⟩
  · rwa [heq]
  · rw [heq]
    exact built_of_none rfl
  · have h : (s.withPending rest).arch.Built := h
    cases hd : decode w with
    | ok i => exact built_of_exec h (runWord_command _ hd ▸ hrun)
    | error e =>
      rw [runWord_illegal _ hd] at hrun
      cases hrun
      rw [answerRefused_frame]
      exact h

end Sys2Proof.Machine
end

section
/-! SUPPORT. Whole sessions on a tree in place (spec/46_laws.md R196) and the length of the payload (spec/46_laws.md R199). -/

namespace Sys2Proof.Machine

/-! ### Encoding and decoding in place (R196) -/

theorem Arch.Inv.acc_eq_zero {a : Arch} (hinv : a.Inv) (hn : a.nacc = 0#3) : a.acc = 0#8 :=
  (packs_waitingBits hinv.accClean).acc_eq_zero hn

theorem exists_word {table : Memory BitString} {input : List Symbol} (h : ∀ c ∈ input, codeRead table c.toNat ≠ none) :
    ∃ word : Symbol → BitString, ∀ c ∈ input, codeRead table c.toNat = some (word c) := by
  choose! word hword using fun c hc => Option.ne_none_iff_exists'.mp (h c hc)
  exact ⟨word, hword⟩

theorem toNat_counter {n : Nat} (h : n < 2 ^ 48) : (BitVec.ofNat 48 n).toNat = n := by
  rw [BitVec.toNat_ofNat, Nat.mod_eq_of_lt h]

/-- Settles O55: the code words are paths to the leaves of their symbols, so the bytes emitted are what the decoder reads
back; no counter wraps below `2 ^ 48`. -/
theorem encodeThenDecodeIsTheIdentity : Obligations.EncodeThenDecodeIsTheIdentity := by
  intro s input hinv hm hc hnacc hebits hesym hne hcode hbound
  obtain ⟨word, hword⟩ := exists_word hcode
  have hpath : ∀ c ∈ input, LeafPath s.arch.node c (word c) := fun c h => hinv.leafPath_of_codeRead hc (hword c h)
  obtain ⟨c, hcin⟩ := List.exists_mem_of_ne_nil input hne
  have hvalid := hinv.valid_of_codeRead hc (hword c hcin)
  have hdec := hinv.canDecode hvalid
  have hbits : (input.flatMap word).length ≤ input.length * 255 :=
    length_flatMap_le fun c h => hdec.shape.leafPath_length_le hinv.node_length_le (hpath c h)
  obtain ⟨bytes, hencs, hpacked⟩ := completes_encs_flush hm hc hword (hinv.acc_eq_zero hnacc) hnacc hebits hesym
  obtain ⟨t, hrun, hok, ht, hob, -⟩ := hencs.exists_next
  have hdecs : Completes (.drst :: decs bytes (input.flatMap word).length ++ [.dend]) t
      (t.arch.decodedStream (input.flatMap word).length input.length) [] input := by
    refine completes_drst_decs_dend ?_ ?_ ?_ ?_ hpacked <;> rw [ht]
    · exact hm
    · exact hvalid
    · exact ⟨hdec.shape, hdec.root, hdec.cursor⟩
    · exact hpath
  obtain ⟨u, hrun', hok', hu, -, hos⟩ := hdecs.exists_next
  have hebits' : t.arch.ebits = BitVec.ofNat 48 (input.flatMap word).length := by rw [ht]
  have hcount : t.arch.ebits.toNat = (input.flatMap word).length := by rw [hebits', toNat_counter (by omega)]
  refine ⟨t, u, bytes, hrun, hok, hob, ?_⟩
  rw [hcount, hebits', hu]
  exact ⟨hpacked.length, hrun', hok', hos, rfl, toNat_counter (by omega), rfl⟩

/-! ### The payload length (R199) -/

/-- Summing over an input is summing over the symbols, each as often as it occurs. -/
theorem sum_map_eq_sum_freqOf (input : List Symbol) (g : Nat → Nat) : (input.map fun c => g c.toNat).sum =
    ((List.range 256).map fun x => freqOf input (BitVec.ofNat 8 x) * g x).sum := by
  have hcount : ∀ x ∈ List.range 256, (input.map BitVec.toNat).count x = freqOf input (BitVec.ofNat 8 x) := by
    intro x hx
    conv_lhs => rw [← toNat_symbol hx]
    exact List.count_map_of_injective input _ (fun _ _ => BitVec.eq_of_toNat_eq) _
  have hsub : (input.map BitVec.toNat).toFinset ⊆ Finset.range 256 := by
    intro x hx
    obtain ⟨c, -, rfl⟩ := List.mem_map.mp (List.mem_toFinset.mp hx)
    exact Finset.mem_range.mpr c.isLt
  calc (input.map fun c => g c.toNat).sum
      = ((input.map BitVec.toNat).map g).sum := by rw [List.map_map]; rfl
    _ = ∑ x ∈ (input.map BitVec.toNat).toFinset, (input.map BitVec.toNat).count x • g x :=
      Finset.sum_list_map_count _ _
    _ = ∑ x ∈ Finset.range 256, (input.map BitVec.toNat).count x • g x :=
      Finset.sum_subset hsub fun x _ hx => by
        rw [List.count_eq_zero_of_not_mem (mt List.mem_toFinset.mpr hx), zero_smul]
    _ = ((List.range 256).map fun x => (input.map BitVec.toNat).count x * g x).sum := rfl
    _ = ((List.range 256).map fun x => freqOf input (BitVec.ofNat 8 x) * g x).sum :=
      congrArg List.sum (List.map_congr_left fun x hx => by rw [hcount x hx])

/-- With the map `FreqOf` of an input loaded, every symbol reads its count. -/
theorem freqRead_freqPairs {input : List Symbol} (hbound : ∀ c, freqOf input c < 2 ^ 32) (c : Symbol) :
    (freqRead (loadMap (freqPairs input) []) c.toNat).toNat = freqOf input c := by
  by_cases hc : c ∈ input
  · obtain ⟨n, hmem, -, hn⟩ := exists_mem_freqPairs (hbound c) hc
    rw [freqRead_loadMap_of_mem (freqPairs_keys_nodup input) hmem, hn]
  · have hzero : freqOf input c = 0 := List.count_eq_zero_of_not_mem hc
    have hnot : c ∉ (freqPairs input).map Prod.fst := by
      intro hmem
      obtain ⟨⟨y, n⟩, hpair, rfl⟩ := List.mem_map.mp hmem
      exact (mem_freqPairs.mp hpair).1 hzero
    rw [freqRead_loadMap_of_notMem hnot, hzero]
    rfl

/-- The payload is the code words one after another, each as often as its symbol occurs. -/
theorem Encoding.payload_length {input : List Symbol} {table : Memory BitString} {word : Symbol → BitString}
    {bytes : List Byte} (h : Encoding (freqPairs input) input table word bytes) (hbound : ∀ c, freqOf input c < 2 ^ 32) :
    (input.flatMap word).length = ((List.range 256).map fun x =>
      (freqRead (loadMap (freqPairs input) []) x).toNat * ((codeRead table x).map List.length).getD 0).sum := by
  have hlength : ∀ c ∈ input, (word c).length = ((codeRead table c.toNat).map List.length).getD 0 := by
    intro c hc
    rw [h.codeWord c hc]
    rfl
  have hcount : ∀ x ∈ List.range 256,
      freqOf input (BitVec.ofNat 8 x) = (freqRead (loadMap (freqPairs input) []) x).toNat := by
    intro x hx
    rw [← freqRead_freqPairs hbound, toNat_symbol hx]
  rw [List.length_flatMap, List.map_congr_left hlength,
    sum_map_eq_sum_freqOf input fun x => ((codeRead table x).map List.length).getD 0]
  exact congrArg List.sum (List.map_congr_left fun x hx => by rw [hcount x hx])

/-- Settles O59: the payload is a sum of counts times lengths, which adds up along the tree to the weights of the internal
nodes. -/
theorem payloadLengthIsCountTimesLength : Obligations.PayloadLengthIsCountTimesLength := by
  intro input hne hbound hlen
  have hkey : ∀ c ∈ input, freqRead (loadMap (freqPairs input) []) c.toNat ≠ 0#32 := by
    intro c hc hzero
    have hcount := freqRead_freqPairs hbound c
    rw [hzero] at hcount
    exact (List.count_pos_iff.mpr hc).ne hcount
  obtain ⟨c, hc⟩ := List.exists_mem_of_ne_nil input hne
  obtain ⟨table, word, bytes, henc⟩ := exists_encoding (exists_key_of_freqRead (hkey c hc)) hkey
  obtain ⟨t, hrun, -, ht, -, -⟩ := henc.run.exists_next
  have hbits := henc.bits_le
  have hebits : t.arch.ebits.toNat = (input.flatMap word).length := by
    rw [ht]
    exact toNat_counter (by omega)
  have hnleaf : t.arch.nleaf.toNat ≤ keyCount (loadMap (freqPairs input) []) := by
    rw [ht, ← buildTree_keyCount]
    exact (BitVec.toNat_ofNat _ _).trans_le (Nat.mod_le _ _)
  refine ⟨t, hrun, ?_, fun htwo => ?_⟩
  · rw [hebits, henc.payload_length hbound, ht]
    rfl
  · rw [hebits, henc.payload_length hbound, henc.firstPaths.sum_count_mul_length (htwo.trans hnleaf), ht]
    rfl

end Sys2Proof.Machine
end

section
/-! SUPPORT. Facts about fixed values: the written-out words of spec/30_encoding.md, the reset state of
spec/70_reset_and_hazards.md R251, and the worked example of spec/41_tree_builder.md. -/

namespace Sys2Proof.Machine

/-- Settles O4: a word that is a command is the encoding of the command; of the other three the decoder names the reason. -/
theorem writtenOutWordsDecode : Obligations.WrittenOutWordsDecode := by
  refine ⟨?_, ?_, ?_, ?_, ?_, ?_, ?_, ?_, ?_, by decide, by decide, by decide⟩ <;> exact decode_eq_ok_iff.mpr rfl

/-- Settles O7: the registers are those of `Arch.reset`, and the map there has no entry. -/
theorem resetStateHoldsTheStatedValues : Obligations.ResetStateHoldsTheStatedValues :=
  ⟨fun _ => rfl, by decide⟩

/-- Settles O28: the builder is run on the five counts. -/
theorem workedExampleTree : Obligations.WorkedExampleTree := by
  unfold Obligations.WorkedExampleTree
  decide

end Sys2Proof.Machine
end
